-- ==== Sys2Proof/Word.lean ====
section
/-! DEFINITION. The words of the block: the tape cell, the instruction word, the slot index, the host word. -/

namespace Sys2Proof

/-- `bits8`, an 8-bit pattern: one tape cell, one source byte, one channel byte (00_scope.md section 5, R24). -/
abbrev Byte := BitVec 8

/-- One instruction word of format `W16` (30_encoding.md R70). -/
abbrev IWord := BitVec 16

/-- The widest slot index, tape index or stack depth: `IW = SW = 15` bits (00_scope.md R9). -/
abbrev Slot := BitVec 15

/-- A host register or array-port value (10_state.md R33, R39). -/
abbrev HostWord := BitVec 32

end Sys2Proof
end

