-- ==== Sys2Proof/Config.lean ====
section
/-! DEFINITION. The parameters of a build (00_scope.md section 3) and the two free values of the spec: the
unspecified contents of an array element that nothing has written since reset, and the responses of the input
environment. -/

namespace Sys2Proof

/-- `EOF_POLICY` (00_scope.md R10). -/
inductive EofPolicy where
  | zero
  | unchanged
deriving DecidableEq, Repr

/-- The parameters a model takes as arguments (00_scope.md R6, R7, R10, R11; 10_state.md R32). A state carries
them in its field `cfg`, and no step writes them. -/
structure Config where
  /-- `HEAPSIZE`, slots of the instruction memory and cells of the tape (R6). -/
  heapSize : Nat
  /-- `STACKSIZE`, entries of the bracket stack (R7). -/
  stackSize : Nat
  /-- `EOF_POLICY` (R10). -/
  eofPolicy : EofPolicy
  /-- `HAS_ENCODER` (R11). -/
  hasEncoder : Bool
deriving DecidableEq, Repr

/-- The values for this hardware (R6, R7, R10). `HAS_ENCODER` is OPEN in the spec (R11): `true` here is a
DESIGN CHOICE (log 2), unsafe where a claim rests on `State.reset`'s value of it. -/
def Config.hardware : Config where
  heapSize := 30000
  stackSize := 30000
  eofPolicy := .zero
  hasEncoder := true

/-- The ranges R6 and R7 give for the widths of R9. -/
abbrev Config.legal (c : Config) : Prop :=
  1 ≤ c.heapSize ∧ c.heapSize ≤ 32767 ∧ 1 ≤ c.stackSize ∧ c.stackSize ≤ 32767

/-- `IW = ceil(log2(HEAPSIZE + 1))` (R9). For a positive `HEAPSIZE` that is the number of its binary digits. -/
def Config.iw (c : Config) : Nat := c.heapSize.log2 + 1

/-- `SW = ceil(log2(STACKSIZE + 1))` (R9). -/
def Config.sw (c : Config) : Nat := c.stackSize.log2 + 1

/-- `COUNT_MAX` (R8): fixed by the 8-bit count field. -/
abbrev Config.countMax : Nat := 255

/-- The unspecified content of element `addr` of the array whose reset drew number `draw` (10_state.md R41:
"it may hold any value, and a model draws it freely, under no law"). It has no body, so nothing can be proved
of its value (log 7). -/
opaque Config.freeCell (w : Nat) (draw : Nat) (addr : Nat) : BitVec w

/-- A response of the input environment (45_io.md R173). -/
inductive Response where
  | byte (b : Byte)
  | eof
  | fail
deriving DecidableEq, Repr, Inhabited

/-- The response number `k` of an environment of which nothing is assumed (45_io.md R173: which of the three comes
is the environment's choice). It has no body, so nothing can be proved of its value (log 4). -/
opaque Config.freeResponse (k : Nat) : Response

end Sys2Proof
end

