-- ==== Sys2Proof/Syntax.lean ====
section
/-! DEFINITION. The instructions, one constructor per row of spec/opcode_table.json (30_encoding.md R72). -/

namespace Sys2Proof

/-- The nine instructions. The count operand is the 8-bit field `CNT`, read unsigned (30_encoding.md R73). The
five other instructions have no operand in the word (R74): their `CNT` is ignored and so not kept. -/
inductive Instr where
  | nop
  | moveLeft (n : BitVec 8)
  | moveRight (n : BitVec 8)
  | decrement (n : BitVec 8)
  | increment (n : BitVec 8)
  | loopStart
  | loopEnd
  | output
  | input
deriving DecidableEq, Repr

end Sys2Proof
end

