-- ==== Sys2Proof/Machine/State.lean ====
section
/-! DEFINITION. The state of the block (10_state.md), the turns of its agents, the reset state, and the reasons
a step of the model can stop. -/

namespace Sys2Proof.Machine

/-- What an element that is not listed reads as: a free draw (an array whose reset left it unspecified,
10_state.md R41), or a constant (the tape once `RUN_START` has zeroed it, 41_dispatch.md R121). -/
inductive Fill (w : Nat) where
  | free (draw : Nat)
  | const (v : BitVec w)
deriving DecidableEq, Repr

/-- One array of the block: the listed elements, addresses strictly rising, and what the others read as. For
the tape (`w = 8`) an entry is a `Host.Cell`. -/
structure Memory (w : Nat) where
  fill : Fill w
  cells : List (Nat × BitVec w)
deriving DecidableEq, Repr

/-- `MODE` (10_state.md R22). -/
inductive Mode where
  | idle
  | encoding
  | running
  | waitIn
  | done
  | fault
deriving DecidableEq, Repr

/-- What `ERR` holds (60_exceptions.md R190); codes 8 to 15 are never held. -/
inductive Err where
  | none
  | unmatchedOpenBracket
  | unmatchedCloseBracket
  | sourceTooLarge
  | pointerOutOfBounds
  | inputFailed
  | illegalInstruction
  | badJumpTarget
deriving DecidableEq, Repr

/-- The four operators a run can have: `RUN_OP` other than `none` (10_state.md R30). -/
inductive FoldOp where
  | moveLeft
  | moveRight
  | decrement
  | increment
deriving DecidableEq, Repr

/-- What the input environment answers once its listed responses are used up (log 4): nothing, so that a request
waits for ever (45_io.md R178); one response over and over; or free responses without end, `draw` the next one's number. -/
inductive Later where
  | silent
  | always (r : Response)
  | free (draw : Nat)
deriving DecidableEq, Repr

/-- The responses the input environment will give (45_io.md R173), in order: the listed ones, then `later`. -/
structure Source where
  listed : List Response
  later : Later
deriving DecidableEq, Repr

/-- The arrays the host has a port to (10_state.md R39). -/
inductive HostArray where
  | imem
  | jt
  | tape
deriving DecidableEq, Repr

/-- One host access (10_state.md R33, R39; 70_reset_and_hazards.md R231: the host has no other move). -/
inductive HostAccess where
  | readReg (index : Nat)
  | writeReg (index : Nat) (v : HostWord)
  | readArray (a : HostArray) (i : Nat)
  | writeArray (a : HostArray) (i : Nat) (v : HostWord)
deriving DecidableEq, Repr

/-- Which agent takes the next step (00_scope.md R12, R13), or a reset (70_reset_and_hazards.md R220). -/
inductive Turn where
  | device
  | input
  | host (a : HostAccess)
  | reset
deriving DecidableEq, Repr

/-- The four address spaces (20_memory.md R50). -/
inductive Space where
  | tape
  | imem
  | jt
  | stack
deriving DecidableEq, Repr

/-- The whole state. From `mode` to `runCnt` it is the architectural state of 10_state.md R20; `cfg` holds the
parameters (R32); the last five fields are the model's own: the agents' pending turns and the event history
(R32; logs 3 to 7). -/
structure State where
  cfg : Config
  mode : Mode
  err : Err
  ip : Slot
  dp : Slot
  len : Slot
  tape : Memory 8
  imem : Memory 16
  jt : Memory 15
  stack : Memory 15
  sp : Slot
  runOp : Option FoldOp
  runCnt : BitVec 8
  agenda : List Turn
  inputs : Source
  outputs : List Byte
  hostReads : List HostWord
  draws : Nat
deriving DecidableEq, Repr

/-- The block right after reset (10_state.md R41): the registers at the values the table gives, the four arrays
unspecified (draws 0 to 3), no agent with a turn pending, and the responses to come free (log 4). -/
def State.reset : State where
  cfg := Config.hardware
  mode := .idle
  err := .none
  ip := 0#15
  dp := 0#15
  len := 0#15
  tape := ⟨.free 0, []⟩
  imem := ⟨.free 1, []⟩
  jt := ⟨.free 2, []⟩
  stack := ⟨.free 3, []⟩
  sp := 0#15
  runOp := none
  runCnt := 0#8
  agenda := []
  inputs := ⟨[], .free 0⟩
  outputs := []
  hostReads := []
  draws := 4

/-- Why the model stops. Both are safe, and neither is met in a state that satisfies `Inv` (Safety.lean; log 9). -/
inductive Fault where
  /-- A device access outside an array, raised by the checked accesses of Machine/Ops.lean. The spec: "the device
  itself never makes one" (20_memory.md R57). Safe. -/
  | noSuchAddress (space : Space) (addr : Nat)
  /-- An interpreter step with `IP > LEN`, raised by Machine/Interp.lean. The interpreter "fetches only when
  IP < LEN" (41_dispatch.md R122) and `IP` never exceeds `LEN` in `RUNNING` (R127). Safe. -/
  | fetchPastLength
deriving DecidableEq, Repr

/-- Why the model has no meaning for an instruction. -/
inductive Refusal where
  /-- An arm of `exec` without a meaning. No arm uses it: all nine instructions have one. Safe. -/
  | notModelled (mnemonic : String)
deriving DecidableEq, Repr

end Sys2Proof.Machine
end

