-- ==== Sys2Proof/Machine/Ops.lean ====
section
/-! DEFINITION. The shared operations: arrays, the result of an operation, taking and leaving an error, starting
a run, reset, and whose turn it is. -/

namespace Sys2Proof.Machine

/-! ## Arrays in canonical form -/

/-- The listed element at `a`, if there is one. -/
def lookup {w : Nat} (a : Nat) : List (Nat × BitVec w) → Option (BitVec w)
  | [] => none
  | (b, v) :: rest => if a = b then some v else lookup a rest

/-- Lists `v` at `a`, in address order. -/
def insertCell {w : Nat} (a : Nat) (v : BitVec w) : List (Nat × BitVec w) → List (Nat × BitVec w)
  | [] => [(a, v)]
  | (b, u) :: rest =>
    if a < b then (a, v) :: (b, u) :: rest
    else if a = b then (a, v) :: rest
    else (b, u) :: insertCell a v rest

/-- Takes every entry at `a` out. -/
def eraseCell {w : Nat} (a : Nat) : List (Nat × BitVec w) → List (Nat × BitVec w)
  | [] => []
  | (b, u) :: rest => if a = b then eraseCell a rest else (b, u) :: eraseCell a rest

/-- Every listed address is above `lo`, and they rise strictly. -/
def risesFrom {w : Nat} (lo : Nat) : List (Nat × BitVec w) → Bool
  | [] => true
  | (b, _) :: rest => decide (lo < b) && risesFrom b rest

/-- The listed addresses rise strictly. -/
def rising {w : Nat} : List (Nat × BitVec w) → Bool
  | [] => true
  | (b, _) :: rest => risesFrom b rest

/-- What an element that is not listed reads as. ONE definition for the four arrays: a free draw where reset left
the array unspecified (10_state.md R41), the constant where it has been filled. -/
def Fill.at {w : Nat} (f : Fill w) (a : Nat) : BitVec w :=
  match f with
  | .free k => Config.freeCell w k a
  | .const v => v

/-- Whether writing `v` is the same as listing nothing: only where the array was filled with `v`. A free draw is
never known to equal a value, so an element written since reset is always listed. -/
def Fill.hides {w : Nat} (f : Fill w) (v : BitVec w) : Bool :=
  match f with
  | .free _ => false
  | .const c => v == c

/-- Reads element `a`. -/
def Memory.read {w : Nat} (m : Memory w) (a : Nat) : BitVec w :=
  match lookup a m.cells with
  | some v => v
  | none => m.fill.at a

/-- Writes `v` to element `a`, keeping the canonical form. -/
def Memory.write {w : Nat} (m : Memory w) (a : Nat) (v : BitVec w) : Memory w :=
  if m.fill.hides v then { m with cells := eraseCell a m.cells }
  else { m with cells := insertCell a v m.cells }

/-- The canonical form: addresses strictly rising, and no entry equal to what an unlisted address reads as. -/
def Memory.wf {w : Nat} (m : Memory w) : Bool :=
  rising m.cells && m.cells.all (fun e => !m.fill.hides e.2)

/-- Every listed address is below `n`. -/
def Memory.within {w : Nat} (m : Memory w) (n : Nat) : Bool :=
  m.cells.all (fun e => decide (e.1 < n))

/-- Whether element `a` is known: written since reset (70_reset_and_hazards.md R226), or filled. -/
def Memory.known {w : Nat} (m : Memory w) (a : Nat) : Bool :=
  (lookup a m.cells).isSome || (match m.fill with | .free _ => false | .const _ => true)

/-! ## Codes and modes -/

/-- The value read in `STATUS.MODE` (10_state.md R22). -/
def Mode.code : Mode → BitVec 3
  | .idle => 0#3
  | .encoding => 1#3
  | .running => 2#3
  | .waitIn => 3#3
  | .done => 4#3
  | .fault => 5#3

/-- `IDLE`, `DONE` and `FAULT` are the quiet modes (10_state.md R22). -/
def Mode.quiet : Mode → Bool
  | .idle => true
  | .encoding => false
  | .running => false
  | .waitIn => false
  | .done => true
  | .fault => true

/-- The code held in `ERR` (60_exceptions.md R190). -/
def Err.code : Err → BitVec 4
  | .none => 0#4
  | .unmatchedOpenBracket => 1#4
  | .unmatchedCloseBracket => 2#4
  | .sourceTooLarge => 3#4
  | .pointerOutOfBounds => 4#4
  | .inputFailed => 5#4
  | .illegalInstruction => 6#4
  | .badJumpTarget => 7#4

/-- The CompileErrors, raised by the encoder (60_exceptions.md R190, R191). -/
def Err.isCompile : Err → Bool
  | .none => false
  | .unmatchedOpenBracket => true
  | .unmatchedCloseBracket => true
  | .sourceTooLarge => true
  | .pointerOutOfBounds => false
  | .inputFailed => false
  | .illegalInstruction => false
  | .badJumpTarget => false

/-! ## What an operation ends in -/

/-- The result of an operation inside one step: a value, `raise E` (00_scope.md section 5), or a stop of the model. -/
inductive Eff (α : Type) where
  | ok (a : α)
  | raise (e : Err)
  | stop (f : Fault)
deriving DecidableEq, Repr

/-- Goes on with a value; an error or a stop ends the step. -/
def Eff.bind {α β : Type} (x : Eff α) (f : α → Eff β) : Eff β :=
  match x with
  | .ok a => f a
  | .raise e => .raise e
  | .stop g => .stop g

/-! ## Taking an error, and leaving the fault state -/

/-- `raise E`, the ONE operation that takes an error (60_exceptions.md R193): `ERR` and `MODE`, for an encoder
error also `LEN <- 0` (40_encoder.md R104), and nothing else. There is no vector and no saved state (R197). -/
def State.enterFault (s : State) (e : Err) : State :=
  { s with err := e, mode := .fault, len := if e.isCompile then 0#15 else s.len }

/-- `CLEAR` (10_state.md R34, 60_exceptions.md R198): the only return from the fault state but for reset. -/
def State.leaveFault (s : State) : State :=
  { s with mode := .idle, err := .none }

/-- The end of a step that began in `s`. A raising step drops every write it made and keeps only the fault
writes (60_exceptions.md R193): the error is taken in the state the step began in. -/
def settle (s : State) (x : Eff State) : Host.Outcome State Fault Refusal :=
  match x with
  | .ok t => .next t
  | .raise e => .next (s.enterFault e)
  | .stop f => .fault f

/-! ## Registers and checked array accesses -/

/-- `IP <- IP + 1` (41_dispatch.md R125). -/
def State.advance (s : State) : State := { s with ip := s.ip + 1#15 }

/-- A value cut to the `IW` bits of an index of this build (00_scope.md R9). -/
def toIndex (c : Config) (v : Nat) : Slot := BitVec.ofNat 15 (v % 2 ^ c.iw)

/-- `JT[i]`, one whole `IW`-bit entry (20_memory.md R53). -/
def State.jtEntry (s : State) (i : Nat) : Slot := toIndex s.cfg (s.jt.read i).toNat

/-- `MemRead(a, 1)` (00_scope.md section 5, 20_memory.md R53). -/
def readTape (s : State) (a : Nat) : Eff Byte :=
  if a < s.cfg.heapSize then .ok (s.tape.read a) else .stop (.noSuchAddress .tape a)

/-- `MemWrite(a, 1, v)` (00_scope.md section 5). -/
def writeTape (s : State) (a : Nat) (v : Byte) : Eff State :=
  if a < s.cfg.heapSize then .ok { s with tape := s.tape.write a v } else .stop (.noSuchAddress .tape a)

/-- `Fetch(i)`, the 16-bit word `IMEM[i]` (41_dispatch.md R122, 20_memory.md R52). -/
def readImem (s : State) (a : Nat) : Eff IWord :=
  if a < s.cfg.heapSize then .ok (s.imem.read a) else .stop (.noSuchAddress .imem a)

/-- `IMEM[a] <- w`. -/
def writeImem (s : State) (a : Nat) (w : IWord) : Eff State :=
  if a < s.cfg.heapSize then .ok { s with imem := s.imem.write a w } else .stop (.noSuchAddress .imem a)

/-- `JT[a]` read by the device. -/
def readJt (s : State) (a : Nat) : Eff Slot :=
  if a < s.cfg.heapSize then .ok (s.jtEntry a) else .stop (.noSuchAddress .jt a)

/-- `JT[a] <- v`. -/
def writeJt (s : State) (a : Nat) (v : Slot) : Eff State :=
  if a < s.cfg.heapSize then .ok { s with jt := s.jt.write a v } else .stop (.noSuchAddress .jt a)

/-- `STACK[a]`. -/
def readStack (s : State) (a : Nat) : Eff Slot :=
  if a < s.cfg.stackSize then .ok (s.stack.read a) else .stop (.noSuchAddress .stack a)

/-- `STACK[a] <- v`. -/
def writeStack (s : State) (a : Nat) (v : Slot) : Eff State :=
  if a < s.cfg.stackSize then .ok { s with stack := s.stack.write a v } else .stop (.noSuchAddress .stack a)

/-! ## The responses to come (45_io.md R173) -/

/-- The response given next once none is listed, if one is given. -/
def Later.next : Later → Option Response
  | .silent => none
  | .always r => some r
  | .free k => some (Config.freeResponse k)

/-- What follows that response. -/
def Later.rest : Later → Later
  | .silent => .silent
  | .always r => .always r
  | .free k => .free (k + 1)

/-- The response that answers the next request, if the environment answers it. -/
def Source.next (rs : Source) : Option Response :=
  match rs.listed with
  | r :: _ => some r
  | [] => rs.later.next

/-- The responses after that one. -/
def Source.rest (rs : Source) : Source :=
  match rs.listed with
  | _ :: listed => { rs with listed := listed }
  | [] => { rs with later := rs.later.rest }

/-! ## Starting a run, and reset -/

/-- `RUN_START` once accepted (41_dispatch.md R121): every cell 0, `DP`, `IP` and `ERR` 0, `MODE` `RUNNING`. The
output sequence is the record of the bytes sent since `RUN_START` (45_io.md R171), so it begins empty. -/
def State.startRun (s : State) : State :=
  { s with
    tape := ⟨.const 0#8, []⟩
    dp := 0#15
    ip := 0#15
    err := .none
    mode := .running
    outputs := [] }

/-- The response an outstanding request would have got is not delivered (70_reset_and_hazards.md R220; log 11). -/
def undelivered (m : Mode) (rs : Source) : Source :=
  match m with
  | .waitIn => rs.rest
  | _ => rs

/-- Reset (70_reset_and_hazards.md R220): every register at its reset value (10_state.md R41), the four arrays
unspecified anew, the outstanding request dropped. The parameters, the pending turns and the history are no
state of the block and stay. -/
def State.applyReset (s : State) : State :=
  { s with
    mode := .idle
    err := .none
    ip := 0#15
    dp := 0#15
    len := 0#15
    tape := ⟨.free s.draws, []⟩
    imem := ⟨.free (s.draws + 1), []⟩
    jt := ⟨.free (s.draws + 2), []⟩
    stack := ⟨.free (s.draws + 3), []⟩
    sp := 0#15
    runOp := none
    runCnt := 0#8
    inputs := undelivered s.mode s.inputs
    draws := s.draws + 4 }

/-! ## Whose turn it is -/

/-- The turn taken when the agenda names none: the input environment answers an outstanding request if it has a
response to give (the fair environment of 45_io.md R178), else the device goes on (log 3). -/
def State.defaultTurn (s : State) : Turn :=
  match s.mode, s.inputs.next with
  | .waitIn, some _ => .input
  | _, _ => .device

/-- The agent that steps next. -/
def State.turn (s : State) : Turn :=
  match s.agenda with
  | t :: _ => t
  | [] => s.defaultTurn

/-- The state with that turn taken off the agenda. -/
def State.popTurn (s : State) : State := { s with agenda := s.agenda.tail }

/-! ## Placing an instruction where the next step fetches -/

/-- A state in `RUNNING` whose `IP` names a slot: itself if it is one, else a run started in it. -/
def State.readyToFetch (s : State) : State :=
  if s.mode = .running ∧ s.ip.toNat < s.cfg.heapSize then s else s.startRun

/-- `word` loaded at the slot `IP` names (70_reset_and_hazards.md R223): `LEN` covers the slot, `JT` has an entry
at it (its own slot, if nothing was loaded there), and the device steps next. -/
def State.placeAtIp (s : State) (word : IWord) : State :=
  { s with
    imem := s.imem.write s.ip.toNat word
    jt := if s.jt.known s.ip.toNat then s.jt else s.jt.write s.ip.toNat s.ip
    len := if s.ip.toNat < s.len.toNat ∧ s.len.toNat ≤ s.cfg.heapSize then s.len else s.ip + 1#15
    agenda := [] }

end Sys2Proof.Machine
end

