-- ==== Sys2Proof/Machine/Operands.lean ====
section
/-! DEFINITION. The operands of the instructions: the count, the current cell, the jump target. No instruction
names a register or an address (10_state.md R21, 20_memory.md R50). -/

namespace Sys2Proof.Machine

/-- `zext(CNT)`, the count as an unsigned integer (30_encoding.md R73). -/
def count (n : BitVec 8) : Int := (n.toNat : Int)

/-- `MemRead(DP, 1)`, the current cell. -/
def readCell (s : State) : Eff Byte := readTape s s.dp.toNat

/-- `MemWrite(DP, 1, v)`. -/
def writeCell (s : State) (v : Byte) : Eff State := writeTape s s.dp.toNat v

/-- `bits8(v mod 256)` for any integer `v` (00_scope.md section 5). -/
def bits8 (v : Int) : Byte := BitVec.ofNat 8 (v % 256).toNat

/-- `DP <- t` for an integer `t` that has passed its range check. -/
def State.setDp (s : State) (t : Int) : State := { s with dp := BitVec.ofNat 15 t.toNat }

/-- `JumpTarget(i)` (44_loop.md R162): `JT[i]`, if it is below `LEN`. -/
def jumpTarget (s : State) (i : Nat) : Eff Slot :=
  (readJt s i).bind fun t => if s.len.toNat ≤ t.toNat then .raise .badJumpTarget else .ok t

/-- A bracket that branches: `IP <- JumpTarget(IP)`, and no 1 is added (41_dispatch.md R125). -/
def branch (s : State) : Eff State :=
  (jumpTarget s s.ip.toNat).bind fun t => .ok { s with ip := t }

end Sys2Proof.Machine
end

