-- ==== Sys2Proof/Machine/CellArith.lean ====
section
/-! DEFINITION. 43_cell_arith.md: `Increment`, `Decrement`. -/

namespace Sys2Proof.Machine

/-- Replaces the current cell `v` by `f v` and advances. -/
def updateCell (f : Byte → Byte) (s : State) : Eff State :=
  (readCell s).bind fun v => (writeCell s (f v)).bind fun t => .ok t.advance

/-- `Increment n` (43_cell_arith.md R150): `(u8(v) + n) mod 256`. -/
def execIncrement (n : BitVec 8) (s : State) : Host.Outcome State Fault Refusal :=
  settle s (updateCell (fun v => bits8 ((v.toNat : Int) + count n)) s)

/-- `Decrement n` (43_cell_arith.md R151): `(u8(v) - n) mod 256`, the remainder not negative. -/
def execDecrement (n : BitVec 8) (s : State) : Host.Outcome State Fault Refusal :=
  settle s (updateCell (fun v => bits8 ((v.toNat : Int) - count n)) s)

end Sys2Proof.Machine
end

