-- ==== Sys2Proof/Machine/Io.lean ====
section
/-! DEFINITION. 45_io.md: `Output`, `Input`, and the step of the input environment. -/

namespace Sys2Proof.Machine

/-- `Out(b)` (45_io.md R171): the byte joins the output sequence; the channel accepts every byte. -/
def State.sendByte (s : State) (b : Byte) : State := { s with outputs := s.outputs ++ [b] }

/-- `Output` (45_io.md R170). -/
def execOutput (s : State) : Host.Outcome State Fault Refusal :=
  settle s ((readCell s).bind fun v => .ok (s.sendByte v).advance)

/-- `Input`, the dispatch step (45_io.md R172): one request is now outstanding, nothing else changes. -/
def execInput (s : State) : Host.Outcome State Fault Refusal :=
  settle s (.ok { s with mode := .waitIn })

/-- The end of a response that lets the run go on: `IP <- IP + 1`, `MODE <- RUNNING` (45_io.md R174, R175). -/
def State.resume (s : State) : State := { s.advance with mode := .running }

/-- What response `r` does (45_io.md R174 to R176). -/
def respond (r : Response) (s : State) : Eff State :=
  match r with
  | .byte b => (writeCell s b).bind fun t => .ok t.resume
  | .eof =>
    match s.cfg.eofPolicy with
    | .zero => (writeCell s 0x00#8).bind fun t => .ok t.resume
    | .unchanged => .ok s.resume
  | .fail => .raise .inputFailed

/-- The step of the input environment (45_io.md R173): only in `WAIT_IN`, and only if it answers. -/
def inputStep (s : State) : Host.Outcome State Fault Refusal :=
  match s.mode, s.inputs.next with
  | .waitIn, some r => let u : State := { s with inputs := s.inputs.rest }
                       settle u (respond r u)
  | _, _ => .next s

end Sys2Proof.Machine
end

