-- ==== Sys2Proof/Machine/Flags.lean ====
section
/-! DEFINITION. The block has no flags and no condition codes (10_state.md R21). Its one condition is the zero
test of the current cell, which leaves nothing behind. -/

namespace Sys2Proof.Machine

/-- `MemRead(DP, 1) == 0x00`, on the 8-bit pattern (44_loop.md R160, R161). -/
def cellIsZero (s : State) : Eff Bool := (readCell s).bind fun v => .ok (decide (v = 0x00#8))

end Sys2Proof.Machine
end

