-- ==== Sys2Proof/Machine/Loop.lean ====
section
/-! DEFINITION. 44_loop.md: `LoopStart`, `LoopEnd`. -/

namespace Sys2Proof.Machine

/-- `LoopStart` (44_loop.md R160): branches when the current cell is 0. -/
def execLoopStart (s : State) : Host.Outcome State Fault Refusal :=
  settle s ((cellIsZero s).bind fun z => if z then branch s else .ok s.advance)

/-- `LoopEnd` (44_loop.md R161): branches when the current cell is not 0. -/
def execLoopEnd (s : State) : Host.Outcome State Fault Refusal :=
  settle s ((cellIsZero s).bind fun z => if z then .ok s.advance else branch s)

end Sys2Proof.Machine
end

