-- ==== Sys2Proof/Machine/Nop.lean ====
section
/-! DEFINITION. 46_nop.md: `Nop`. -/

namespace Sys2Proof.Machine

/-- `Nop` (46_nop.md R185): only `IP <- IP + 1`. -/
def execNop (s : State) : Host.Outcome State Fault Refusal := settle s (.ok s.advance)

end Sys2Proof.Machine
end

