-- ==== Sys2Proof/Machine/Pointer.lean ====
section
/-! DEFINITION. 42_pointer.md: `MoveLeft`, `MoveRight`. -/

namespace Sys2Proof.Machine

/-- `MoveLeft n` (42_pointer.md R140), on unbounded integers. -/
def execMoveLeft (n : BitVec 8) (s : State) : Host.Outcome State Fault Refusal :=
  let t := (s.dp.toNat : Int) - count n
  settle s (if t < 0 then .raise .pointerOutOfBounds else .ok (s.setDp t).advance)

/-- `MoveRight n` (42_pointer.md R141), on unbounded integers. -/
def execMoveRight (n : BitVec 8) (s : State) : Host.Outcome State Fault Refusal :=
  let t := (s.dp.toNat : Int) + count n
  settle s (if (s.cfg.heapSize : Int) ≤ t then .raise .pointerOutOfBounds else .ok (s.setDp t).advance)

end Sys2Proof.Machine
end

