-- ==== Sys2Proof/Machine/Dispatch.lean ====
section
/-! DEFINITION. `execute ins` (41_dispatch.md R123): one arm per instruction. -/

namespace Sys2Proof.Machine

def exec (i : Instr) (s : State) : Host.Outcome State Fault Refusal :=
  match i with
  | .nop => Sys2Proof.Machine.execNop s
  | .moveLeft n => Sys2Proof.Machine.execMoveLeft n s
  | .moveRight n => Sys2Proof.Machine.execMoveRight n s
  | .decrement n => Sys2Proof.Machine.execDecrement n s
  | .increment n => Sys2Proof.Machine.execIncrement n s
  | .loopStart => Sys2Proof.Machine.execLoopStart s
  | .loopEnd => Sys2Proof.Machine.execLoopEnd s
  | .output => Sys2Proof.Machine.execOutput s
  | .input => Sys2Proof.Machine.execInput s

end Sys2Proof.Machine
end

