-- ==== Sys2Proof/WellFormed.lean ====
section
/-! DEFINITION. Which terms of `Instr` are instructions of the block. -/

namespace Sys2Proof

/-- A count is in `1..255` (30_encoding.md R73, R77; 00_scope.md R8). The upper bound is the field's width. -/
def Instr.wf : Instr → Bool
  | .nop => true
  | .moveLeft n => n != 0#8
  | .moveRight n => n != 0#8
  | .decrement n => n != 0#8
  | .increment n => n != 0#8
  | .loopStart => true
  | .loopEnd => true
  | .output => true
  | .input => true

end Sys2Proof
end

