-- ==== Sys2Proof/Decode.lean ====
section
/-! DEFINITION. Decoding an instruction word (30_encoding.md R79), and encoding an instruction (R71, R72). -/

namespace Sys2Proof

/-- Why a word is `Illegal` (30_encoding.md R79). -/
inductive DecodeError where
  /-- `OP` in `0x09..0xFF` (R76). -/
  | reservedOpcode
  /-- A count-bearing `OP` with `CNT = 0` (R77). -/
  | zeroCount
deriving DecidableEq, Repr

/-- `OP = w[15:8]` (30_encoding.md R71). -/
def opField (w : IWord) : BitVec 8 := w.extractLsb' 8 8

/-- `CNT = w[7:0]` (30_encoding.md R71). -/
def cntField (w : IWord) : BitVec 8 := w.extractLsb' 0 8

/-- A count-bearing instruction with its count, unless the count is 0 (30_encoding.md R77). -/
def decodeCounted (mk : BitVec 8 → Instr) (cnt : BitVec 8) : Except DecodeError Instr :=
  if cnt = 0#8 then .error .zeroCount else .ok (mk cnt)

/-- `decode(w)` (30_encoding.md R79): total; every word is one of the nine instructions or illegal. -/
def decode (w : IWord) : Except DecodeError Instr :=
  match (opField w).toNat with
  | 0 => .ok .nop
  | 1 => decodeCounted .moveLeft (cntField w)
  | 2 => decodeCounted .moveRight (cntField w)
  | 3 => decodeCounted .decrement (cntField w)
  | 4 => decodeCounted .increment (cntField w)
  | 5 => .ok .loopStart
  | 6 => .ok .loopEnd
  | 7 => .ok .output
  | 8 => .ok .input
  | _ => .error .reservedOpcode

/-- `OPCODE(op)`, the opcode map (30_encoding.md R72). -/
def Instr.opcode : Instr → BitVec 8
  | .nop => 0x00#8
  | .moveLeft _ => 0x01#8
  | .moveRight _ => 0x02#8
  | .decrement _ => 0x03#8
  | .increment _ => 0x04#8
  | .loopStart => 0x05#8
  | .loopEnd => 0x06#8
  | .output => 0x07#8
  | .input => 0x08#8

/-- The `CNT` field the encoder writes: the count, and 0 where there is none (30_encoding.md R73, R74). -/
def Instr.cnt : Instr → BitVec 8
  | .nop => 0x00#8
  | .moveLeft n => n
  | .moveRight n => n
  | .decrement n => n
  | .increment n => n
  | .loopStart => 0x00#8
  | .loopEnd => 0x00#8
  | .output => 0x00#8
  | .input => 0x00#8

/-- Whether the instruction is count-bearing (30_encoding.md R72). -/
def Instr.isCounted : Instr → Bool
  | .nop => false
  | .moveLeft _ => true
  | .moveRight _ => true
  | .decrement _ => true
  | .increment _ => true
  | .loopStart => false
  | .loopEnd => false
  | .output => false
  | .input => false

/-- The word of an instruction, `(OPCODE(op) << 8) | n` (30_encoding.md R71, R72; 40_encoder.md R96). -/
def encode (i : Instr) : IWord := i.opcode ++ i.cnt

/-- The listing form of an instruction, one line with the count in decimal (30_encoding.md R82). The machine does
not use it. -/
def Instr.listing : Instr → String
  | .nop => "Nop"
  | .moveLeft n => "MoveLeft " ++ toString n.toNat
  | .moveRight n => "MoveRight " ++ toString n.toNat
  | .decrement n => "Decrement " ++ toString n.toNat
  | .increment n => "Increment " ++ toString n.toNat
  | .loopStart => "LoopStart"
  | .loopEnd => "LoopEnd"
  | .output => "Output"
  | .input => "Input"

/-- The word of `nbits` bits `w` as the block holds it: one 16-bit slot, bit 0 least significant. The block
has no byte order (20_memory.md R54) and every instruction is one slot (30_encoding.md R70). -/
def tableWord (nbits w : Nat) : IWord := BitVec.ofNat 16 (w % 2 ^ nbits)

/-- What the decoder reads from an opcode-table word. The table's rows have 16 bits; the bits above `nbits` are 0. -/
def decodeTableWord (nbits w : Nat) : Option Instr :=
  match decode (tableWord nbits w) with
  | .ok i => some i
  | .error _ => none

end Sys2Proof
end

