-- ==== Sys2Proof/Machine/Encoder.lean ====
section
/-! DEFINITION. 40_encoder.md: the run-length encoder and bracket matcher, one source byte a step. -/

namespace Sys2Proof.Machine

/-- `foldOp(c)` (40_encoder.md R92). -/
def foldOp (c : Byte) : Option FoldOp :=
  if c = 0x3C#8 then some .moveLeft
  else if c = 0x3E#8 then some .moveRight
  else if c = 0x2D#8 then some .decrement
  else if c = 0x2B#8 then some .increment
  else none

/-- The instruction of a run of `n` (30_encoding.md R80). -/
def FoldOp.instr (op : FoldOp) (n : BitVec 8) : Instr :=
  match op with
  | .moveLeft => .moveLeft n
  | .moveRight => .moveRight n
  | .decrement => .decrement n
  | .increment => .increment n

/-- `emit` (40_encoder.md R96). -/
def emit (i : Instr) (s : State) : Eff State :=
  if s.len.toNat = s.cfg.heapSize then .raise .sourceTooLarge
  else (writeImem s s.len.toNat (encode i)).bind fun t => .ok { t with len := t.len + 1#15 }

/-- `if RUN_OP != none: Flush()` (40_encoder.md R93, R95). -/
def flush (s : State) : Eff State :=
  match s.runOp with
  | none => .ok s
  | some op => (emit (op.instr s.runCnt) s).bind fun t => .ok { t with runOp := none, runCnt := 0#8 }

/-- `Open()` (40_encoder.md R98). -/
def openBracket (s : State) : Eff State :=
  if s.sp.toNat = s.cfg.stackSize then .raise .sourceTooLarge
  else if s.len.toNat = s.cfg.heapSize then .raise .sourceTooLarge
  else (writeStack s s.sp.toNat s.len).bind fun t => emit .loopStart { t with sp := t.sp + 1#15 }

/-- `JT[o] <- LEN; JT[LEN] <- o; emit(LoopEnd, 0)`, the second half of `Close()` (40_encoder.md R99). -/
def closePair (o : Slot) (s : State) : Eff State :=
  (writeJt s o.toNat s.len).bind fun t => (writeJt t t.len.toNat o).bind fun u => emit .loopEnd u

/-- `Close()` (40_encoder.md R99). -/
def closeBracket (s : State) : Eff State :=
  if s.sp = 0#15 then .raise .unmatchedCloseBracket
  else if s.len.toNat = s.cfg.heapSize then .raise .sourceTooLarge
  else
    let t : State := { s with sp := s.sp - 1#15 }
    (readStack t t.sp.toNat).bind fun o => closePair o t

/-- What a byte that is no fold character does once the run before it has ended (40_encoder.md R93, R97 to R101). -/
def encodeSingle (c : Byte) (s : State) : Eff State :=
  if c = 0x2E#8 then emit .output s
  else if c = 0x2C#8 then emit .input s
  else if c = 0x5B#8 then openBracket s
  else if c = 0x5D#8 then closeBracket s
  else .ok s

/-- Whether byte `c` continues the pending run (40_encoder.md R93, first branch; R94). -/
def continuesRun (c : Byte) (s : State) : Bool :=
  s.runOp.isSome && (foldOp c == s.runOp) && decide (s.runCnt.toNat < Config.countMax)

/-- What byte `c` does for itself once the run before it has ended (40_encoder.md R93): it begins a new run, or
acts by its class. -/
def afterRun (c : Byte) (s : State) : Eff State :=
  match foldOp c with
  | some op => .ok { s with runOp := some op, runCnt := 1#8 }
  | none => encodeSingle c s

/-- `EncByte(c)` (40_encoder.md R93). -/
def encodeByte (c : Byte) (s : State) : Eff State :=
  if continuesRun c s then .ok { s with runCnt := s.runCnt + 1#8 } else (flush s).bind (afterRun c)

/-- `EncEnd()` (40_encoder.md R103). -/
def encodeEnd (s : State) : Eff State :=
  (flush s).bind fun t => if t.sp = 0#15 then .ok { t with mode := .idle } else .raise .unmatchedOpenBracket

/-- `ENC_START` once accepted (40_encoder.md R91). -/
def State.startEncode (s : State) : State :=
  { s with len := 0#15, sp := 0#15, runOp := none, runCnt := 0#8, err := .none, mode := .encoding }

end Sys2Proof.Machine
end

