-- ==== Sys2Proof/Machine/HostPort.lean ====
section
/-! DEFINITION. The host interface (10_state.md section 3): seven registers, four commands, three array ports. -/

namespace Sys2Proof.Machine

/-- The commands of `CTRL` (10_state.md R34). -/
inductive Command where
  | encStart
  | encEnd
  | runStart
  | clear
deriving DecidableEq, Repr

/-- `CTRL` bits[3:0], one-hot; none set is no command and more than one is ignored (10_state.md R34). -/
def command (v : HostWord) : Option Command :=
  match (v.extractLsb' 0 4).toNat with
  | 1 => some .encStart
  | 2 => some .encEnd
  | 4 => some .runStart
  | 8 => some .clear
  | _ => none

/-- `MODE ∈ {IDLE, DONE}`. -/
def Mode.startable : Mode → Bool
  | .idle => true
  | .encoding => false
  | .running => false
  | .waitIn => false
  | .done => true
  | .fault => false

/-- When a command is accepted (10_state.md R35). -/
def accepts (s : State) (c : Command) : Bool :=
  match c with
  | .encStart => s.cfg.hasEncoder && s.mode.startable
  | .encEnd => s.cfg.hasEncoder && (s.mode == .encoding)
  | .runStart => s.mode.startable
  | .clear => s.mode.quiet

/-- What an accepted command does (40_encoder.md R91, R103; 41_dispatch.md R121; 10_state.md R34). -/
def runCommand (c : Command) (s : State) : Eff State :=
  match c with
  | .encStart => .ok s.startEncode
  | .encEnd => encodeEnd s
  | .runStart => .ok s.startRun
  | .clear => .ok s.leaveFault

/-- A write to `CTRL`: in any mode but those of R35 it "is ignored and changes nothing". -/
def writeCtrl (v : HostWord) (s : State) : Eff State :=
  match command v with
  | none => .ok s
  | some c => if accepts s c then runCommand c s else .ok s

/-- A write to `SRC` (10_state.md R36). -/
def writeSrc (v : HostWord) (s : State) : Eff State :=
  if s.cfg.hasEncoder && (s.mode == .encoding) then encodeByte (v.extractLsb' 0 8) s else .ok s

/-- A write to `LEN` (10_state.md R38): only in a quiet mode and only a value up to `HEAPSIZE`. -/
def writeLen (v : HostWord) (s : State) : Eff State :=
  if s.mode.quiet && decide (v.toNat ≤ s.cfg.heapSize) then .ok { s with len := BitVec.ofNat 15 v.toNat } else .ok s

/-- A host write to register `index` (10_state.md R33): `STATUS`, `IP`, `DP`, `DEPTH` are read-only, and there is
no register 7 or above. -/
def writeReg (index : Nat) (v : HostWord) (s : State) : Eff State :=
  match index with
  | 0 => writeCtrl v s
  | 1 => writeSrc v s
  | 3 => writeLen v s
  | _ => .ok s

/-- `STATUS` (10_state.md R37): `MODE` in [2:0], `ERR` in [7:4], `HAS_ENCODER` in [8], `EOF_POLICY` in [9]. -/
def statusWord (s : State) : HostWord :=
  0#22 ++ (match s.cfg.eofPolicy with | .zero => 0#1 | .unchanged => 1#1)
    ++ (if s.cfg.hasEncoder then 1#1 else 0#1) ++ s.err.code ++ 0#1 ++ s.mode.code

/-- A host read of register `index` (10_state.md R33, R37, R38): `CTRL` and `SRC` read 0, as does 7 and above. -/
def readReg (index : Nat) (s : State) : HostWord :=
  match index with
  | 2 => statusWord s
  | 3 => s.len.setWidth 32
  | 4 => s.ip.setWidth 32
  | 5 => s.dp.setWidth 32
  | 6 => s.sp.setWidth 32
  | _ => 0#32

/-- An array-port access is performed only in a quiet mode with `i < HEAPSIZE` (10_state.md R39). -/
def portOpen (s : State) (i : Nat) : Bool := s.mode.quiet && decide (i < s.cfg.heapSize)

/-- A read of an array port (10_state.md R39). -/
def readPort (a : HostArray) (i : Nat) (s : State) : HostWord :=
  if portOpen s i then
    match a with
    | .imem => (s.imem.read i).setWidth 32
    | .jt => (s.jtEntry i).setWidth 32
    | .tape => (s.tape.read i).setWidth 32
  else 0#32

/-- A write to an array port (10_state.md R39): `IMEM[i] <- v[15:0]`, `JT[i] <- v[IW-1:0]`, `TAPE` ignored. -/
def writePort (a : HostArray) (i : Nat) (v : HostWord) (s : State) : State :=
  if portOpen s i then
    match a with
    | .imem => { s with imem := s.imem.write i (v.extractLsb' 0 16) }
    | .jt => { s with jt := s.jt.write i (toIndex s.cfg v.toNat) }
    | .tape => s
  else s

/-- What a read returned joins the host's history; it changes nothing else (10_state.md R33; log 6). -/
def State.record (s : State) (v : HostWord) : State := { s with hostReads := s.hostReads ++ [v] }

/-- One host access, one step (00_scope.md R13, 20_memory.md R66). -/
def hostStep (a : HostAccess) (s : State) : Host.Outcome State Fault Refusal :=
  match a with
  | .readReg i => .next (s.record (readReg i s))
  | .writeReg i v => settle s (writeReg i v s)
  | .readArray p i => .next (s.record (readPort p i s))
  | .writeArray p i v => .next (writePort p i v s)

end Sys2Proof.Machine
end

