-- ==== Sys2Proof/Machine/Interp.lean ====
section
/-! DEFINITION. The interpreter's step (41_dispatch.md R123) and the step of whichever agent has the turn. -/

namespace Sys2Proof.Machine

/-- Dispatches the fetched word: an illegal one raises `IllegalInstruction` before anything else (41_dispatch.md
R124; 30_encoding.md R76, R77). -/
def dispatch (w : IWord) (s : State) : Host.Outcome State Fault Refusal :=
  match decode w with
  | .ok i => exec i s
  | .error _ => settle s (.raise .illegalInstruction)

/-- `Step()` (41_dispatch.md R123): completion at `IP == LEN`, else fetch, decode and execute. -/
def interpStep (s : State) : Host.Outcome State Fault Refusal :=
  if s.ip = s.len then .next { s with mode := .done }
  else if s.ip.toNat < s.len.toNat then
    match readImem s s.ip.toNat with
    | .ok w => dispatch w s
    | .raise e => settle s (.raise e)
    | .stop f => .fault f
  else .fault .fetchPastLength

/-- A turn of the device: the interpreter in `RUNNING`. In `ENCODING` the device acts inside the host's writes,
and in every other mode it takes no step (00_scope.md R12; 41_dispatch.md R123; 60_exceptions.md R193, R206). -/
def deviceStep (s : State) : Host.Outcome State Fault Refusal :=
  match s.mode with
  | .idle => .next s
  | .encoding => .next s
  | .running => interpStep s
  | .waitIn => .next s
  | .done => .next s
  | .fault => .next s

/-- One step of the agent named by `t` (00_scope.md R13). -/
def takeTurn (t : Turn) (s : State) : Host.Outcome State Fault Refusal :=
  match t with
  | .device => deviceStep s
  | .input => inputStep s
  | .host a => hostStep a s
  | .reset => .next s.applyReset

end Sys2Proof.Machine
end

