-- ==== Sys2Proof/Machine/Step.lean ====
section
/-! DEFINITION. One step of the block and its environment, and the placing of an instruction. -/

namespace Sys2Proof.Machine

/-- One indivisible transition of one agent (00_scope.md R13): the agent that has the turn takes its step. -/
def step (s : State) : Host.Outcome State Fault Refusal := takeTurn s.turn s.popTurn

/-- The word `w` placed where the next step fetches. In `RUNNING` it goes to the slot `IP` names; in any other
mode a run is started in the state first, as `RUN_START` starts it, and the word is its first instruction (log 10). -/
def State.withFetchWord (s : State) (nbits w : Nat) : State := s.readyToFetch.placeAtIp (tableWord nbits w)

end Sys2Proof.Machine
end

