-- ==== Sys2Proof/Machine/Batch.lean ====
section
/-! DEFINITION. `Encode(src)`, the source's batch algorithm as a total function (40_encoder.md R105). The machine
does not use it: it is what the streaming encoder is held against (R90). -/

namespace Sys2Proof.Machine

/-- What the batch algorithm has built: the open slots, innermost first, the words in slot order (`len` is their
number), and the jump-table entries written. -/
structure Build where
  stack : List Nat
  words : List IWord
  jt : List (Nat × Nat)
deriving DecidableEq, Repr

/-- `stack = []; imem = []; jt = {}`. -/
def Build.empty : Build := ⟨[], [], []⟩

/-- Appends a word, if there is a slot for it. -/
def Build.push (c : Config) (w : IWord) (b : Build) : Except Err Build :=
  if b.words.length = c.heapSize then .error .sourceTooLarge else .ok { b with words := b.words ++ [w] }

/-- How many of the next bytes are `c`, counted up to a limit. -/
def runLength (c : Byte) : Nat → List Byte → Nat
  | 0, _ => 0
  | _ + 1, [] => 0
  | k + 1, b :: rest => if b = c then runLength c k rest + 1 else 0

/-- A `[`. -/
def Build.openBracket (c : Config) (b : Build) : Except Err Build :=
  if b.stack.length = c.stackSize then .error .sourceTooLarge
  else if b.words.length = c.heapSize then .error .sourceTooLarge
  else .ok { b with stack := b.words.length :: b.stack, words := b.words ++ [0x0500#16] }

/-- A `]`. -/
def Build.closeBracket (c : Config) (b : Build) : Except Err Build :=
  match b.stack with
  | [] => .error .unmatchedCloseBracket
  | o :: rest =>
    if b.words.length = c.heapSize then .error .sourceTooLarge
    else .ok { stack := rest, words := b.words ++ [0x0600#16],
               jt := b.jt ++ [(o, b.words.length), (b.words.length, o)] }

/-- A byte that is no fold character. -/
def Build.single (c : Config) (x : Byte) (b : Build) : Except Err Build :=
  if x = 0x2E#8 then b.push c 0x0700#16
  else if x = 0x2C#8 then b.push c 0x0800#16
  else if x = 0x5B#8 then b.openBracket c
  else if x = 0x5D#8 then b.closeBracket c
  else .ok b

/-- The loop of `Encode`. `fuel` bounds its turns; the length of the source is enough, since each turn takes a byte. -/
def batchLoop (c : Config) : (fuel : Nat) → List Byte → Build → Except Err Build
  | 0, _, b => .ok b
  | _ + 1, [], b => .ok b
  | fuel + 1, x :: rest, b =>
    match foldOp x with
    | some op =>
      let k := runLength x 254 rest
      match b.push c (encode (op.instr (BitVec.ofNat 8 (k + 1)))) with
      | .ok b' => batchLoop c fuel (rest.drop k) b'
      | .error e => .error e
    | none =>
      match b.single c x with
      | .ok b' => batchLoop c fuel rest b'
      | .error e => .error e

/-- `Encode(src)` (40_encoder.md R105): the module, or the CompileError. -/
def encodeSource (c : Config) (src : List Byte) : Except Err Build :=
  match batchLoop c src.length src Build.empty with
  | .ok b => if b.stack.isEmpty then .ok b else .error .unmatchedOpenBracket
  | .error e => .error e

end Sys2Proof.Machine
end

