-- ==== Sys2Proof/Safety.lean ====
section
/-! DEFINITION. What counts as a good state, a well-formed module and a launch premise, in the terms claims use. -/

namespace Sys2Proof.Machine

/-! ## The invariant of every step -/

/-- The ranges and couplings the spec gives its state, in every state that reset and steps lead to: R25 (`DP`),
R26 (`LEN`), R29 (`SP`), R127 (`IP`, in the modes of a run), R30 (the accumulator), R31 (the request), R40
(`ERR`), R121 (the tape of a run), and the canonical form of the four arrays. -/
structure Inv (s : State) : Prop where
  /-- The parameters are in the ranges of 00_scope.md R6, R7. -/
  cfg_legal : s.cfg.legal
  tape_wf : s.tape.wf = true
  imem_wf : s.imem.wf = true
  jt_wf : s.jt.wf = true
  stack_wf : s.stack.wf = true
  tape_within : s.tape.within s.cfg.heapSize = true
  imem_within : s.imem.within s.cfg.heapSize = true
  jt_within : s.jt.within s.cfg.heapSize = true
  stack_within : s.stack.within s.cfg.stackSize = true
  /-- `DP < HEAPSIZE` (10_state.md R25). -/
  dp_lt : s.dp.toNat < s.cfg.heapSize
  /-- `LEN ≤ HEAPSIZE` (R26). -/
  len_le : s.len.toNat ≤ s.cfg.heapSize
  /-- `SP ≤ STACKSIZE` (R29). -/
  sp_le : s.sp.toNat ≤ s.cfg.stackSize
  /-- `IP ≤ HEAPSIZE` in every mode: the bound of R127 with that of R26, kept where the host has lowered `LEN`. -/
  ip_le_heap : s.ip.toNat ≤ s.cfg.heapSize
  /-- `IP ≤ LEN` while dispatching (41_dispatch.md R127; for `DONE` see `IpWithinLen`). -/
  ip_le : s.mode = .running → s.ip.toNat ≤ s.len.toNat
  /-- In `WAIT_IN` the request is that of the `Input` at `IP` (10_state.md R31). -/
  ip_input : s.mode = .waitIn → s.ip.toNat < s.len.toNat ∧ decode (s.imem.read s.ip.toNat) = .ok .input
  /-- `ERR ≠ 0` exactly in `FAULT` (R40). -/
  err_iff : s.err ≠ .none ↔ s.mode = .fault
  /-- `RUN_OP = none` exactly when `RUN_CNT = 0` (R30). -/
  run_iff : s.runOp = none ↔ s.runCnt = 0#8
  /-- While encoding, the open slots lie below `LEN` (R29). -/
  stack_lt : s.mode = .encoding → ∀ k, k < s.sp.toNat → (s.stack.read k).toNat < s.len.toNat
  /-- A run's tape was zeroed by `RUN_START` (41_dispatch.md R121): no cell of it is unspecified. -/
  tape_fresh : s.mode = .running ∨ s.mode = .waitIn → s.tape.fill = .const 0#8

/-- 41_dispatch.md R127 in its own words: `IP` never exceeds `LEN` while `MODE ∈ {RUNNING, WAIT_IN, DONE}`. It is no
part of `Inv`: the one step of a good state that does not keep it is the host's write of a smaller `LEN` in `DONE`,
which 10_state.md R38 has the block take. The two rules clash there and no ruling settles it; to follow R38 is a
DESIGN CHOICE (log 12). -/
abbrev IpWithinLen (s : State) : Prop :=
  s.mode = .running ∨ s.mode = .waitIn ∨ s.mode = .done → s.ip.toNat ≤ s.len.toNat

/-! ## Well-formed modules -/

/-- A word that decodes to `LoopStart` (30_encoding.md R72, R74). -/
def isOpen (w : IWord) : Bool := opField w == 0x05#8

/-- A word that decodes to `LoopEnd`. -/
def isClose (w : IWord) : Bool := opField w == 0x06#8

/-- Reads the slots in order as brackets, with the open slots so far (innermost first): the matched pairs, or
`none` if they are not balanced (41_dispatch.md R120, point 3). -/
def bracketPairs (word : Nat → IWord) : List Nat → List Nat → Option (List (Nat × Nat))
  | [], [] => some []
  | [], _ :: _ => none
  | j :: rest, opens =>
    if isOpen (word j) then bracketPairs word rest (j :: opens)
    else if isClose (word j) then
      match opens with
      | [] => none
      | i :: outer =>
        match bracketPairs word rest outer with
        | some ps => some ((i, j) :: ps)
        | none => none
    else bracketPairs word rest opens

/-- The module in `LEN`, `IMEM` and `JT` is well-formed (41_dispatch.md R120). -/
structure WellFormedModule (s : State) : Prop where
  len_le : s.len.toNat ≤ s.cfg.heapSize
  legal : ∀ i, i < s.len.toNat → ∃ ins, decode (s.imem.read i) = .ok ins
  paired : ∃ ps, bracketPairs s.imem.read (List.range s.len.toNat) [] = some ps ∧
    ∀ p ∈ ps, (s.jtEntry p.1).toNat = p.2 ∧ (s.jtEntry p.2).toNat = p.1

/-! ## The named launch premises of 70_reset_and_hazards.md R232 -/

/-- `NoFault`: `MODE ∈ {IDLE, DONE}` before `RUN_START`. -/
abbrev NoFault (s : State) : Prop := s.mode = .idle ∨ s.mode = .done

/-- `Loaded`: every word below `LEN`, and the `JT` entry of every bracket among them, was written since reset. R232
says "both `JT` entries of every bracket pair", and 41_dispatch.md R120 says what a pair is only where the brackets
balance; what a module whose brackets do not balance owes is left open. DESIGN CHOICE (log 18): the entry of every
bracket word below `LEN`, matched or not. Where they balance, the two readings are the same. -/
abbrev Loaded (s : State) : Prop :=
  ∀ i, i < s.len.toNat → s.imem.known i = true ∧
    (isOpen (s.imem.read i) = true ∨ isClose (s.imem.read i) = true → s.jt.known i = true)

/-- `FreshTape`: every cell is 0, `DP = 0` and `IP = 0`. -/
abbrev FreshTape (s : State) : Prop := (∀ a, s.tape.read a = 0#8) ∧ s.dp = 0#15 ∧ s.ip = 0#15

/-- `Nothing in flight`: no input request is outstanding. -/
abbrev NothingInFlight (s : State) : Prop := s.mode ≠ .waitIn

/-- An endless execution: at instant `n` the agent `turns n` takes its step. A step that has its turn from the
agenda is such a step (`step_of_turn_first`), so every endless interleaving of 00_scope.md R13 is one (log 3). -/
def Execution (turns : Nat → Turn) (run : Nat → State) : Prop :=
  ∀ n, takeTurn (turns n) (run n) = .next (run (n + 1))

/-- The request outstanding at instant `n` is still the one at `m`, and at `m` the environment answers it. -/
abbrev AnsweredAt (turns : Nat → Turn) (run : Nat → State) (n m : Nat) : Prop :=
  n ≤ m ∧ (∀ k, n ≤ k → k ≤ m → (run k).mode = .waitIn) ∧ turns m = .input ∧ (run m).inputs.next ≠ none

/-- `FairInput`, of an execution: every `WAIT_IN` is eventually answered (45_io.md R178). Whether a `WAIT_IN` that a
reset ends meets it the spec leaves open: R178 and R232 ask for an answer, and R220 gives the dropped request none
without a word on fairness. DESIGN CHOICE (log 15): a reset is no answer, so no execution with a reset in `WAIT_IN`
is fair. -/
abbrev FairInput (turns : Nat → Turn) (run : Nat → State) : Prop :=
  ∀ n, (run n).mode = .waitIn → ∃ m, AnsweredAt turns run n m

/-- The weak fairness of the device (70_reset_and_hazards.md R230): in `RUNNING` it eventually takes its next
interpreter step, if nothing else ends `RUNNING` before. -/
abbrev FairDevice (turns : Nat → Turn) (run : Nat → State) : Prop :=
  ∀ n, (run n).mode = .running → ∃ m, n ≤ m ∧ (turns m = .device ∨ (run m).mode ≠ .running)

/-- `Input = σ`: the responses the environment will give. -/
abbrev InputIs (σ : Source) (s : State) : Prop := s.inputs = σ

/-! ## What a claim compares -/

/-- What a run reads of its module: the words below `LEN` and the `JT` entries of the brackets among them. -/
structure SameModule (s t : State) : Prop where
  len : t.len = s.len
  words : ∀ i, i < s.len.toNat → t.imem.read i = s.imem.read i
  targets : ∀ i, i < s.len.toNat → isOpen (s.imem.read i) = true ∨ isClose (s.imem.read i) = true →
    t.jtEntry i = s.jtEntry i

/-- What a run holds and shows beside its module: the mode, the error, the pointers, the tape, the responses left
and the bytes sent (the result of a run, 41_dispatch.md R126, is among them). -/
structure SameRun (s t : State) : Prop where
  cfg : t.cfg = s.cfg
  mode : t.mode = s.mode
  err : t.err = s.err
  ip : t.ip = s.ip
  dp : t.dp = s.dp
  tape : t.tape = s.tape
  inputs : t.inputs = s.inputs
  outputs : t.outputs = s.outputs

/-! ## Host sequences -/

/-- A host write of `v` to register `index`. -/
def hostWrite (index : Nat) (v : HostWord) : Turn := .host (.writeReg index v)

/-- The byte a turn hands to an encoding encoder, if it is a write of `SRC` (10_state.md R36). -/
def Turn.srcByte (t : Turn) : Option Byte :=
  match t with
  | .host (.writeReg 1 v) => some (v.extractLsb' 0 8)
  | .host _ => none
  | .device => none
  | .input => none
  | .reset => none

/-- Encoding a source with no other access between: `ENC_START`, one `SRC` write a byte, `ENC_END` (70_reset_and_hazards.md R222, steps 2 to 4). -/
def encodeScript (src : List Byte) : List Turn :=
  hostWrite 0 1#32 :: (src.map (fun c => hostWrite 1 (c.setWidth 32)) ++ [hostWrite 0 2#32])

end Sys2Proof.Machine
end

