-- ==== Sys2Proof/Certificates/Slice0/Obligations.lean ====
section
/-! DEFINITION. The statements about the block, each taken from a numbered rule of the spec. -/

open Sys2Proof Sys2Proof.Machine

/-! ## Encoding -/

/-- Decoding the word of a well-formed instruction gives it back, and a word that decodes has the instruction's
`OP` and, for a count-bearing one, is exactly its word: no bit is dropped (30_encoding.md R71 to R74, R79). -/
def Obligations.DecodeInvertsEncode : Prop :=
  (∀ i : Instr, i.wf = true → decode (encode i) = .ok i) ∧
  (∀ (w : IWord) (i : Instr), decode w = .ok i →
    i.wf = true ∧ opField w = i.opcode ∧ (i.isCounted = true → encode i = w))

/-- The decode function of 30_encoding.md R79, row by row, with every value of `CNT` and of a reserved `OP`. -/
def Obligations.DecodeFollowsOpcodeMap : Prop :=
  ∀ cnt : BitVec 8,
    decode (0x00#8 ++ cnt) = .ok .nop ∧
    decode (0x01#8 ++ cnt) = (if cnt = 0#8 then .error .zeroCount else .ok (.moveLeft cnt)) ∧
    decode (0x02#8 ++ cnt) = (if cnt = 0#8 then .error .zeroCount else .ok (.moveRight cnt)) ∧
    decode (0x03#8 ++ cnt) = (if cnt = 0#8 then .error .zeroCount else .ok (.decrement cnt)) ∧
    decode (0x04#8 ++ cnt) = (if cnt = 0#8 then .error .zeroCount else .ok (.increment cnt)) ∧
    decode (0x05#8 ++ cnt) = .ok .loopStart ∧
    decode (0x06#8 ++ cnt) = .ok .loopEnd ∧
    decode (0x07#8 ++ cnt) = .ok .output ∧
    decode (0x08#8 ++ cnt) = .ok .input ∧
    ∀ op : BitVec 8, 9 ≤ op.toNat → decode (op ++ cnt) = .error .reservedOpcode

/-- Words written out in 95_test_vectors.md L2.1 decode as its table says. -/
def Obligations.TestVectorWordsDecode : Prop :=
  decode 0x0000#16 = .ok .nop ∧ decode 0x00AB#16 = .ok .nop ∧
  decode 0x0101#16 = .ok (.moveLeft 1#8) ∧ decode 0x01FF#16 = .ok (.moveLeft 255#8) ∧
  decode 0x02FF#16 = .ok (.moveRight 255#8) ∧ decode 0x0301#16 = .ok (.decrement 1#8) ∧
  decode 0x042D#16 = .ok (.increment 45#8) ∧ decode 0x05FF#16 = .ok .loopStart ∧
  decode 0x0600#16 = .ok .loopEnd ∧ decode 0x0712#16 = .ok .output ∧ decode 0x0800#16 = .ok .input ∧
  decode 0x0100#16 = .error .zeroCount ∧ decode 0x0900#16 = .error .reservedOpcode

/-- An illegal word raises `IllegalInstruction` before anything else of the step happens (41_dispatch.md R124;
30_encoding.md R76, R77): nothing but `ERR` and `MODE` is written. -/
def Obligations.IllegalWordRaisesBeforeAnyEffect : Prop :=
  ∀ s : State, s.turn = .device → s.mode = .running → s.ip.toNat < s.len.toNat → s.ip.toNat < s.cfg.heapSize →
    (9 ≤ (opField (s.imem.read s.ip.toNat)).toNat ∨
      (1 ≤ (opField (s.imem.read s.ip.toNat)).toNat ∧ (opField (s.imem.read s.ip.toNat)).toNat ≤ 4 ∧
        cntField (s.imem.read s.ip.toNat) = 0#8)) →
    step s = .next { s with agenda := s.agenda.tail, err := .illegalInstruction, mode := .fault }

/-! ## The nine instructions: result, frame and completion -/

/-- 46_nop.md R185: `IP + 1` and nothing else, whatever `CNT` is. -/
def Obligations.NopOnlyAdvances : Prop :=
  ∀ s : State, (∀ cnt : BitVec 8, decode (0x00#8 ++ cnt) = .ok .nop) ∧ encode .nop = 0x0000#16 ∧
    exec .nop s = .next { s with ip := s.ip + 1#15 }

/-- 42_pointer.md R140, for every count and every `DP`. -/
def Obligations.MoveLeftMovesOrFaults : Prop :=
  ∀ (s : State) (n : BitVec 8),
    (n ≠ 0#8 → decode (0x01#8 ++ n) = .ok (.moveLeft n)) ∧
    (n.toNat ≤ s.dp.toNat → ∃ t : State, exec (.moveLeft n) s = .next t ∧
      t.dp.toNat = s.dp.toNat - n.toNat ∧ t = { s with dp := t.dp, ip := s.ip + 1#15 }) ∧
    (s.dp.toNat < n.toNat →
      exec (.moveLeft n) s = .next { s with err := .pointerOutOfBounds, mode := .fault })

/-- 42_pointer.md R141, for every count and every `DP`, in a build whose parameters are in range (R6). -/
def Obligations.MoveRightMovesOrFaults : Prop :=
  ∀ (s : State) (n : BitVec 8), s.cfg.legal →
    (n ≠ 0#8 → decode (0x02#8 ++ n) = .ok (.moveRight n)) ∧
    (s.dp.toNat + n.toNat < s.cfg.heapSize → ∃ t : State, exec (.moveRight n) s = .next t ∧
      t.dp.toNat = s.dp.toNat + n.toNat ∧ t = { s with dp := t.dp, ip := s.ip + 1#15 }) ∧
    (s.cfg.heapSize ≤ s.dp.toNat + n.toNat →
      exec (.moveRight n) s = .next { s with err := .pointerOutOfBounds, mode := .fault })

/-- 43_cell_arith.md R150: the current cell, modulo 256, and every other cell as before. -/
def Obligations.IncrementAddsModulo256 : Prop :=
  ∀ (s : State) (n : BitVec 8), s.dp.toNat < s.cfg.heapSize →
    (n ≠ 0#8 → decode (0x04#8 ++ n) = .ok (.increment n)) ∧
    ∃ t : State, exec (.increment n) s = .next t ∧
      (t.tape.read s.dp.toNat).toNat = ((s.tape.read s.dp.toNat).toNat + n.toNat) % 256 ∧
      (∀ a, a ≠ s.dp.toNat → t.tape.read a = s.tape.read a) ∧
      t = { s with tape := t.tape, ip := s.ip + 1#15 }

/-- 43_cell_arith.md R151: the remainder is not negative. -/
def Obligations.DecrementSubtractsModulo256 : Prop :=
  ∀ (s : State) (n : BitVec 8), s.dp.toNat < s.cfg.heapSize →
    (n ≠ 0#8 → decode (0x03#8 ++ n) = .ok (.decrement n)) ∧
    ∃ t : State, exec (.decrement n) s = .next t ∧
      ((t.tape.read s.dp.toNat).toNat : Int) = (((s.tape.read s.dp.toNat).toNat : Int) - (n.toNat : Int)) % 256 ∧
      (∀ a, a ≠ s.dp.toNat → t.tape.read a = s.tape.read a) ∧
      t = { s with tape := t.tape, ip := s.ip + 1#15 }

/-- 44_loop.md R160 with R162: falls through on a cell that is not 0; on 0 branches to `JT[IP]`, or raises
`BadJumpTarget` if that is at or beyond `LEN`. -/
def Obligations.LoopStartBranchesOnZero : Prop :=
  ∀ s : State, s.dp.toNat < s.cfg.heapSize → s.ip.toNat < s.cfg.heapSize →
    (∀ cnt : BitVec 8, decode (0x05#8 ++ cnt) = .ok .loopStart) ∧ encode .loopStart = 0x0500#16 ∧
    (s.tape.read s.dp.toNat ≠ 0#8 → exec .loopStart s = .next { s with ip := s.ip + 1#15 }) ∧
    (s.tape.read s.dp.toNat = 0#8 → (s.jtEntry s.ip.toNat).toNat < s.len.toNat →
      exec .loopStart s = .next { s with ip := s.jtEntry s.ip.toNat }) ∧
    (s.tape.read s.dp.toNat = 0#8 → s.len.toNat ≤ (s.jtEntry s.ip.toNat).toNat →
      exec .loopStart s = .next { s with err := .badJumpTarget, mode := .fault })

/-- 44_loop.md R161 with R162: falls through on 0, else branches or raises. -/
def Obligations.LoopEndBranchesOnNonzero : Prop :=
  ∀ s : State, s.dp.toNat < s.cfg.heapSize → s.ip.toNat < s.cfg.heapSize →
    (∀ cnt : BitVec 8, decode (0x06#8 ++ cnt) = .ok .loopEnd) ∧ encode .loopEnd = 0x0600#16 ∧
    (s.tape.read s.dp.toNat = 0#8 → exec .loopEnd s = .next { s with ip := s.ip + 1#15 }) ∧
    (s.tape.read s.dp.toNat ≠ 0#8 → (s.jtEntry s.ip.toNat).toNat < s.len.toNat →
      exec .loopEnd s = .next { s with ip := s.jtEntry s.ip.toNat }) ∧
    (s.tape.read s.dp.toNat ≠ 0#8 → s.len.toNat ≤ (s.jtEntry s.ip.toNat).toNat →
      exec .loopEnd s = .next { s with err := .badJumpTarget, mode := .fault })

/-- 45_io.md R170: the cell's bits, always, and the cell unchanged. -/
def Obligations.OutputSendsTheCell : Prop :=
  ∀ s : State, s.dp.toNat < s.cfg.heapSize →
    (∀ cnt : BitVec 8, decode (0x07#8 ++ cnt) = .ok .output) ∧ encode .output = 0x0700#16 ∧
    exec .output s = .next { s with outputs := s.outputs ++ [s.tape.read s.dp.toNat], ip := s.ip + 1#15 }

/-- 45_io.md R172: the dispatch step only makes the request. -/
def Obligations.InputDispatchOnlyWaits : Prop :=
  ∀ s : State, (∀ cnt : BitVec 8, decode (0x08#8 ++ cnt) = .ok .input) ∧ encode .input = 0x0800#16 ∧
    exec .input s = .next { s with mode := .waitIn }

/-- What every instruction leaves alone (10_state.md R20, the "written by" column): the module, the encoder's
registers and the parameters; `DP` but for the moves; every cell but the one `Increment` and `Decrement` store to,
which is that at `DP`; the output but for `Output`; mode and error but for a request or an error of its own. -/
def Obligations.InstructionFrame : Prop :=
  ∀ (i : Instr) (s t : State), exec i s = .next t →
    t.cfg = s.cfg ∧ t.len = s.len ∧ t.imem = s.imem ∧ t.jt = s.jt ∧ t.stack = s.stack ∧ t.sp = s.sp ∧
    t.runOp = s.runOp ∧ t.runCnt = s.runCnt ∧ t.agenda = s.agenda ∧ t.inputs = s.inputs ∧
    t.hostReads = s.hostReads ∧ t.draws = s.draws ∧
    ((∀ n, i ≠ .moveLeft n ∧ i ≠ .moveRight n) → t.dp = s.dp) ∧
    ((∀ n, i ≠ .increment n ∧ i ≠ .decrement n) → ∀ a, t.tape.read a = s.tape.read a) ∧
    (∀ a, a ≠ s.dp.toNat → t.tape.read a = s.tape.read a) ∧
    (i ≠ .output → t.outputs = s.outputs) ∧
    ((t.mode = s.mode ∧ t.err = s.err) ∨
     (i = .input ∧ t.mode = .waitIn ∧ t.err = s.err) ∨
     (((∃ n, i = .moveLeft n) ∨ ∃ n, i = .moveRight n) ∧ t.mode = .fault ∧ t.err = .pointerOutOfBounds) ∨
     ((i = .loopStart ∨ i = .loopEnd) ∧ t.mode = .fault ∧ t.err = .badJumpTarget))

/-- 43_cell_arith.md R152: two increments add their counts modulo 256, and a decrement by the same count undoes an
increment, in every cell. -/
def Obligations.CellArithmeticIsModular : Prop :=
  ∀ (s : State) (a b : BitVec 8), s.dp.toNat < s.cfg.heapSize →
    (∃ t u : State, exec (.increment a) s = .next t ∧ exec (.increment b) t = .next u ∧
      (u.tape.read s.dp.toNat).toNat = ((s.tape.read s.dp.toNat).toNat + a.toNat + b.toNat) % 256) ∧
    (∃ t u : State, exec (.increment a) s = .next t ∧ exec (.decrement a) t = .next u ∧
      ∀ x, u.tape.read x = s.tape.read x)

/-! ## The step -/

/-- 41_dispatch.md R123: completion at `IP == LEN`, else the decoded instruction runs, or an illegal word raises; and
in no other mode is there an interpreter step. -/
def Obligations.StepRunsTheDecodedInstruction : Prop :=
  ∀ s : State, s.turn = .device →
    (s.mode = .running → s.ip = s.len → step s = .next { s with agenda := s.agenda.tail, mode := .done }) ∧
    (s.mode = .running → s.ip.toNat < s.len.toNat → s.ip.toNat < s.cfg.heapSize →
      (∀ i, decode (s.imem.read s.ip.toNat) = .ok i → step s = exec i { s with agenda := s.agenda.tail }) ∧
      (∀ e, decode (s.imem.read s.ip.toNat) = .error e →
        step s = .next { s with agenda := s.agenda.tail, err := .illegalInstruction, mode := .fault })) ∧
    (s.mode ≠ .running → step s = .next { s with agenda := s.agenda.tail })

/-- The word `withFetchWord` places is the one the very next step runs, from every state (70_reset_and_hazards.md
R223; the placing itself is the model's, log 10). -/
def Obligations.PlacedWordRunsNext : Prop :=
  ∀ (s : State) (nbits w : Nat) (i : Instr), s.cfg.legal → decodeTableWord nbits w = some i →
    step (s.withFetchWord nbits w) = exec i (s.withFetchWord nbits w)

/-- In the quiet modes no agent but the host moves anything (60_exceptions.md R206, 70_reset_and_hazards.md R221). -/
def Obligations.QuietModesOnlyMoveByHost : Prop :=
  ∀ s : State, s.mode = .idle ∨ s.mode = .done ∨ s.mode = .fault → s.turn = .device ∨ s.turn = .input →
    step s = .next { s with agenda := s.agenda.tail }

/-! ## The input environment -/

/-- 45_io.md R174. -/
def Obligations.ByteResponseStoresAndResumes : Prop :=
  ∀ (s : State) (b : Byte), s.turn = .input → s.mode = .waitIn →
    s.inputs.next = some (.byte b) → s.dp.toNat < s.cfg.heapSize →
    ∃ t : State, step s = .next t ∧ t.tape.read s.dp.toNat = b ∧
      (∀ a, a ≠ s.dp.toNat → t.tape.read a = s.tape.read a) ∧
      t = { s with agenda := s.agenda.tail, inputs := s.inputs.rest, tape := t.tape, ip := s.ip + 1#15, mode := .running }

/-- 45_io.md R175, under both values of `EOF_POLICY`. -/
def Obligations.EofResponseFollowsThePolicy : Prop :=
  ∀ s : State, s.turn = .input → s.mode = .waitIn →
    s.inputs.next = some .eof → s.dp.toNat < s.cfg.heapSize →
    ∃ t : State, step s = .next t ∧
      (s.cfg.eofPolicy = .zero → t.tape.read s.dp.toNat = 0x00#8) ∧
      (s.cfg.eofPolicy = .unchanged → t.tape.read s.dp.toNat = s.tape.read s.dp.toNat) ∧
      (∀ a, a ≠ s.dp.toNat → t.tape.read a = s.tape.read a) ∧
      t = { s with agenda := s.agenda.tail, inputs := s.inputs.rest, tape := t.tape, ip := s.ip + 1#15, mode := .running }

/-- 45_io.md R176: cell, `DP` and `IP` unchanged. -/
def Obligations.FailResponseFaults : Prop :=
  ∀ s : State, s.turn = .input → s.mode = .waitIn → s.inputs.next = some .fail →
    step s = .next { s with agenda := s.agenda.tail, inputs := s.inputs.rest, err := .inputFailed, mode := .fault }

/-- 45_io.md R173, R178: the environment takes no step in any other mode, and a wait that gets no answer goes on. -/
def Obligations.NoResponseOutsideWaiting : Prop :=
  ∀ s : State, s.turn = .input → s.mode ≠ .waitIn ∨ s.inputs.next = none →
    step s = .next { s with agenda := s.agenda.tail }

/-- 45_io.md R178, 60_exceptions.md R206: only a response or reset ends `WAIT_IN`, and all state survives the wait. -/
def Obligations.WaitEndsOnlyByResponseOrReset : Prop :=
  ∀ s t : State, s.mode = .waitIn → step s = .next t →
    (t = { s with agenda := s.agenda.tail, hostReads := t.hostReads } ∧ (t.mode = .waitIn)) ∨
    s.turn = .reset ∨
    (s.turn = .input ∧ s.inputs.next ≠ none ∧ (t.mode = .running ∨ (t.mode = .fault ∧ t.err = .inputFailed)))

/-! ## Invariants -/

/-- `Inv` holds right after reset (10_state.md R41). -/
def Obligations.ResetSatisfiesTheInvariant : Prop := Inv State.reset

/-- Every step of every agent keeps `Inv`: the ranges of `DP`, `LEN`, `SP`, `IP` (R25, R26, R29, R127), the
couplings of `ERR` and of the accumulator (R40, R30), the outstanding request (R31), the run's zeroed tape (R121),
the open slots below `LEN`, and the canonical form of the arrays. -/
def Obligations.EveryStepKeepsTheInvariant : Prop :=
  ∀ s t : State, Inv s → step s = .next t → Inv t

/-- In a state that satisfies `Inv` every step of every agent has a next state: no access of the device is out of
range (20_memory.md R51, R52, R57), and nothing is left without a meaning. -/
def Obligations.NoStepStopsFromAGoodState : Prop :=
  ∀ s : State, Inv s → ∃ t : State, step s = .next t

/-! ## Errors -/

/-- 60_exceptions.md R193. A step that enters `FAULT` writes `ERR`, `MODE` and, for an encoder error, `LEN <- 0`,
and nothing else; a failed response, and no other, is consumed by it (45_io.md R176). The fault state is left only by `CLEAR` or reset, and no step of the device
or the input environment happens in it. -/
def Obligations.RaiseWritesOnlyTheFaultState : Prop :=
  (∀ s t : State, step s = .next t → s.mode ≠ .fault → t.mode = .fault →
    t = { s with agenda := s.agenda.tail, err := t.err, mode := .fault,
                 inputs := if t.err = .inputFailed then s.inputs.rest else s.inputs,
                 len := if t.err.isCompile then 0#15 else s.len } ∧ t.err ≠ .none) ∧
  (∀ s t : State, step s = .next t → s.mode = .fault → t.mode ≠ .fault →
    s.turn = .reset ∨ ∃ v : HostWord, s.turn = .host (.writeReg 0 v) ∧ v.extractLsb' 0 4 = 8#4) ∧
  (∀ s : State, s.mode = .fault → s.turn = .device ∨ s.turn = .input →
    step s = .next { s with agenda := s.agenda.tail })

/-- 41_dispatch.md R130: a run on a well-formed module enters `FAULT` only with `PointerOutOfBounds` or
`InputFailed`. -/
def Obligations.WellFormedRunFaultsOnlyByPointerOrInput : Prop :=
  ∀ s t : State, Inv s → WellFormedModule s → s.mode = .running ∨ s.mode = .waitIn → step s = .next t →
    t.mode = .fault → t.err = .pointerOutOfBounds ∨ t.err = .inputFailed

/-! ## Who writes what -/

/-- 20_memory.md R62: the module does not change in a step of a run, of whichever agent, but for reset. -/
def Obligations.ModuleIsImmutableDuringARun : Prop :=
  ∀ s t : State, s.mode = .running ∨ s.mode = .waitIn → s.turn ≠ .reset → step s = .next t →
    t.imem = s.imem ∧ t.jt = s.jt ∧ t.len = s.len

/-- 42_pointer.md R142. -/
def Obligations.DataPointerStaysInRangeAndOnlyMovesWriteIt : Prop :=
  ∀ s t : State, step s = .next t →
    (Inv s → t.dp.toNat < t.cfg.heapSize) ∧
    (t.dp ≠ s.dp → s.turn = .reset ∨
      (∃ v : HostWord, s.turn = .host (.writeReg 0 v) ∧ v.extractLsb' 0 4 = 4#4 ∧ (s.mode = .idle ∨ s.mode = .done)) ∨
      (s.turn = .device ∧ s.mode = .running ∧
        ∃ n, decode (s.imem.read s.ip.toNat) = .ok (.moveLeft n) ∨ decode (s.imem.read s.ip.toNat) = .ok (.moveRight n)))

/-- 10_state.md R20, the writers of `TAPE`: `RUN_START`, `Increment`, `Decrement`, `Input`, and reset (R41); the
last three instructions write the cell at `DP` alone. -/
def Obligations.OnlyItsWritersChangeTheTape : Prop :=
  ∀ (s t : State) (a : Nat), step s = .next t → t.tape.read a ≠ s.tape.read a →
    s.turn = .reset ∨
    (∃ v : HostWord, s.turn = .host (.writeReg 0 v) ∧ v.extractLsb' 0 4 = 4#4 ∧ (s.mode = .idle ∨ s.mode = .done)) ∨
    (a = s.dp.toNat ∧ s.turn = .device ∧ s.mode = .running ∧
      ∃ n, decode (s.imem.read s.ip.toNat) = .ok (.increment n) ∨ decode (s.imem.read s.ip.toNat) = .ok (.decrement n)) ∨
    (a = s.dp.toNat ∧ s.turn = .input ∧ s.mode = .waitIn)

/-- 45_io.md R171, R177, 20_memory.md R60: a step sends one byte, the current cell, exactly when it dispatches an
`Output`: no other step sends one, and every dispatch of an `Output` does. Only `RUN_START` begins a new output
sequence (log 5). -/
def Obligations.OnlyOutputSendsBytes : Prop :=
  ∀ s t : State, step s = .next t →
    (t.outputs = s.outputs ∨
      (t.outputs = s.outputs ++ [s.tape.read s.dp.toNat] ∧ s.turn = .device ∧ s.mode = .running ∧
        s.ip.toNat < s.len.toNat ∧ decode (s.imem.read s.ip.toNat) = .ok .output) ∨
      (t.outputs = [] ∧ t.mode = .running ∧ (s.mode = .idle ∨ s.mode = .done) ∧
        ∃ v : HostWord, s.turn = .host (.writeReg 0 v) ∧ v.extractLsb' 0 4 = 4#4)) ∧
    (s.turn = .device → s.mode = .running → s.ip.toNat < s.len.toNat →
      decode (s.imem.read s.ip.toNat) = .ok .output → t.outputs = s.outputs ++ [s.tape.read s.dp.toNat])

/-! ## The host interface -/

/-- 10_state.md R22 and 60_exceptions.md R190: the numbers of the modes and of the errors. -/
def Obligations.ModeAndErrorCodes : Prop :=
  Mode.code .idle = 0#3 ∧ Mode.code .encoding = 1#3 ∧ Mode.code .running = 2#3 ∧ Mode.code .waitIn = 3#3 ∧
  Mode.code .done = 4#3 ∧ Mode.code .fault = 5#3 ∧
  Err.code .none = 0#4 ∧ Err.code .unmatchedOpenBracket = 1#4 ∧ Err.code .unmatchedCloseBracket = 2#4 ∧
  Err.code .sourceTooLarge = 3#4 ∧ Err.code .pointerOutOfBounds = 4#4 ∧ Err.code .inputFailed = 5#4 ∧
  Err.code .illegalInstruction = 6#4 ∧ Err.code .badJumpTarget = 7#4

/-- 10_state.md R37: what a read of `STATUS` returns, field by field; the read changes nothing. -/
def Obligations.StatusReadShowsItsFields : Prop :=
  ∀ s : State, s.turn = .host (.readReg 2) → ∃ w : HostWord,
    step s = .next { s with agenda := s.agenda.tail, hostReads := s.hostReads ++ [w] } ∧
    w.extractLsb' 0 3 = s.mode.code ∧ w.extractLsb' 3 1 = 0#1 ∧ w.extractLsb' 4 4 = s.err.code ∧
    w.extractLsb' 8 1 = (if s.cfg.hasEncoder then 1#1 else 0#1) ∧
    w.extractLsb' 9 1 = (if s.cfg.eofPolicy = .unchanged then 1#1 else 0#1) ∧
    w.extractLsb' 10 22 = 0#22

/-- 10_state.md R38: `LEN`, `IP`, `DP`, `DEPTH` read zero-extended in every mode; `LEN` takes a value up to
`HEAPSIZE` in a quiet mode and nothing else; the other three ignore writes. -/
def Obligations.LenIpDpDepthRegisters : Prop :=
  ∀ s : State, s.cfg.legal →
    (s.turn = .host (.readReg 3) → ∃ w : HostWord, w.toNat = s.len.toNat ∧
      step s = .next { s with agenda := s.agenda.tail, hostReads := s.hostReads ++ [w] }) ∧
    (s.turn = .host (.readReg 4) → ∃ w : HostWord, w.toNat = s.ip.toNat ∧
      step s = .next { s with agenda := s.agenda.tail, hostReads := s.hostReads ++ [w] }) ∧
    (s.turn = .host (.readReg 5) → ∃ w : HostWord, w.toNat = s.dp.toNat ∧
      step s = .next { s with agenda := s.agenda.tail, hostReads := s.hostReads ++ [w] }) ∧
    (s.turn = .host (.readReg 6) → ∃ w : HostWord, w.toNat = s.sp.toNat ∧
      step s = .next { s with agenda := s.agenda.tail, hostReads := s.hostReads ++ [w] }) ∧
    (∀ v : HostWord, s.turn = .host (.writeReg 3 v) →
      (s.mode.quiet = true → v.toNat ≤ s.cfg.heapSize → ∃ t : State, step s = .next t ∧ t.len.toNat = v.toNat ∧
        t = { s with agenda := s.agenda.tail, len := t.len }) ∧
      (s.mode.quiet = false ∨ s.cfg.heapSize < v.toNat → step s = .next { s with agenda := s.agenda.tail })) ∧
    (∀ (i : Nat) (v : HostWord), i = 4 ∨ i = 5 ∨ i = 6 → s.turn = .host (.writeReg i v) →
      step s = .next { s with agenda := s.agenda.tail })

/-- 10_state.md R33: write-only registers and indices of 7 and above read 0; a write to a read-only register or to
7 and above is ignored; and a read, of whatever index, changes nothing. -/
def Obligations.RegisterIndexMap : Prop :=
  ∀ s : State,
    (∀ i : Nat, i = 0 ∨ i = 1 ∨ 7 ≤ i → s.turn = .host (.readReg i) →
      step s = .next { s with agenda := s.agenda.tail, hostReads := s.hostReads ++ [0#32] }) ∧
    (∀ (i : Nat) (v : HostWord), i = 2 ∨ i = 4 ∨ i = 5 ∨ i = 6 ∨ 7 ≤ i → s.turn = .host (.writeReg i v) →
      step s = .next { s with agenda := s.agenda.tail }) ∧
    (∀ i : Nat, s.turn = .host (.readReg i) → ∃ w : HostWord,
      step s = .next { s with agenda := s.agenda.tail, hostReads := s.hostReads ++ [w] })

/-- 10_state.md R39: the three array ports, in a quiet mode below `HEAPSIZE`, and otherwise. -/
def Obligations.ArrayPorts : Prop :=
  ∀ (s : State) (i : Nat), s.cfg.legal →
    (s.mode.quiet = true → i < s.cfg.heapSize →
      (s.turn = .host (.readArray .imem i) → ∃ w : HostWord, w.toNat = (s.imem.read i).toNat ∧
        step s = .next { s with agenda := s.agenda.tail, hostReads := s.hostReads ++ [w] }) ∧
      (s.turn = .host (.readArray .jt i) → ∃ w : HostWord, w.toNat = (s.jtEntry i).toNat ∧
        step s = .next { s with agenda := s.agenda.tail, hostReads := s.hostReads ++ [w] }) ∧
      (s.turn = .host (.readArray .tape i) → ∃ w : HostWord, w.toNat = (s.tape.read i).toNat ∧
        step s = .next { s with agenda := s.agenda.tail, hostReads := s.hostReads ++ [w] }) ∧
      (∀ v : HostWord, s.turn = .host (.writeArray .imem i v) → ∃ t : State, step s = .next t ∧
        t.imem.read i = v.extractLsb' 0 16 ∧ (∀ a, a ≠ i → t.imem.read a = s.imem.read a) ∧
        t = { s with agenda := s.agenda.tail, imem := t.imem }) ∧
      (∀ v : HostWord, s.turn = .host (.writeArray .jt i v) → ∃ t : State, step s = .next t ∧
        (t.jtEntry i).toNat = v.toNat % 2 ^ s.cfg.iw ∧ (∀ a, a ≠ i → t.jtEntry a = s.jtEntry a) ∧
        t = { s with agenda := s.agenda.tail, jt := t.jt }) ∧
      (∀ v : HostWord, s.turn = .host (.writeArray .tape i v) → step s = .next { s with agenda := s.agenda.tail })) ∧
    (s.mode.quiet = false ∨ s.cfg.heapSize ≤ i →
      (∀ p, s.turn = .host (.readArray p i) →
        step s = .next { s with agenda := s.agenda.tail, hostReads := s.hostReads ++ [0#32] }) ∧
      (∀ (p : HostArray) (v : HostWord), s.turn = .host (.writeArray p i v) →
        step s = .next { s with agenda := s.agenda.tail }))

/-- 70_reset_and_hazards.md R225: writes of the module in a busy mode are lost, with no error indication. -/
def Obligations.BusyModuleWritesAreLost : Prop :=
  ∀ s : State, s.mode = .encoding ∨ s.mode = .running ∨ s.mode = .waitIn →
    (∀ v : HostWord, s.turn = .host (.writeReg 3 v) → step s = .next { s with agenda := s.agenda.tail }) ∧
    (∀ (p : HostArray) (i : Nat) (v : HostWord), s.turn = .host (.writeArray p i v) →
      step s = .next { s with agenda := s.agenda.tail })

/-- 10_state.md R35: a command outside its modes changes nothing and records no error. -/
def Obligations.CommandsOutsideTheirModesAreIgnored : Prop :=
  ∀ (s : State) (v : HostWord), s.turn = .host (.writeReg 0 v) →
    (v.extractLsb' 0 4 = 1#4 → s.cfg.hasEncoder = false ∨ (s.mode ≠ .idle ∧ s.mode ≠ .done) →
      step s = .next { s with agenda := s.agenda.tail }) ∧
    (v.extractLsb' 0 4 = 2#4 → s.cfg.hasEncoder = false ∨ s.mode ≠ .encoding →
      step s = .next { s with agenda := s.agenda.tail }) ∧
    (v.extractLsb' 0 4 = 4#4 → s.mode ≠ .idle ∧ s.mode ≠ .done →
      step s = .next { s with agenda := s.agenda.tail }) ∧
    (v.extractLsb' 0 4 = 8#4 → s.mode ≠ .idle ∧ s.mode ≠ .done ∧ s.mode ≠ .fault →
      step s = .next { s with agenda := s.agenda.tail })

/-- 10_state.md R34, 60_exceptions.md R198: `CLEAR` leaves the fault state and keeps the module; a `CTRL` write with
no command bit or more than one is ignored as a whole. -/
def Obligations.ClearAndMalformedCtrlWrites : Prop :=
  ∀ (s : State) (v : HostWord), s.turn = .host (.writeReg 0 v) →
    (v.extractLsb' 0 4 = 8#4 → s.mode = .idle ∨ s.mode = .done ∨ s.mode = .fault →
      step s = .next { s with agenda := s.agenda.tail, mode := .idle, err := .none }) ∧
    (v.extractLsb' 0 4 ≠ 1#4 → v.extractLsb' 0 4 ≠ 2#4 → v.extractLsb' 0 4 ≠ 4#4 → v.extractLsb' 0 4 ≠ 8#4 →
      step s = .next { s with agenda := s.agenda.tail })

/-- 41_dispatch.md R121 (and 45_io.md R171: the output sequence is that since `RUN_START`). -/
def Obligations.RunStartBeginsAFreshRun : Prop :=
  ∀ (s : State) (v : HostWord), s.turn = .host (.writeReg 0 v) → v.extractLsb' 0 4 = 4#4 →
    s.mode = .idle ∨ s.mode = .done → ∃ t : State, step s = .next t ∧
      (∀ a, t.tape.read a = 0x00#8) ∧ t.dp = 0#15 ∧ t.ip = 0#15 ∧ t.err = .none ∧ t.mode = .running ∧
      t = { s with agenda := s.agenda.tail, tape := t.tape, dp := 0#15, ip := 0#15, err := .none, mode := .running,
                   outputs := [] }

/-- Reset, from any mode (70_reset_and_hazards.md R220; 10_state.md R41): the registers at their values, the four
arrays unspecified anew, the request dropped. Two clauses are the model's choice: that the record of output is kept
over reset is log 5's, that the response which would have answered the request leaves `inputs` is log 11's. -/
def Obligations.ResetFromAnyMode : Prop :=
  ∀ s : State, s.turn = .reset → ∃ t : State, step s = .next t ∧
    t.mode = .idle ∧ t.err = .none ∧ t.ip = 0#15 ∧ t.dp = 0#15 ∧ t.len = 0#15 ∧ t.sp = 0#15 ∧
    t.runOp = none ∧ t.runCnt = 0#8 ∧
    (∃ k, t.tape = ⟨.free k, []⟩) ∧ (∃ k, t.imem = ⟨.free k, []⟩) ∧ (∃ k, t.jt = ⟨.free k, []⟩) ∧
    (∃ k, t.stack = ⟨.free k, []⟩) ∧
    t.cfg = s.cfg ∧ t.agenda = s.agenda.tail ∧ t.outputs = s.outputs ∧
    (s.mode = .waitIn → t.inputs = s.inputs.rest) ∧ (s.mode ≠ .waitIn → t.inputs = s.inputs)

/-! ## The encoder, one action a step -/

/-- 40_encoder.md R91. -/
def Obligations.EncStartDiscardsTheModule : Prop :=
  ∀ (s : State) (v : HostWord), s.turn = .host (.writeReg 0 v) → v.extractLsb' 0 4 = 1#4 →
    s.cfg.hasEncoder = true → s.mode = .idle ∨ s.mode = .done →
    step s = .next { s with agenda := s.agenda.tail, len := 0#15, sp := 0#15, runOp := none, runCnt := 0#8,
                            err := .none, mode := .encoding }

/-- 10_state.md R36: `SRC` hands bits[7:0] to the encoder, in `ENCODING` of a block with one; else it is ignored. -/
def Obligations.SrcTakesOneByte : Prop :=
  ∀ (s : State) (v : HostWord), s.turn = .host (.writeReg 1 v) →
    (s.cfg.hasEncoder = true → s.mode = .encoding →
      step s = settle { s with agenda := s.agenda.tail }
        (encodeByte (v.extractLsb' 0 8) { s with agenda := s.agenda.tail })) ∧
    (s.cfg.hasEncoder = false ∨ s.mode ≠ .encoding → step s = .next { s with agenda := s.agenda.tail })

/-- 40_encoder.md R93 to R96, a fold character: it goes on with the pending run of its operator up to 255; begins a
run where none is pending; and otherwise (another operator, or the 256th character) first emits the pending run's
word, for which there must be a slot. The four fold characters and their words are those of R92 and
30_encoding.md R80, R72, and no other byte folds. -/
def Obligations.FoldCharactersRunLengthEncode : Prop :=
  (foldOp 0x3C#8 = some .moveLeft ∧ foldOp 0x3E#8 = some .moveRight ∧ foldOp 0x2D#8 = some .decrement ∧
    foldOp 0x2B#8 = some .increment ∧ ∀ c, c ∉ [0x3C#8, 0x3E#8, 0x2D#8, 0x2B#8] → foldOp c = none) ∧
  (∀ n : BitVec 8, encode (FoldOp.moveLeft.instr n) = 0x01#8 ++ n ∧ encode (FoldOp.moveRight.instr n) = 0x02#8 ++ n ∧
    encode (FoldOp.decrement.instr n) = 0x03#8 ++ n ∧ encode (FoldOp.increment.instr n) = 0x04#8 ++ n) ∧
  ∀ (s : State) (c : Byte) (op : FoldOp), foldOp c = some op →
    (s.runOp = some op → s.runCnt.toNat < 255 → encodeByte c s = .ok { s with runCnt := s.runCnt + 1#8 }) ∧
    (s.runOp = none → encodeByte c s = .ok { s with runOp := some op, runCnt := 1#8 }) ∧
    (∀ p : FoldOp, s.runOp = some p → p ≠ op ∨ s.runCnt.toNat = 255 →
      (s.len.toNat < s.cfg.heapSize → ∃ t : State, encodeByte c s = .ok t ∧
        t.imem.read s.len.toNat = encode (p.instr s.runCnt) ∧
        (∀ a, a ≠ s.len.toNat → t.imem.read a = s.imem.read a) ∧
        t = { s with imem := t.imem, len := s.len + 1#15, runOp := some op, runCnt := 1#8 }) ∧
      (s.len.toNat = s.cfg.heapSize → encodeByte c s = .raise .sourceTooLarge))

/-- 40_encoder.md R93, R95, R102: a byte that is no fold character acts, where a run is pending, exactly as it would
in the state with that run flushed; without a slot for the flush it raises `SourceTooLarge` before anything else. -/
def Obligations.PendingRunIsFlushedFirst : Prop :=
  ∀ (s : State) (c : Byte) (p : FoldOp), foldOp c = none → s.runOp = some p →
    (s.len.toNat < s.cfg.heapSize → ∃ u : State,
      u.imem.read s.len.toNat = encode (p.instr s.runCnt) ∧ (∀ a, a ≠ s.len.toNat → u.imem.read a = s.imem.read a) ∧
      u = { s with imem := u.imem, len := s.len + 1#15, runOp := none, runCnt := 0#8 } ∧
      encodeByte c s = encodeByte c u ∧ encodeEnd s = encodeEnd u) ∧
    (s.len.toNat = s.cfg.heapSize →
      encodeByte c s = .raise .sourceTooLarge ∧ encodeEnd s = .raise .sourceTooLarge)

/-- 40_encoder.md R97, R101: `.` and `,` emit one word each, never folded; every byte that is none of the eight
operators emits nothing. -/
def Obligations.SingleAndCommentBytes : Prop :=
  ∀ (s : State) (c : Byte), s.runOp = none →
    (c = 0x2E#8 ∨ c = 0x2C#8 →
      (s.len.toNat < s.cfg.heapSize → ∃ t : State, encodeByte c s = .ok t ∧
        t.imem.read s.len.toNat = (if c = 0x2E#8 then 0x0700#16 else 0x0800#16) ∧
        (∀ a, a ≠ s.len.toNat → t.imem.read a = s.imem.read a) ∧
        t = { s with imem := t.imem, len := s.len + 1#15 }) ∧
      (s.len.toNat = s.cfg.heapSize → encodeByte c s = .raise .sourceTooLarge)) ∧
    (c ∉ [0x3C#8, 0x3E#8, 0x2D#8, 0x2B#8, 0x2E#8, 0x2C#8, 0x5B#8, 0x5D#8] → encodeByte c s = .ok s)

/-- 40_encoder.md R98: `[` pushes its slot and emits `LoopStart`; both tests come before any write. -/
def Obligations.OpenBracketPushesItsSlot : Prop :=
  ∀ s : State, s.runOp = none →
    (s.sp.toNat = s.cfg.stackSize ∨ s.len.toNat = s.cfg.heapSize → encodeByte 0x5B#8 s = .raise .sourceTooLarge) ∧
    (s.sp.toNat < s.cfg.stackSize → s.len.toNat < s.cfg.heapSize → ∃ t : State, encodeByte 0x5B#8 s = .ok t ∧
      t.stack.read s.sp.toNat = s.len ∧ (∀ a, a ≠ s.sp.toNat → t.stack.read a = s.stack.read a) ∧
      t.imem.read s.len.toNat = 0x0500#16 ∧ (∀ a, a ≠ s.len.toNat → t.imem.read a = s.imem.read a) ∧
      t = { s with stack := t.stack, sp := s.sp + 1#15, imem := t.imem, len := s.len + 1#15 })

/-- 40_encoder.md R99: `]` pops its partner, writes the pair both ways and emits `LoopEnd`. -/
def Obligations.CloseBracketWritesThePair : Prop :=
  ∀ s : State, s.runOp = none →
    (s.sp = 0#15 → encodeByte 0x5D#8 s = .raise .unmatchedCloseBracket) ∧
    (s.sp ≠ 0#15 → s.len.toNat = s.cfg.heapSize → encodeByte 0x5D#8 s = .raise .sourceTooLarge) ∧
    (∀ o : Slot, s.sp ≠ 0#15 → s.len.toNat < s.cfg.heapSize → (s.sp - 1#15).toNat < s.cfg.stackSize →
      s.stack.read (s.sp - 1#15).toNat = o → o.toNat < s.len.toNat → ∃ t : State, encodeByte 0x5D#8 s = .ok t ∧
      t.jt.read o.toNat = s.len ∧ t.jt.read s.len.toNat = o ∧
      (∀ a, a ≠ o.toNat → a ≠ s.len.toNat → t.jt.read a = s.jt.read a) ∧
      t.imem.read s.len.toNat = 0x0600#16 ∧ (∀ a, a ≠ s.len.toNat → t.imem.read a = s.imem.read a) ∧
      t = { s with sp := s.sp - 1#15, jt := t.jt, imem := t.imem, len := s.len + 1#15 })

/-- 40_encoder.md R103, where no run is pending (with one, `PendingRunIsFlushedFirst` gives the flush): success
leaves `IDLE` with the module, an open bracket raises. -/
def Obligations.EncEndFinishesOrRaises : Prop :=
  ∀ (s : State) (v : HostWord), s.turn = .host (.writeReg 0 v) → v.extractLsb' 0 4 = 2#4 →
    s.cfg.hasEncoder = true → s.mode = .encoding →
    step s = settle { s with agenda := s.agenda.tail } (encodeEnd { s with agenda := s.agenda.tail }) ∧
    (s.runOp = none → s.sp = 0#15 → step s = .next { s with agenda := s.agenda.tail, mode := .idle }) ∧
    (s.runOp = none → s.sp ≠ 0#15 → step s = .next
      { s with agenda := s.agenda.tail, err := .unmatchedOpenBracket, mode := .fault, len := 0#15 })

/-- 40_encoder.md R109: no step in `ENCODING` but reset writes `TAPE`, `IP` or `DP`, and `JT` changes only at a `]`,
by the pair of the slot it pops and the slot of its own word, written both ways. -/
def Obligations.EncoderFrameInEncoding : Prop :=
  ∀ s t : State, s.mode = .encoding → s.turn ≠ .reset → step s = .next t →
    t.tape = s.tape ∧ t.ip = s.ip ∧ t.dp = s.dp ∧ t.outputs = s.outputs ∧ t.inputs = s.inputs ∧ t.cfg = s.cfg ∧
    (t.jt = s.jt ∨ ∃ (v : HostWord) (o l : Slot), s.turn = .host (.writeReg 1 v) ∧ v.extractLsb' 0 8 = 0x5D#8 ∧
      o = s.stack.read t.sp.toNat ∧ t.sp = s.sp - 1#15 ∧ t.len = l + 1#15 ∧
      t.jt = (s.jt.write o.toNat l).write l.toNat o)

/-- 40_encoder.md R100: `SourceTooLarge` is raised only at a full module (which the flush of the pending run may
have filled) or by `[` at a full stack. -/
def Obligations.SourceTooLargeOnlyAtCapacity : Prop :=
  ∀ s t : State, Inv s → s.mode = .encoding → step s = .next t → t.mode = .fault → t.err = .sourceTooLarge →
    s.len.toNat = s.cfg.heapSize ∨
    (s.runOp ≠ none ∧ s.len.toNat + 1 = s.cfg.heapSize) ∨
    (s.sp.toNat = s.cfg.stackSize ∧ ∃ v : HostWord, s.turn = .host (.writeReg 1 v) ∧ v.extractLsb' 0 8 = 0x5B#8)

/-! ## The encoder as a whole -/

/-- 40_encoder.md R90, R105: the streaming encoder gives for every source exactly what `Encode(src)` gives, in one
turn for `ENC_START`, one for each of the accesses up to `ENC_END` and one for that (R110). The source is the bytes
written to `SRC` between the two; whatever else happens there (reads, accesses that are ignored, turns of the other
agents; 70_reset_and_hazards.md R231), but for a reset, changes nothing of it. An error stands as soon as it is raised
(what the host does in `FAULT` is its own), and still after `ENC_END` where the host only goes on writing `SRC`. -/
def Obligations.StreamingEncoderEqualsEncode : Prop :=
  ∀ (s : State) (v w : HostWord) (mid later : List Turn), s.cfg.legal → s.cfg.hasEncoder = true →
    s.mode = .idle ∨ s.mode = .done →
    s.agenda = .host (.writeReg 0 v) :: (mid ++ .host (.writeReg 0 w) :: later) →
    v.extractLsb' 0 4 = 1#4 → w.extractLsb' 0 4 = 2#4 →
    (∀ x ∈ mid, x ≠ .reset ∧ ∀ u : HostWord, x = .host (.writeReg 0 u) → u.extractLsb' 0 4 ≠ 2#4) →
    match encodeSource s.cfg (mid.filterMap Turn.srcByte) with
    | .ok m => ∃ t : State, Sys2Proof.core.run (mid.length + 2) s = .next t ∧
        t.mode = .idle ∧ t.err = .none ∧ t.len.toNat = m.words.length ∧
        (∀ i w, m.words[i]? = some w → t.imem.read i = w) ∧ (∀ p ∈ m.jt, (t.jtEntry p.1).toNat = p.2)
    | .error e =>
        (∃ (k : Nat) (t : State), k ≤ mid.length + 2 ∧ Sys2Proof.core.run k s = .next t ∧
          t.mode = .fault ∧ t.err = e ∧ t.len = 0#15) ∧
        ((∀ x ∈ mid, x.srcByte.isSome = true) → ∃ t : State, Sys2Proof.core.run (mid.length + 2) s = .next t ∧
          t.mode = .fault ∧ t.err = e ∧ t.len = 0#15)

/-- 40_encoder.md R108: every module the encoder produces is well-formed. From an accepted `ENC_START` on, whatever
turns are taken while the block is in `ENCODING` (70_reset_and_hazards.md R231), the step that leaves it for `IDLE`
leaves a well-formed module. -/
def Obligations.EncodedModulesAreWellFormed : Prop :=
  ∀ (s t : State) (v : HostWord) (n : Nat), s.cfg.legal → s.cfg.hasEncoder = true → s.mode = .idle ∨ s.mode = .done →
    s.turn = .host (.writeReg 0 v) → v.extractLsb' 0 4 = 1#4 →
    (∀ (k : Nat) (u : State), k ≤ n → Sys2Proof.core.run (k + 1) s = .next u → u.mode = .encoding) →
    Sys2Proof.core.run (n + 2) s = .next t → t.mode = .idle → WellFormedModule t

/-- 40_encoder.md R107, 41_dispatch.md R120: in a well-formed module the jump table maps each bracket to its partner
and back, and a `LoopStart` lies before its `LoopEnd`. -/
def Obligations.JumpTableIsSymmetric : Prop :=
  ∀ s : State, WellFormedModule s → ∀ i : Nat, i < s.len.toNat →
    (isOpen (s.imem.read i) = true → i < (s.jtEntry i).toNat ∧ (s.jtEntry i).toNat < s.len.toNat ∧
      isClose (s.imem.read (s.jtEntry i).toNat) = true ∧ (s.jtEntry (s.jtEntry i).toNat).toNat = i) ∧
    (isClose (s.imem.read i) = true → (s.jtEntry i).toNat < i ∧
      isOpen (s.imem.read (s.jtEntry i).toNat) = true ∧ (s.jtEntry (s.jtEntry i).toNat).toNat = i)

/-- 40_encoder.md R94, R106: a source of `k` equal fold characters gives `k / 255` words of count 255 and then, where
255 does not divide `k`, one of the remainder. -/
def Obligations.RunOfKCharactersGivesItsPieces : Prop :=
  ∀ (c : Config) (x : Byte) (op : FoldOp) (k : Nat), foldOp x = some op → (k + 254) / 255 ≤ c.heapSize →
    encodeSource c (List.replicate k x) = .ok ⟨[],
      List.replicate (k / 255) (encode (op.instr 255#8)) ++
        (if k % 255 = 0 then [] else [encode (op.instr (BitVec.ofNat 8 (k % 255)))]), []⟩

/-! ## Runs -/

/-- 44_loop.md R163: in a well-formed module a bracket that branches goes, in two dispatches, to just past its
partner, and changes nothing else. -/
def Obligations.BranchLandsJustPastThePartner : Prop :=
  ∀ s : State, Inv s → WellFormedModule s → s.mode = .running → s.agenda = [] → s.ip.toNat < s.len.toNat →
    (isOpen (s.imem.read s.ip.toNat) = true ∧ s.tape.read s.dp.toNat = 0#8 ∨
     isClose (s.imem.read s.ip.toNat) = true ∧ s.tape.read s.dp.toNat ≠ 0#8) →
    Sys2Proof.core.run 2 s = .next { s with ip := s.jtEntry s.ip.toNat + 1#15 }

/-- 20_memory.md R65, 10_state.md R27, R42: two runs of one module with the same responses go the same way, step by
step, whatever the tape, the pointers, the slots past `LEN`, the `JT` entries of other slots and the encoder's
registers held before `RUN_START`. -/
def Obligations.RunsOfOneModuleAgree : Prop :=
  ∀ (s s' : State) (k : Nat), Inv s → Inv s' → NoFault s → NoFault s' → s'.cfg = s.cfg → SameModule s s' →
    s'.inputs = s.inputs → s.agenda = [hostWrite 0 4#32] → s'.agenda = [hostWrite 0 4#32] →
    ∃ t t' : State, Sys2Proof.core.run (k + 1) s = .next t ∧ Sys2Proof.core.run (k + 1) s' = .next t' ∧ SameRun t t'

/-- 00_scope.md R9: `IW` and `SW` are the smallest widths that hold `0..HEAPSIZE` and `0..STACKSIZE`. -/
def Obligations.WidthsAreTheLeast : Prop :=
  ∀ c : Config, c.legal →
    c.heapSize < 2 ^ c.iw ∧ (∀ w, c.heapSize < 2 ^ w → c.iw ≤ w) ∧
    c.stackSize < 2 ^ c.sw ∧ (∀ w, c.stackSize < 2 ^ w → c.sw ≤ w) ∧
    Config.hardware.iw = 15 ∧ Config.hardware.sw = 15

/-- 41_dispatch.md R127: no step of the block takes `IP` above `LEN` in `RUNNING`, `WAIT_IN` or `DONE`, completion
gives `IP = LEN`, and in `DONE` `IP` stays where completion left it. The one step that leaves `IP` above `LEN` is no
write of `IP`: in `DONE` the host may write a smaller `LEN` (10_state.md R38), which R127's derivation does not count.
That the model follows R38 there is its own choice (log 12). -/
def Obligations.IpExceedsLenOnlyByAHostWriteInDone : Prop :=
  ∀ s t : State, Inv s → step s = .next t →
    (IpWithinLen s → IpWithinLen t ∨
      (s.mode = .done ∧ t.ip = s.ip ∧ ∃ v : HostWord, s.turn = .host (.writeReg 3 v) ∧ v.toNat < s.ip.toNat ∧
        t.len.toNat = v.toNat)) ∧
    (s.mode ≠ .done → t.mode = .done → t.ip = t.len) ∧
    (s.mode = .done → t.mode = .done → t.ip = s.ip ∧
      (t.len = s.len ∨ ∃ v : HostWord, s.turn = .host (.writeReg 3 v) ∧ v.toNat ≤ s.cfg.heapSize ∧
        t.len.toNat = v.toNat))
end

