-- ==== Sys2Proof/Laws/Memory.lean ====
section
/-! SUPPORT. The laws of one array: a read after a write, and that a write keeps the canonical form. -/

namespace Sys2Proof.Machine

variable {w : Nat}

theorem lookup_insertCell_same (a : Nat) (v : BitVec w) (l : List (Nat × BitVec w)) :
    lookup a (insertCell a v l) = some v := by
  induction l with
  | nil => simp [insertCell, lookup]
  | cons e rest ih =>
    simp only [insertCell]
    split
    · simp [lookup]
    · split
      · simp [lookup]
      · simp [lookup, *]

theorem lookup_insertCell_other {a b : Nat} (h : b ≠ a) (v : BitVec w) (l : List (Nat × BitVec w)) :
    lookup b (insertCell a v l) = lookup b l := by
  induction l with
  | nil => simp [insertCell, lookup, h]
  | cons e rest ih =>
    obtain ⟨c, u⟩ := e
    simp only [insertCell]
    split
    · simp [lookup, h]
    · split
      · subst_vars; simp [lookup, h]
      · simp [lookup, ih]

theorem lookup_eraseCell_same (a : Nat) (l : List (Nat × BitVec w)) : lookup a (eraseCell a l) = none := by
  induction l with
  | nil => rfl
  | cons e rest ih =>
    simp only [eraseCell]
    split
    · exact ih
    · simp [lookup, *]

theorem lookup_eraseCell_other {a b : Nat} (h : b ≠ a) (l : List (Nat × BitVec w)) :
    lookup b (eraseCell a l) = lookup b l := by
  induction l with
  | nil => rfl
  | cons e rest ih =>
    simp only [eraseCell]
    split
    · subst_vars; simp [lookup, h, ih]
    · simp [lookup, ih]

@[simp] theorem Memory.write_fill (m : Memory w) (a : Nat) (v : BitVec w) : (m.write a v).fill = m.fill := by
  simp only [Memory.write]; split <;> rfl

theorem Fill.at_of_hides {f : Fill w} {v : BitVec w} (h : f.hides v = true) (a : Nat) : f.at a = v := by
  cases f <;> simp_all [Fill.hides, Fill.at]

/-- A read after a write to the same element gives the value written. -/
@[simp] theorem Memory.read_write_same (m : Memory w) (a : Nat) (v : BitVec w) : (m.write a v).read a = v := by
  simp only [Memory.write]
  split
  · simp only [Memory.read, lookup_eraseCell_same]
    exact Fill.at_of_hides ‹_› a
  · simp [Memory.read, lookup_insertCell_same]

/-- A write leaves every other element alone. -/
theorem Memory.read_write_other (m : Memory w) {a b : Nat} (h : b ≠ a) (v : BitVec w) :
    (m.write a v).read b = m.read b := by
  simp only [Memory.write]
  split
  · simp [Memory.read, lookup_eraseCell_other h]
  · simp [Memory.read, lookup_insertCell_other h]

theorem Memory.read_write (m : Memory w) (a b : Nat) (v : BitVec w) :
    (m.write a v).read b = if b = a then v else m.read b := by
  split
  · subst_vars; simp
  · exact m.read_write_other ‹_› v

/-! ## The canonical form is kept -/

theorem risesFrom_insertCell {lo a : Nat} (v : BitVec w) {l : List (Nat × BitVec w)} (ha : lo < a)
    (h : risesFrom lo l = true) : risesFrom lo (insertCell a v l) = true := by
  induction l generalizing lo with
  | nil => simp [insertCell, risesFrom, ha]
  | cons e rest ih =>
    simp only [risesFrom, Bool.and_eq_true, decide_eq_true_eq] at h
    simp only [insertCell]
    split
    · simp [risesFrom, *]
    · split
      · subst_vars; simp [risesFrom, *]
      · simp only [risesFrom, Bool.and_eq_true, decide_eq_true_eq]
        exact ⟨h.1, ih (by omega) h.2⟩

theorem rising_insertCell (a : Nat) (v : BitVec w) {l : List (Nat × BitVec w)} (h : rising l = true) :
    rising (insertCell a v l) = true := by
  cases l with
  | nil => simp [insertCell, rising, risesFrom]
  | cons e rest =>
    simp only [rising] at h
    simp only [insertCell]
    split
    · simp [rising, risesFrom, *]
    · split
      · subst_vars; simpa [rising] using h
      · exact risesFrom_insertCell v (by omega) h

theorem risesFrom_mono {lo lo' : Nat} (h : lo' ≤ lo) {l : List (Nat × BitVec w)} (hr : risesFrom lo l = true) :
    risesFrom lo' l = true := by
  cases l with
  | nil => rfl
  | cons e rest =>
    simp only [risesFrom, Bool.and_eq_true, decide_eq_true_eq] at *
    exact ⟨by omega, hr.2⟩

theorem risesFrom_eraseCell (a : Nat) {lo : Nat} {l : List (Nat × BitVec w)} (h : risesFrom lo l = true) :
    risesFrom lo (eraseCell a l) = true := by
  induction l generalizing lo with
  | nil => rfl
  | cons e rest ih =>
    simp only [risesFrom, Bool.and_eq_true, decide_eq_true_eq] at h
    simp only [eraseCell]
    split
    · exact ih (risesFrom_mono (by omega) h.2)
    · simp [risesFrom, h.1, ih h.2]

theorem rising_of_risesFrom {lo : Nat} {l : List (Nat × BitVec w)} (h : risesFrom lo l = true) : rising l = true := by
  cases l with
  | nil => rfl
  | cons e rest => simp only [risesFrom, Bool.and_eq_true] at h; exact h.2

theorem rising_eraseCell (a : Nat) {l : List (Nat × BitVec w)} (h : rising l = true) :
    rising (eraseCell a l) = true := by
  cases l with
  | nil => rfl
  | cons e rest =>
    simp only [rising] at h
    simp only [eraseCell]
    split
    · exact rising_of_risesFrom (risesFrom_eraseCell a h)
    · exact risesFrom_eraseCell a h

theorem all_insertCell {p : Nat × BitVec w → Bool} {a : Nat} {v : BitVec w} {l : List (Nat × BitVec w)}
    (hv : p (a, v) = true) (h : l.all p = true) : (insertCell a v l).all p = true := by
  induction l with
  | nil => simp [insertCell, hv]
  | cons e rest ih =>
    simp only [List.all_cons, Bool.and_eq_true] at h
    simp only [insertCell]
    split
    · simp only [List.all_cons, Bool.and_eq_true]; exact ⟨hv, h.1, h.2⟩
    · split
      · simp only [List.all_cons, Bool.and_eq_true]; exact ⟨hv, h.2⟩
      · simp only [List.all_cons, Bool.and_eq_true]; exact ⟨h.1, ih h.2⟩

theorem all_eraseCell {p : Nat × BitVec w → Bool} (a : Nat) {l : List (Nat × BitVec w)}
    (h : l.all p = true) : (eraseCell a l).all p = true := by
  induction l with
  | nil => rfl
  | cons e rest ih =>
    simp only [List.all_cons, Bool.and_eq_true] at h
    simp only [eraseCell]
    split
    · exact ih h.2
    · simp only [List.all_cons, Bool.and_eq_true]; exact ⟨h.1, ih h.2⟩

/-- Every write keeps the canonical form. -/
theorem Memory.write_wf {m : Memory w} (h : m.wf = true) (a : Nat) (v : BitVec w) : (m.write a v).wf = true := by
  simp only [Memory.wf, Bool.and_eq_true] at h
  simp only [Memory.write]
  split
  · simp only [Memory.wf, Bool.and_eq_true]; exact ⟨rising_eraseCell a h.1, all_eraseCell a h.2⟩
  · simp only [Memory.wf, Bool.and_eq_true]
    exact ⟨rising_insertCell a v h.1, all_insertCell (by simp [*]) h.2⟩

/-- A write below `n` lists no address at or past `n`. -/
theorem Memory.write_within {m : Memory w} {n a : Nat} (h : m.within n = true) (ha : a < n) (v : BitVec w) :
    (m.write a v).within n = true := by
  simp only [Memory.within] at *
  simp only [Memory.write]
  split
  · exact all_eraseCell a h
  · exact all_insertCell (by simp [ha]) h

/-- An array that lists nothing is in canonical form. -/
@[simp] theorem Memory.wf_empty (f : Fill w) : (Memory.mk f []).wf = true := rfl

@[simp] theorem Memory.within_empty (f : Fill w) (n : Nat) : (Memory.mk f []).within n = true := rfl

@[simp] theorem Memory.read_empty (f : Fill w) (a : Nat) : (Memory.mk f []).read a = f.at a := rfl

@[simp] theorem Fill.at_const (v : BitVec w) (a : Nat) : (Fill.const v).at a = v := rfl

/-! ## Equal memories are equal data -/

theorem lookup_none_of_risesFrom {lo a : Nat} {l : List (Nat × BitVec w)} (h : risesFrom lo l = true)
    (ha : a ≤ lo) : lookup a l = none := by
  induction l generalizing lo with
  | nil => rfl
  | cons e rest ih =>
    simp only [risesFrom, Bool.and_eq_true, decide_eq_true_eq] at h
    have hne : a ≠ e.1 := by omega
    simp [lookup, hne, ih h.2 (by omega)]

theorem cells_eq_of_lookup {l l' : List (Nat × BitVec w)} (h : rising l = true) (h' : rising l' = true)
    (heq : ∀ a, lookup a l = lookup a l') : l = l' := by
  induction l generalizing l' with
  | nil =>
    cases l' with
    | nil => rfl
    | cons e rest => exact absurd (heq e.1) (by simp [lookup])
  | cons e rest ih =>
    cases l' with
    | nil => exact absurd (heq e.1) (by simp [lookup])
    | cons e' rest' =>
      obtain ⟨a, v⟩ := e
      obtain ⟨a', v'⟩ := e'
      simp only [rising] at h h'
      have hle : ¬ a < a' := fun hlt => by
        have := heq a
        rw [show lookup a ((a', v') :: rest') = none by
          simp [lookup, Nat.ne_of_lt hlt, lookup_none_of_risesFrom h' (Nat.le_of_lt hlt)]] at this
        simp [lookup] at this
      have hge : ¬ a' < a := fun hlt => by
        have := heq a'
        rw [show lookup a' ((a, v) :: rest) = none by
          simp [lookup, Nat.ne_of_lt hlt, lookup_none_of_risesFrom h (Nat.le_of_lt hlt)]] at this
        simp [lookup] at this
      have haa : a = a' := by omega
      subst haa
      have hv : v = v' := by simpa [lookup] using heq a
      subst hv
      have hrest : ∀ b, lookup b rest = lookup b rest' := fun b => by
        by_cases hb : b = a
        · subst hb
          rw [lookup_none_of_risesFrom h (Nat.le_refl _), lookup_none_of_risesFrom h' (Nat.le_refl _)]
        · simpa [lookup, hb] using heq b
      rw [ih (rising_of_risesFrom h) (rising_of_risesFrom h') hrest]

theorem hides_of_lookup {m : Memory w} (h : m.wf = true) {a : Nat} {v : BitVec w}
    (hl : lookup a m.cells = some v) : m.fill.hides v = false := by
  simp only [Memory.wf, Bool.and_eq_true, List.all_eq_true] at h
  have hmem : ∀ l : List (Nat × BitVec w), lookup a l = some v → (a, v) ∈ l := by
    intro l
    induction l with
    | nil => simp [lookup]
    | cons e rest ih =>
      simp only [lookup]
      split
      · intro he; simp_all [Prod.ext_iff]
      · intro he; exact List.mem_cons_of_mem _ (ih he)
  simpa using h.2 (a, v) (hmem _ hl)

/-- In canonical form, two arrays filled with one constant that read the same everywhere are the same data. -/
theorem Memory.eq_of_reads {m m' : Memory w} {c : BitVec w} (h : m.wf = true) (h' : m'.wf = true)
    (hf : m.fill = .const c) (hf' : m'.fill = .const c) (heq : ∀ a, m.read a = m'.read a) : m = m' := by
  have key : ∀ {p : Memory w}, p.wf = true → p.fill = .const c → ∀ a,
      lookup a p.cells = if p.read a = c then none else some (p.read a) := by
    intro p hp hfp a
    cases hl : lookup a p.cells with
    | none => simp [Memory.read, hl, hfp]
    | some v =>
      have hv := hides_of_lookup hp hl
      rw [hfp] at hv
      have hne : v ≠ c := by simpa [Fill.hides] using hv
      simp [Memory.read, hl, hne]
  have hw := h
  have hw' := h'
  simp only [Memory.wf, Bool.and_eq_true] at hw hw'
  have hc : m.cells = m'.cells :=
    cells_eq_of_lookup hw.1 hw'.1 (fun a => by rw [key h hf a, key h' hf' a, heq a])
  cases m; cases m'; simp_all

end Sys2Proof.Machine
end

