-- ==== Sys2Proof/Laws/State.lean ====
section
/-! SUPPORT. One lemma per field per named update of the state. -/

namespace Sys2Proof.Machine

/-! ## The responses to come -/

@[simp] theorem Later.next_silent : Later.silent.next = none := rfl
@[simp] theorem Later.next_always (r : Response) : (Later.always r).next = some r := rfl
@[simp] theorem Later.next_free (k : Nat) : (Later.free k).next = some (Config.freeResponse k) := rfl
@[simp] theorem Later.rest_silent : Later.silent.rest = .silent := rfl
@[simp] theorem Later.rest_always (r : Response) : (Later.always r).rest = .always r := rfl
@[simp] theorem Later.rest_free (k : Nat) : (Later.free k).rest = .free (k + 1) := rfl
@[simp] theorem Source.next_cons (r : Response) (rs : List Response) (l : Later) :
    (Source.mk (r :: rs) l).next = some r := rfl
@[simp] theorem Source.rest_cons (r : Response) (rs : List Response) (l : Later) :
    (Source.mk (r :: rs) l).rest = ⟨rs, l⟩ := rfl
@[simp] theorem Source.next_nil (l : Later) : (Source.mk [] l).next = l.next := rfl
@[simp] theorem Source.rest_nil (l : Later) : (Source.mk [] l).rest = ⟨[], l.rest⟩ := rfl

/-! ## The fields of a state -/

variable (s : State)

@[simp] theorem State.advance_cfg : (s.advance).cfg = s.cfg := rfl
@[simp] theorem State.advance_mode : (s.advance).mode = s.mode := rfl
@[simp] theorem State.advance_err : (s.advance).err = s.err := rfl
@[simp] theorem State.advance_ip : (s.advance).ip = s.ip + 1#15 := rfl
@[simp] theorem State.advance_dp : (s.advance).dp = s.dp := rfl
@[simp] theorem State.advance_len : (s.advance).len = s.len := rfl
@[simp] theorem State.advance_tape : (s.advance).tape = s.tape := rfl
@[simp] theorem State.advance_imem : (s.advance).imem = s.imem := rfl
@[simp] theorem State.advance_jt : (s.advance).jt = s.jt := rfl
@[simp] theorem State.advance_stack : (s.advance).stack = s.stack := rfl
@[simp] theorem State.advance_sp : (s.advance).sp = s.sp := rfl
@[simp] theorem State.advance_runOp : (s.advance).runOp = s.runOp := rfl
@[simp] theorem State.advance_runCnt : (s.advance).runCnt = s.runCnt := rfl
@[simp] theorem State.advance_agenda : (s.advance).agenda = s.agenda := rfl
@[simp] theorem State.advance_inputs : (s.advance).inputs = s.inputs := rfl
@[simp] theorem State.advance_outputs : (s.advance).outputs = s.outputs := rfl
@[simp] theorem State.advance_hostReads : (s.advance).hostReads = s.hostReads := rfl
@[simp] theorem State.advance_draws : (s.advance).draws = s.draws := rfl

@[simp] theorem State.enterFault_cfg (e : Err) : (s.enterFault e).cfg = s.cfg := rfl
@[simp] theorem State.enterFault_mode (e : Err) : (s.enterFault e).mode = .fault := rfl
@[simp] theorem State.enterFault_err (e : Err) : (s.enterFault e).err = e := rfl
@[simp] theorem State.enterFault_ip (e : Err) : (s.enterFault e).ip = s.ip := rfl
@[simp] theorem State.enterFault_dp (e : Err) : (s.enterFault e).dp = s.dp := rfl
@[simp] theorem State.enterFault_len (e : Err) : (s.enterFault e).len = if e.isCompile then 0#15 else s.len := rfl
@[simp] theorem State.enterFault_tape (e : Err) : (s.enterFault e).tape = s.tape := rfl
@[simp] theorem State.enterFault_imem (e : Err) : (s.enterFault e).imem = s.imem := rfl
@[simp] theorem State.enterFault_jt (e : Err) : (s.enterFault e).jt = s.jt := rfl
@[simp] theorem State.enterFault_stack (e : Err) : (s.enterFault e).stack = s.stack := rfl
@[simp] theorem State.enterFault_sp (e : Err) : (s.enterFault e).sp = s.sp := rfl
@[simp] theorem State.enterFault_runOp (e : Err) : (s.enterFault e).runOp = s.runOp := rfl
@[simp] theorem State.enterFault_runCnt (e : Err) : (s.enterFault e).runCnt = s.runCnt := rfl
@[simp] theorem State.enterFault_agenda (e : Err) : (s.enterFault e).agenda = s.agenda := rfl
@[simp] theorem State.enterFault_inputs (e : Err) : (s.enterFault e).inputs = s.inputs := rfl
@[simp] theorem State.enterFault_outputs (e : Err) : (s.enterFault e).outputs = s.outputs := rfl
@[simp] theorem State.enterFault_hostReads (e : Err) : (s.enterFault e).hostReads = s.hostReads := rfl
@[simp] theorem State.enterFault_draws (e : Err) : (s.enterFault e).draws = s.draws := rfl

@[simp] theorem State.leaveFault_cfg : (s.leaveFault).cfg = s.cfg := rfl
@[simp] theorem State.leaveFault_mode : (s.leaveFault).mode = .idle := rfl
@[simp] theorem State.leaveFault_err : (s.leaveFault).err = .none := rfl
@[simp] theorem State.leaveFault_ip : (s.leaveFault).ip = s.ip := rfl
@[simp] theorem State.leaveFault_dp : (s.leaveFault).dp = s.dp := rfl
@[simp] theorem State.leaveFault_len : (s.leaveFault).len = s.len := rfl
@[simp] theorem State.leaveFault_tape : (s.leaveFault).tape = s.tape := rfl
@[simp] theorem State.leaveFault_imem : (s.leaveFault).imem = s.imem := rfl
@[simp] theorem State.leaveFault_jt : (s.leaveFault).jt = s.jt := rfl
@[simp] theorem State.leaveFault_stack : (s.leaveFault).stack = s.stack := rfl
@[simp] theorem State.leaveFault_sp : (s.leaveFault).sp = s.sp := rfl
@[simp] theorem State.leaveFault_runOp : (s.leaveFault).runOp = s.runOp := rfl
@[simp] theorem State.leaveFault_runCnt : (s.leaveFault).runCnt = s.runCnt := rfl
@[simp] theorem State.leaveFault_agenda : (s.leaveFault).agenda = s.agenda := rfl
@[simp] theorem State.leaveFault_inputs : (s.leaveFault).inputs = s.inputs := rfl
@[simp] theorem State.leaveFault_outputs : (s.leaveFault).outputs = s.outputs := rfl
@[simp] theorem State.leaveFault_hostReads : (s.leaveFault).hostReads = s.hostReads := rfl
@[simp] theorem State.leaveFault_draws : (s.leaveFault).draws = s.draws := rfl

@[simp] theorem State.startRun_cfg : (s.startRun).cfg = s.cfg := rfl
@[simp] theorem State.startRun_mode : (s.startRun).mode = .running := rfl
@[simp] theorem State.startRun_err : (s.startRun).err = .none := rfl
@[simp] theorem State.startRun_ip : (s.startRun).ip = 0#15 := rfl
@[simp] theorem State.startRun_dp : (s.startRun).dp = 0#15 := rfl
@[simp] theorem State.startRun_len : (s.startRun).len = s.len := rfl
@[simp] theorem State.startRun_tape : (s.startRun).tape = ⟨.const 0#8, []⟩ := rfl
@[simp] theorem State.startRun_imem : (s.startRun).imem = s.imem := rfl
@[simp] theorem State.startRun_jt : (s.startRun).jt = s.jt := rfl
@[simp] theorem State.startRun_stack : (s.startRun).stack = s.stack := rfl
@[simp] theorem State.startRun_sp : (s.startRun).sp = s.sp := rfl
@[simp] theorem State.startRun_runOp : (s.startRun).runOp = s.runOp := rfl
@[simp] theorem State.startRun_runCnt : (s.startRun).runCnt = s.runCnt := rfl
@[simp] theorem State.startRun_agenda : (s.startRun).agenda = s.agenda := rfl
@[simp] theorem State.startRun_inputs : (s.startRun).inputs = s.inputs := rfl
@[simp] theorem State.startRun_outputs : (s.startRun).outputs = [] := rfl
@[simp] theorem State.startRun_hostReads : (s.startRun).hostReads = s.hostReads := rfl
@[simp] theorem State.startRun_draws : (s.startRun).draws = s.draws := rfl

@[simp] theorem State.applyReset_cfg : (s.applyReset).cfg = s.cfg := rfl
@[simp] theorem State.applyReset_mode : (s.applyReset).mode = .idle := rfl
@[simp] theorem State.applyReset_err : (s.applyReset).err = .none := rfl
@[simp] theorem State.applyReset_ip : (s.applyReset).ip = 0#15 := rfl
@[simp] theorem State.applyReset_dp : (s.applyReset).dp = 0#15 := rfl
@[simp] theorem State.applyReset_len : (s.applyReset).len = 0#15 := rfl
@[simp] theorem State.applyReset_tape : (s.applyReset).tape = ⟨.free s.draws, []⟩ := rfl
@[simp] theorem State.applyReset_imem : (s.applyReset).imem = ⟨.free (s.draws + 1), []⟩ := rfl
@[simp] theorem State.applyReset_jt : (s.applyReset).jt = ⟨.free (s.draws + 2), []⟩ := rfl
@[simp] theorem State.applyReset_stack : (s.applyReset).stack = ⟨.free (s.draws + 3), []⟩ := rfl
@[simp] theorem State.applyReset_sp : (s.applyReset).sp = 0#15 := rfl
@[simp] theorem State.applyReset_runOp : (s.applyReset).runOp = none := rfl
@[simp] theorem State.applyReset_runCnt : (s.applyReset).runCnt = 0#8 := rfl
@[simp] theorem State.applyReset_agenda : (s.applyReset).agenda = s.agenda := rfl
@[simp] theorem State.applyReset_inputs : (s.applyReset).inputs = undelivered s.mode s.inputs := rfl
@[simp] theorem State.applyReset_outputs : (s.applyReset).outputs = s.outputs := rfl
@[simp] theorem State.applyReset_hostReads : (s.applyReset).hostReads = s.hostReads := rfl
@[simp] theorem State.applyReset_draws : (s.applyReset).draws = s.draws + 4 := rfl

@[simp] theorem State.popTurn_cfg : (s.popTurn).cfg = s.cfg := rfl
@[simp] theorem State.popTurn_mode : (s.popTurn).mode = s.mode := rfl
@[simp] theorem State.popTurn_err : (s.popTurn).err = s.err := rfl
@[simp] theorem State.popTurn_ip : (s.popTurn).ip = s.ip := rfl
@[simp] theorem State.popTurn_dp : (s.popTurn).dp = s.dp := rfl
@[simp] theorem State.popTurn_len : (s.popTurn).len = s.len := rfl
@[simp] theorem State.popTurn_tape : (s.popTurn).tape = s.tape := rfl
@[simp] theorem State.popTurn_imem : (s.popTurn).imem = s.imem := rfl
@[simp] theorem State.popTurn_jt : (s.popTurn).jt = s.jt := rfl
@[simp] theorem State.popTurn_stack : (s.popTurn).stack = s.stack := rfl
@[simp] theorem State.popTurn_sp : (s.popTurn).sp = s.sp := rfl
@[simp] theorem State.popTurn_runOp : (s.popTurn).runOp = s.runOp := rfl
@[simp] theorem State.popTurn_runCnt : (s.popTurn).runCnt = s.runCnt := rfl
@[simp] theorem State.popTurn_agenda : (s.popTurn).agenda = s.agenda.tail := rfl
@[simp] theorem State.popTurn_inputs : (s.popTurn).inputs = s.inputs := rfl
@[simp] theorem State.popTurn_outputs : (s.popTurn).outputs = s.outputs := rfl
@[simp] theorem State.popTurn_hostReads : (s.popTurn).hostReads = s.hostReads := rfl
@[simp] theorem State.popTurn_draws : (s.popTurn).draws = s.draws := rfl

@[simp] theorem State.setDp_cfg (v : Int) : (s.setDp v).cfg = s.cfg := rfl
@[simp] theorem State.setDp_mode (v : Int) : (s.setDp v).mode = s.mode := rfl
@[simp] theorem State.setDp_err (v : Int) : (s.setDp v).err = s.err := rfl
@[simp] theorem State.setDp_ip (v : Int) : (s.setDp v).ip = s.ip := rfl
@[simp] theorem State.setDp_dp (v : Int) : (s.setDp v).dp = BitVec.ofNat 15 v.toNat := rfl
@[simp] theorem State.setDp_len (v : Int) : (s.setDp v).len = s.len := rfl
@[simp] theorem State.setDp_tape (v : Int) : (s.setDp v).tape = s.tape := rfl
@[simp] theorem State.setDp_imem (v : Int) : (s.setDp v).imem = s.imem := rfl
@[simp] theorem State.setDp_jt (v : Int) : (s.setDp v).jt = s.jt := rfl
@[simp] theorem State.setDp_stack (v : Int) : (s.setDp v).stack = s.stack := rfl
@[simp] theorem State.setDp_sp (v : Int) : (s.setDp v).sp = s.sp := rfl
@[simp] theorem State.setDp_runOp (v : Int) : (s.setDp v).runOp = s.runOp := rfl
@[simp] theorem State.setDp_runCnt (v : Int) : (s.setDp v).runCnt = s.runCnt := rfl
@[simp] theorem State.setDp_agenda (v : Int) : (s.setDp v).agenda = s.agenda := rfl
@[simp] theorem State.setDp_inputs (v : Int) : (s.setDp v).inputs = s.inputs := rfl
@[simp] theorem State.setDp_outputs (v : Int) : (s.setDp v).outputs = s.outputs := rfl
@[simp] theorem State.setDp_hostReads (v : Int) : (s.setDp v).hostReads = s.hostReads := rfl
@[simp] theorem State.setDp_draws (v : Int) : (s.setDp v).draws = s.draws := rfl

@[simp] theorem State.sendByte_cfg (b : Byte) : (s.sendByte b).cfg = s.cfg := rfl
@[simp] theorem State.sendByte_mode (b : Byte) : (s.sendByte b).mode = s.mode := rfl
@[simp] theorem State.sendByte_err (b : Byte) : (s.sendByte b).err = s.err := rfl
@[simp] theorem State.sendByte_ip (b : Byte) : (s.sendByte b).ip = s.ip := rfl
@[simp] theorem State.sendByte_dp (b : Byte) : (s.sendByte b).dp = s.dp := rfl
@[simp] theorem State.sendByte_len (b : Byte) : (s.sendByte b).len = s.len := rfl
@[simp] theorem State.sendByte_tape (b : Byte) : (s.sendByte b).tape = s.tape := rfl
@[simp] theorem State.sendByte_imem (b : Byte) : (s.sendByte b).imem = s.imem := rfl
@[simp] theorem State.sendByte_jt (b : Byte) : (s.sendByte b).jt = s.jt := rfl
@[simp] theorem State.sendByte_stack (b : Byte) : (s.sendByte b).stack = s.stack := rfl
@[simp] theorem State.sendByte_sp (b : Byte) : (s.sendByte b).sp = s.sp := rfl
@[simp] theorem State.sendByte_runOp (b : Byte) : (s.sendByte b).runOp = s.runOp := rfl
@[simp] theorem State.sendByte_runCnt (b : Byte) : (s.sendByte b).runCnt = s.runCnt := rfl
@[simp] theorem State.sendByte_agenda (b : Byte) : (s.sendByte b).agenda = s.agenda := rfl
@[simp] theorem State.sendByte_inputs (b : Byte) : (s.sendByte b).inputs = s.inputs := rfl
@[simp] theorem State.sendByte_outputs (b : Byte) : (s.sendByte b).outputs = s.outputs ++ [b] := rfl
@[simp] theorem State.sendByte_hostReads (b : Byte) : (s.sendByte b).hostReads = s.hostReads := rfl
@[simp] theorem State.sendByte_draws (b : Byte) : (s.sendByte b).draws = s.draws := rfl

@[simp] theorem State.resume_cfg : (s.resume).cfg = s.cfg := rfl
@[simp] theorem State.resume_mode : (s.resume).mode = .running := rfl
@[simp] theorem State.resume_err : (s.resume).err = s.err := rfl
@[simp] theorem State.resume_ip : (s.resume).ip = s.ip + 1#15 := rfl
@[simp] theorem State.resume_dp : (s.resume).dp = s.dp := rfl
@[simp] theorem State.resume_len : (s.resume).len = s.len := rfl
@[simp] theorem State.resume_tape : (s.resume).tape = s.tape := rfl
@[simp] theorem State.resume_imem : (s.resume).imem = s.imem := rfl
@[simp] theorem State.resume_jt : (s.resume).jt = s.jt := rfl
@[simp] theorem State.resume_stack : (s.resume).stack = s.stack := rfl
@[simp] theorem State.resume_sp : (s.resume).sp = s.sp := rfl
@[simp] theorem State.resume_runOp : (s.resume).runOp = s.runOp := rfl
@[simp] theorem State.resume_runCnt : (s.resume).runCnt = s.runCnt := rfl
@[simp] theorem State.resume_agenda : (s.resume).agenda = s.agenda := rfl
@[simp] theorem State.resume_inputs : (s.resume).inputs = s.inputs := rfl
@[simp] theorem State.resume_outputs : (s.resume).outputs = s.outputs := rfl
@[simp] theorem State.resume_hostReads : (s.resume).hostReads = s.hostReads := rfl
@[simp] theorem State.resume_draws : (s.resume).draws = s.draws := rfl

@[simp] theorem State.startEncode_cfg : (s.startEncode).cfg = s.cfg := rfl
@[simp] theorem State.startEncode_mode : (s.startEncode).mode = .encoding := rfl
@[simp] theorem State.startEncode_err : (s.startEncode).err = .none := rfl
@[simp] theorem State.startEncode_ip : (s.startEncode).ip = s.ip := rfl
@[simp] theorem State.startEncode_dp : (s.startEncode).dp = s.dp := rfl
@[simp] theorem State.startEncode_len : (s.startEncode).len = 0#15 := rfl
@[simp] theorem State.startEncode_tape : (s.startEncode).tape = s.tape := rfl
@[simp] theorem State.startEncode_imem : (s.startEncode).imem = s.imem := rfl
@[simp] theorem State.startEncode_jt : (s.startEncode).jt = s.jt := rfl
@[simp] theorem State.startEncode_stack : (s.startEncode).stack = s.stack := rfl
@[simp] theorem State.startEncode_sp : (s.startEncode).sp = 0#15 := rfl
@[simp] theorem State.startEncode_runOp : (s.startEncode).runOp = none := rfl
@[simp] theorem State.startEncode_runCnt : (s.startEncode).runCnt = 0#8 := rfl
@[simp] theorem State.startEncode_agenda : (s.startEncode).agenda = s.agenda := rfl
@[simp] theorem State.startEncode_inputs : (s.startEncode).inputs = s.inputs := rfl
@[simp] theorem State.startEncode_outputs : (s.startEncode).outputs = s.outputs := rfl
@[simp] theorem State.startEncode_hostReads : (s.startEncode).hostReads = s.hostReads := rfl
@[simp] theorem State.startEncode_draws : (s.startEncode).draws = s.draws := rfl

@[simp] theorem State.record_cfg (v : HostWord) : (s.record v).cfg = s.cfg := rfl
@[simp] theorem State.record_mode (v : HostWord) : (s.record v).mode = s.mode := rfl
@[simp] theorem State.record_err (v : HostWord) : (s.record v).err = s.err := rfl
@[simp] theorem State.record_ip (v : HostWord) : (s.record v).ip = s.ip := rfl
@[simp] theorem State.record_dp (v : HostWord) : (s.record v).dp = s.dp := rfl
@[simp] theorem State.record_len (v : HostWord) : (s.record v).len = s.len := rfl
@[simp] theorem State.record_tape (v : HostWord) : (s.record v).tape = s.tape := rfl
@[simp] theorem State.record_imem (v : HostWord) : (s.record v).imem = s.imem := rfl
@[simp] theorem State.record_jt (v : HostWord) : (s.record v).jt = s.jt := rfl
@[simp] theorem State.record_stack (v : HostWord) : (s.record v).stack = s.stack := rfl
@[simp] theorem State.record_sp (v : HostWord) : (s.record v).sp = s.sp := rfl
@[simp] theorem State.record_runOp (v : HostWord) : (s.record v).runOp = s.runOp := rfl
@[simp] theorem State.record_runCnt (v : HostWord) : (s.record v).runCnt = s.runCnt := rfl
@[simp] theorem State.record_agenda (v : HostWord) : (s.record v).agenda = s.agenda := rfl
@[simp] theorem State.record_inputs (v : HostWord) : (s.record v).inputs = s.inputs := rfl
@[simp] theorem State.record_outputs (v : HostWord) : (s.record v).outputs = s.outputs := rfl
@[simp] theorem State.record_hostReads (v : HostWord) : (s.record v).hostReads = s.hostReads ++ [v] := rfl
@[simp] theorem State.record_draws (v : HostWord) : (s.record v).draws = s.draws := rfl

end Sys2Proof.Machine
end

