-- ==== Sys2Proof/Laws/Ops.lean ====
section
/-! SUPPORT. What each shared operation can answer, said once. -/

namespace Sys2Proof.Machine

/-! ## Sequencing -/

section
variable {α β : Type}

@[simp] theorem Eff.bind_ok (a : α) (f : α → Eff β) : (Eff.ok a).bind f = f a := rfl

@[simp] theorem Eff.bind_raise (e : Err) (f : α → Eff β) : (Eff.raise e).bind f = .raise e := rfl

@[simp] theorem Eff.bind_stop (g : Fault) (f : α → Eff β) : (Eff.stop g).bind f = .stop g := rfl

theorem Eff.bind_eq_ok {x : Eff α} {f : α → Eff β} {b : β} :
    x.bind f = .ok b ↔ ∃ a, x = .ok a ∧ f a = .ok b := by
  cases x <;> simp

theorem Eff.bind_eq_raise {x : Eff α} {f : α → Eff β} {e : Err} :
    x.bind f = .raise e ↔ x = .raise e ∨ ∃ a, x = .ok a ∧ f a = .raise e := by
  cases x <;> simp

theorem Eff.bind_eq_stop {x : Eff α} {f : α → Eff β} {g : Fault} :
    x.bind f = .stop g ↔ x = .stop g ∨ ∃ a, x = .ok a ∧ f a = .stop g := by
  cases x <;> simp

end

/-! ## The end of a step -/

@[simp] theorem settle_ok (s t : State) : settle s (.ok t) = .next t := rfl

@[simp] theorem settle_raise (s : State) (e : Err) : settle s (.raise e) = .next (s.enterFault e) := rfl

@[simp] theorem settle_stop (s : State) (g : Fault) : settle s (.stop g) = .fault g := rfl

theorem settle_eq_next {s t : State} {x : Eff State} :
    settle s x = .next t ↔ x = .ok t ∨ ∃ e, x = .raise e ∧ t = s.enterFault e := by
  cases x <;> simp [eq_comm]

theorem settle_eq_fault {s : State} {x : Eff State} {g : Fault} : settle s x = .fault g ↔ x = .stop g := by
  cases x <;> simp

theorem settle_ne_refused {s : State} {x : Eff State} {r : Refusal} : settle s x ≠ .refused r := by
  cases x <;> simp

/-! ## Checked accesses: inside the array they answer, outside the model stops -/

section
variable {s t : State} {a : Nat}

theorem readTape_of_lt (h : a < s.cfg.heapSize) : readTape s a = .ok (s.tape.read a) := if_pos h

theorem writeTape_of_lt (h : a < s.cfg.heapSize) (v : Byte) :
    writeTape s a v = .ok { s with tape := s.tape.write a v } := if_pos h

theorem readImem_of_lt (h : a < s.cfg.heapSize) : readImem s a = .ok (s.imem.read a) := if_pos h

theorem writeImem_of_lt (h : a < s.cfg.heapSize) (w : IWord) :
    writeImem s a w = .ok { s with imem := s.imem.write a w } := if_pos h

theorem readJt_of_lt (h : a < s.cfg.heapSize) : readJt s a = .ok (s.jtEntry a) := if_pos h

theorem writeJt_of_lt (h : a < s.cfg.heapSize) (v : Slot) :
    writeJt s a v = .ok { s with jt := s.jt.write a v } := if_pos h

theorem readStack_of_lt (h : a < s.cfg.stackSize) : readStack s a = .ok (s.stack.read a) := if_pos h

theorem writeStack_of_lt (h : a < s.cfg.stackSize) (v : Slot) :
    writeStack s a v = .ok { s with stack := s.stack.write a v } := if_pos h

theorem readTape_eq_ok {v : Byte} : readTape s a = .ok v ↔ a < s.cfg.heapSize ∧ s.tape.read a = v := by
  simp only [readTape]; split <;> simp [*]

theorem writeTape_eq_ok {v : Byte} :
    writeTape s a v = .ok t ↔ a < s.cfg.heapSize ∧ t = { s with tape := s.tape.write a v } := by
  simp only [writeTape]; split <;> simp [*, eq_comm]

theorem readImem_eq_ok {w : IWord} : readImem s a = .ok w ↔ a < s.cfg.heapSize ∧ s.imem.read a = w := by
  simp only [readImem]; split <;> simp [*]

theorem writeImem_eq_ok {w : IWord} :
    writeImem s a w = .ok t ↔ a < s.cfg.heapSize ∧ t = { s with imem := s.imem.write a w } := by
  simp only [writeImem]; split <;> simp [*, eq_comm]

theorem readJt_eq_ok {v : Slot} : readJt s a = .ok v ↔ a < s.cfg.heapSize ∧ s.jtEntry a = v := by
  simp only [readJt]; split <;> simp [*]

theorem writeJt_eq_ok {v : Slot} :
    writeJt s a v = .ok t ↔ a < s.cfg.heapSize ∧ t = { s with jt := s.jt.write a v } := by
  simp only [writeJt]; split <;> simp [*, eq_comm]

theorem readStack_eq_ok {v : Slot} : readStack s a = .ok v ↔ a < s.cfg.stackSize ∧ s.stack.read a = v := by
  simp only [readStack]; split <;> simp [*]

theorem writeStack_eq_ok {v : Slot} :
    writeStack s a v = .ok t ↔ a < s.cfg.stackSize ∧ t = { s with stack := s.stack.write a v } := by
  simp only [writeStack]; split <;> simp [*, eq_comm]

@[simp] theorem readTape_ne_raise {e : Err} : readTape s a ≠ .raise e := by simp only [readTape]; split <;> simp

@[simp] theorem writeTape_ne_raise {v : Byte} {e : Err} : writeTape s a v ≠ .raise e := by
  simp only [writeTape]; split <;> simp

@[simp] theorem readImem_ne_raise {e : Err} : readImem s a ≠ .raise e := by simp only [readImem]; split <;> simp

@[simp] theorem writeImem_ne_raise {w : IWord} {e : Err} : writeImem s a w ≠ .raise e := by
  simp only [writeImem]; split <;> simp

@[simp] theorem readJt_ne_raise {e : Err} : readJt s a ≠ .raise e := by simp only [readJt]; split <;> simp

@[simp] theorem writeJt_ne_raise {v : Slot} {e : Err} : writeJt s a v ≠ .raise e := by
  simp only [writeJt]; split <;> simp

@[simp] theorem readStack_ne_raise {e : Err} : readStack s a ≠ .raise e := by simp only [readStack]; split <;> simp

@[simp] theorem writeStack_ne_raise {v : Slot} {e : Err} : writeStack s a v ≠ .raise e := by
  simp only [writeStack]; split <;> simp

end

/-! ## Widths -/

/-- An index up to `HEAPSIZE` fits in `IW` bits (00_scope.md R9), so cutting it to them changes nothing. -/
theorem toIndex_of_le {c : Config} (hc : c.legal) {v : Nat} (h : v ≤ c.heapSize) : (toIndex c v).toNat = v := by
  have h1 : c.heapSize < 2 ^ c.iw := Nat.lt_log2_self
  obtain ⟨_, h2, _⟩ := hc
  simp only [toIndex, BitVec.toNat_ofNat]
  rw [Nat.mod_eq_of_lt (show v < 2 ^ c.iw by omega), Nat.mod_eq_of_lt (by omega)]

theorem toNat_succ {x : Slot} (h : x.toNat < 32767) : (x + 1#15).toNat = x.toNat + 1 := by
  simp [BitVec.toNat_add]; omega

theorem toNat_pred {x : Slot} (h : x ≠ 0#15) : (x - 1#15).toNat = x.toNat - 1 := by
  have : x.toNat ≠ 0 := fun h0 => h (BitVec.eq_of_toNat_eq (by simpa using h0))
  have := x.isLt
  simp [BitVec.toNat_sub]; omega

/-! ## Taking an error twice changes nothing more -/

theorem enterFault_jtEntry (s : State) (e : Err) (i : Nat) : (s.enterFault e).jtEntry i = s.jtEntry i := rfl

end Sys2Proof.Machine
end

