-- ==== Sys2Proof/Laws/Encoder.lean ====
section
/-! SUPPORT. What each operation of the encoder can answer: the value it gives, the error it raises, and that it
stops in no state whose registers are in range. -/

namespace Sys2Proof.Machine

variable {s t : State} {e : Err} {g : Fault}

/-! ## `emit` -/

theorem emit_of_lt (i : Instr) (h : s.len.toNat < s.cfg.heapSize) :
    emit i s = .ok { s with imem := s.imem.write s.len.toNat (encode i), len := s.len + 1#15 } := by
  simp [emit, writeImem_of_lt h, Nat.ne_of_lt h]

theorem emit_of_eq (i : Instr) (h : s.len.toNat = s.cfg.heapSize) : emit i s = .raise .sourceTooLarge := if_pos h

theorem emit_eq_ok {i : Instr} : emit i s = .ok t ↔ s.len.toNat < s.cfg.heapSize ∧
    t = { s with imem := s.imem.write s.len.toNat (encode i), len := s.len + 1#15 } := by
  rcases Nat.lt_trichotomy s.len.toNat s.cfg.heapSize with h | h | h
  · simp [emit_of_lt i h, h, eq_comm]
  · simp [emit_of_eq i h, h]
  · simp [emit, writeImem, Nat.ne_of_gt h, Nat.not_lt.mpr (Nat.le_of_lt h)]

theorem emit_eq_raise {i : Instr} : emit i s = .raise e ↔ s.len.toNat = s.cfg.heapSize ∧ e = .sourceTooLarge := by
  rcases Nat.lt_trichotomy s.len.toNat s.cfg.heapSize with h | h | h
  · simp [emit_of_lt i h, Nat.ne_of_lt h]
  · simp [emit_of_eq i h, h, eq_comm]
  · simp [emit, writeImem, Nat.ne_of_gt h, Nat.not_lt.mpr (Nat.le_of_lt h)]

theorem emit_ne_stop {i : Instr} (h : s.len.toNat ≤ s.cfg.heapSize) : emit i s ≠ .stop g := by
  rcases Nat.lt_or_eq_of_le h with h | h
  · simp [emit_of_lt i h]
  · simp [emit_of_eq i h]

/-! ## `Flush` -/

theorem flush_of_none (h : s.runOp = none) : flush s = .ok s := by simp [flush, h]

theorem flush_of_some {op : FoldOp} (h : s.runOp = some op) (hl : s.len.toNat < s.cfg.heapSize) :
    flush s = .ok { s with
      imem := s.imem.write s.len.toNat (encode (op.instr s.runCnt)), len := s.len + 1#15, runOp := none, runCnt := 0#8 } := by
  simp [flush, h, emit_of_lt _ hl]

theorem flush_eq_ok : flush s = .ok t ↔ (s.runOp = none ∧ t = s) ∨
    ∃ op, s.runOp = some op ∧ s.len.toNat < s.cfg.heapSize ∧ t = { s with
      imem := s.imem.write s.len.toNat (encode (op.instr s.runCnt)), len := s.len + 1#15, runOp := none, runCnt := 0#8 } := by
  cases hr : s.runOp with
  | none => simp [flush_of_none hr, eq_comm]
  | some op =>
    simp only [flush, hr, Eff.bind_eq_ok, emit_eq_ok, Eff.ok.injEq]
    constructor
    · rintro ⟨_, ⟨hl, rfl⟩, rfl⟩; exact .inr ⟨op, rfl, hl, rfl⟩
    · rintro (⟨h, _⟩ | ⟨op', h, hl, rfl⟩)
      · cases h
      · cases h; exact ⟨_, ⟨hl, rfl⟩, rfl⟩

theorem flush_eq_raise : flush s = .raise e ↔
    s.runOp.isSome = true ∧ s.len.toNat = s.cfg.heapSize ∧ e = .sourceTooLarge := by
  cases hr : s.runOp with
  | none => simp [flush_of_none hr]
  | some op => simp [flush, hr, Eff.bind_eq_raise, emit_eq_raise]

theorem flush_ne_stop (h : s.len.toNat ≤ s.cfg.heapSize) : flush s ≠ .stop g := by
  cases hr : s.runOp with
  | none => simp [flush_of_none hr]
  | some op => simp [flush, hr, Eff.bind_eq_stop, emit_ne_stop h]

/-! ## `Open` and `Close` -/

theorem openBracket_of_lt (hs : s.sp.toNat < s.cfg.stackSize) (hl : s.len.toNat < s.cfg.heapSize) :
    openBracket s = .ok { s with
      stack := s.stack.write s.sp.toNat s.len, sp := s.sp + 1#15,
      imem := s.imem.write s.len.toNat (encode .loopStart), len := s.len + 1#15 } := by
  simp [openBracket, Nat.ne_of_lt hs, Nat.ne_of_lt hl, writeStack_of_lt hs, emit_of_lt (s := { s with
    stack := s.stack.write s.sp.toNat s.len, sp := s.sp + 1#15 }) _ hl]

theorem openBracket_eq_ok : openBracket s = .ok t ↔
    s.sp.toNat < s.cfg.stackSize ∧ s.len.toNat < s.cfg.heapSize ∧ t = { s with
      stack := s.stack.write s.sp.toNat s.len, sp := s.sp + 1#15,
      imem := s.imem.write s.len.toNat (encode .loopStart), len := s.len + 1#15 } := by
  constructor
  · intro h
    simp only [openBracket] at h
    split at h
    · cases h
    · split at h
      · cases h
      · simp only [Eff.bind_eq_ok, writeStack_eq_ok, emit_eq_ok] at h
        obtain ⟨_, ⟨hs, rfl⟩, hl, rfl⟩ := h
        exact ⟨hs, hl, rfl⟩
  · rintro ⟨hs, hl, rfl⟩; exact openBracket_of_lt hs hl

theorem openBracket_eq_raise : openBracket s = .raise e ↔ (s.sp.toNat = s.cfg.stackSize ∨
    s.len.toNat = s.cfg.heapSize) ∧ e = .sourceTooLarge := by
  simp only [openBracket]
  split
  · simp [*, eq_comm]
  · split
    · simp [*, eq_comm]
    · simp only [Eff.bind_eq_raise, writeStack_ne_raise, writeStack_eq_ok, emit_eq_raise, false_or]
      constructor
      · rintro ⟨_, ⟨_, rfl⟩, hl, rfl⟩; exact ⟨.inr hl, rfl⟩
      · rintro ⟨h | h, _⟩ <;> contradiction

theorem openBracket_ne_stop (hs : s.sp.toNat ≤ s.cfg.stackSize) (hl : s.len.toNat ≤ s.cfg.heapSize) :
    openBracket s ≠ .stop g := by
  rcases Nat.lt_or_eq_of_le hs with hs | hs
  · rcases Nat.lt_or_eq_of_le hl with hl | hl
    · simp [openBracket_of_lt hs hl]
    · simp [openBracket, Nat.ne_of_lt hs, hl]
  · simp [openBracket, hs]

theorem closePair_of_lt {o : Slot} (ho : o.toNat < s.cfg.heapSize) (hl : s.len.toNat < s.cfg.heapSize) :
    closePair o s = .ok { s with
      jt := (s.jt.write o.toNat s.len).write s.len.toNat o,
      imem := s.imem.write s.len.toNat (encode .loopEnd), len := s.len + 1#15 } := by
  simp [closePair, writeJt_of_lt ho, writeJt_of_lt (s := { s with jt := s.jt.write o.toNat s.len }) hl,
    emit_of_lt (s := { s with jt := (s.jt.write o.toNat s.len).write s.len.toNat o }) _ hl]

theorem closePair_eq_ok {o : Slot} : closePair o s = .ok t ↔
    o.toNat < s.cfg.heapSize ∧ s.len.toNat < s.cfg.heapSize ∧ t = { s with
      jt := (s.jt.write o.toNat s.len).write s.len.toNat o,
      imem := s.imem.write s.len.toNat (encode .loopEnd), len := s.len + 1#15 } := by
  constructor
  · intro h
    simp only [closePair, Eff.bind_eq_ok, writeJt_eq_ok, emit_eq_ok] at h
    obtain ⟨_, ⟨ho, rfl⟩, _, ⟨hl, rfl⟩, _, rfl⟩ := h
    exact ⟨ho, hl, rfl⟩
  · rintro ⟨ho, hl, rfl⟩; exact closePair_of_lt ho hl

theorem closePair_eq_raise {o : Slot} (h : closePair o s = .raise e) : s.len.toNat = s.cfg.heapSize := by
  simp only [closePair, Eff.bind_eq_raise, writeJt_ne_raise, writeJt_eq_ok, emit_eq_raise, false_or] at h
  obtain ⟨_, ⟨_, rfl⟩, _, ⟨_, rfl⟩, hl, _⟩ := h
  exact hl

theorem closeBracket_eq_ok : closeBracket s = .ok t ↔
    s.sp ≠ 0#15 ∧ (s.sp - 1#15).toNat < s.cfg.stackSize ∧ s.len.toNat < s.cfg.heapSize ∧
    (s.stack.read (s.sp - 1#15).toNat).toNat < s.cfg.heapSize ∧ t = { s with
      sp := s.sp - 1#15,
      jt := (s.jt.write (s.stack.read (s.sp - 1#15).toNat).toNat s.len).write s.len.toNat
        (s.stack.read (s.sp - 1#15).toNat),
      imem := s.imem.write s.len.toNat (encode .loopEnd), len := s.len + 1#15 } := by
  simp only [closeBracket]
  split
  · simp [*]
  · split
    · simp [*]
    · simp only [Eff.bind_eq_ok, readStack_eq_ok, closePair_eq_ok]
      constructor
      · rintro ⟨_, ⟨hs, rfl⟩, ho, hl, rfl⟩; exact ⟨‹_›, hs, hl, ho, rfl⟩
      · rintro ⟨_, hs, hl, ho, rfl⟩; exact ⟨_, ⟨hs, rfl⟩, ho, hl, rfl⟩

theorem closeBracket_eq_raise : closeBracket s = .raise e ↔
    (s.sp = 0#15 ∧ e = .unmatchedCloseBracket) ∨
    (s.sp ≠ 0#15 ∧ s.len.toNat = s.cfg.heapSize ∧ e = .sourceTooLarge) := by
  simp only [closeBracket]
  split
  · simp [*, eq_comm]
  · split
    · simp [*, eq_comm]
    · simp only [Eff.bind_eq_raise, readStack_ne_raise, readStack_eq_ok, false_or]
      constructor
      · rintro ⟨_, ⟨_, rfl⟩, h⟩; exact absurd (closePair_eq_raise h) ‹_›
      · rintro (⟨h, _⟩ | ⟨_, h, _⟩) <;> contradiction

theorem closeBracket_ne_stop (hs : s.sp.toNat ≤ s.cfg.stackSize) (hl : s.len.toNat ≤ s.cfg.heapSize)
    (ho : ∀ k, k < s.sp.toNat → (s.stack.read k).toNat < s.cfg.heapSize) : closeBracket s ≠ .stop g := by
  by_cases h0 : s.sp = 0#15
  · simp [closeBracket, h0]
  · rcases Nat.lt_or_eq_of_le hl with hl | hl
    · have hp := toNat_pred h0
      have hpos : s.sp.toNat ≠ 0 := fun h => h0 (BitVec.eq_of_toNat_eq (by simpa using h))
      rw [show closeBracket s = .ok _ from closeBracket_eq_ok.mpr
        ⟨h0, by omega, hl, ho _ (by omega), rfl⟩]
      simp
    · simp [closeBracket, h0, hl]

/-! ## One source byte, and the end of the source -/

theorem encodeByte_of_continues {c : Byte} (h : continuesRun c s = true) :
    encodeByte c s = .ok { s with runCnt := s.runCnt + 1#8 } := if_pos h

/-- A byte that does not continue the run ends it first. -/
theorem encodeByte_of_not_continues {c : Byte} (h : continuesRun c s = false) :
    encodeByte c s = (flush s).bind (afterRun c) := by
  simp [encodeByte, h]

theorem afterRun_of_fold {c : Byte} {op : FoldOp} (h : foldOp c = some op) :
    afterRun c s = .ok { s with runOp := some op, runCnt := 1#8 } := by simp [afterRun, h]

theorem afterRun_of_none {c : Byte} (h : foldOp c = none) : afterRun c s = encodeSingle c s := by simp [afterRun, h]

theorem continuesRun_iff {c : Byte} : continuesRun c s = true ↔
    ∃ op, s.runOp = some op ∧ foldOp c = some op ∧ s.runCnt.toNat < 255 := by
  cases hr : s.runOp <;> simp [continuesRun, hr]

/-- What a byte that is no fold character does, by its class (30_encoding.md R80, R81). -/
theorem encodeSingle_cases (c : Byte) (s : State) :
    (c = 0x2E#8 ∧ encodeSingle c s = emit .output s) ∨ (c = 0x2C#8 ∧ encodeSingle c s = emit .input s) ∨
    (c = 0x5B#8 ∧ encodeSingle c s = openBracket s) ∨ (c = 0x5D#8 ∧ encodeSingle c s = closeBracket s) ∨
    (c ≠ 0x2E#8 ∧ c ≠ 0x2C#8 ∧ c ≠ 0x5B#8 ∧ c ≠ 0x5D#8 ∧ encodeSingle c s = .ok s) := by
  simp only [encodeSingle]
  by_cases h1 : c = 0x2E#8
  · simp [h1]
  by_cases h2 : c = 0x2C#8
  · simp [h2]
  by_cases h3 : c = 0x5B#8
  · simp [h3]
  by_cases h4 : c = 0x5D#8
  · simp [h4]
  simp [h1, h2, h3, h4]

theorem encodeEnd_eq_ok : encodeEnd s = .ok t ↔ ∃ u, flush s = .ok u ∧ u.sp = 0#15 ∧ t = { u with mode := .idle } := by
  simp only [encodeEnd, Eff.bind_eq_ok]
  constructor
  · rintro ⟨u, hu, h⟩
    split at h
    · exact ⟨u, hu, ‹_›, by simpa [eq_comm] using h⟩
    · cases h
  · rintro ⟨u, hu, h0, rfl⟩; exact ⟨u, hu, by simp [h0]⟩

/-- What every successful step of the encoder leaves alone (40_encoder.md R109). -/
structure EncoderFrame (s t : State) : Prop where
  cfg : t.cfg = s.cfg
  err : t.err = s.err
  ip : t.ip = s.ip
  dp : t.dp = s.dp
  tape : t.tape = s.tape
  agenda : t.agenda = s.agenda
  inputs : t.inputs = s.inputs
  outputs : t.outputs = s.outputs
  hostReads : t.hostReads = s.hostReads
  draws : t.draws = s.draws

theorem EncoderFrame.refl (s : State) : EncoderFrame s s := by constructor <;> rfl

theorem EncoderFrame.trans {a b c : State} (h : EncoderFrame a b) (h' : EncoderFrame b c) : EncoderFrame a c where
  cfg := h'.cfg.trans h.cfg
  err := h'.err.trans h.err
  ip := h'.ip.trans h.ip
  dp := h'.dp.trans h.dp
  tape := h'.tape.trans h.tape
  agenda := h'.agenda.trans h.agenda
  inputs := h'.inputs.trans h.inputs
  outputs := h'.outputs.trans h.outputs
  hostReads := h'.hostReads.trans h.hostReads
  draws := h'.draws.trans h.draws

theorem emit_frame {i : Instr} (h : emit i s = .ok t) : EncoderFrame s t ∧ t.mode = s.mode ∧ t.jt = s.jt := by
  obtain ⟨-, rfl⟩ := emit_eq_ok.mp h
  exact ⟨by constructor <;> rfl, rfl, rfl⟩

theorem flush_frame (h : flush s = .ok t) : EncoderFrame s t ∧ t.mode = s.mode ∧ t.jt = s.jt := by
  rcases flush_eq_ok.mp h with ⟨-, rfl⟩ | ⟨op, -, -, rfl⟩
  · exact ⟨.refl _, rfl, rfl⟩
  · exact ⟨by constructor <;> rfl, rfl, rfl⟩

theorem encodeSingle_frame {c : Byte} (h : encodeSingle c s = .ok t) :
    EncoderFrame s t ∧ t.mode = s.mode ∧ (c ≠ 0x5D#8 → t.jt = s.jt) := by
  rcases encodeSingle_cases c s with ⟨-, h'⟩ | ⟨-, h'⟩ | ⟨-, h'⟩ | ⟨hc, h'⟩ | ⟨-, -, -, -, h'⟩ <;> rw [h'] at h
  · exact ⟨(emit_frame h).1, (emit_frame h).2.1, fun _ => (emit_frame h).2.2⟩
  · exact ⟨(emit_frame h).1, (emit_frame h).2.1, fun _ => (emit_frame h).2.2⟩
  · obtain ⟨-, -, rfl⟩ := openBracket_eq_ok.mp h
    exact ⟨by constructor <;> rfl, rfl, fun _ => rfl⟩
  · obtain ⟨-, -, -, -, rfl⟩ := closeBracket_eq_ok.mp h
    exact ⟨by constructor <;> rfl, rfl, fun hne => absurd hc hne⟩
  · cases h; exact ⟨.refl _, rfl, fun _ => rfl⟩

theorem encodeByte_frame {c : Byte} (h : encodeByte c s = .ok t) :
    EncoderFrame s t ∧ t.mode = s.mode ∧ (c ≠ 0x5D#8 → t.jt = s.jt) := by
  cases hc : continuesRun c s with
  | true =>
    rw [encodeByte_of_continues hc] at h
    cases h
    exact ⟨by constructor <;> rfl, rfl, fun _ => rfl⟩
  | false =>
    rw [encodeByte_of_not_continues hc, Eff.bind_eq_ok] at h
    obtain ⟨u, hu, h⟩ := h
    obtain ⟨f1, f2, f3⟩ := flush_frame hu
    cases hf : foldOp c with
    | some op =>
      rw [afterRun_of_fold hf] at h
      cases h
      exact ⟨f1.trans (by constructor <;> rfl), f2, fun _ => f3⟩
    | none =>
      rw [afterRun_of_none hf] at h
      obtain ⟨g1, g2, g3⟩ := encodeSingle_frame h
      exact ⟨f1.trans g1, g2.trans f2, fun hne => (g3 hne).trans f3⟩

theorem encodeEnd_frame (h : encodeEnd s = .ok t) : EncoderFrame s t ∧ t.mode = .idle ∧ t.jt = s.jt := by
  obtain ⟨u, hu, -, rfl⟩ := encodeEnd_eq_ok.mp h
  obtain ⟨f1, -, f3⟩ := flush_frame hu
  exact ⟨f1.trans (by constructor <;> rfl), rfl, f3⟩

/-- The encoder raises CompileErrors only (60_exceptions.md R190). -/
theorem encodeSingle_raise {c : Byte} (h : encodeSingle c s = .raise e) : e.isCompile = true := by
  rcases encodeSingle_cases c s with ⟨-, h'⟩ | ⟨-, h'⟩ | ⟨-, h'⟩ | ⟨-, h'⟩ | ⟨-, -, -, -, h'⟩ <;> rw [h'] at h
  · rw [(emit_eq_raise.mp h).2]; rfl
  · rw [(emit_eq_raise.mp h).2]; rfl
  · rw [(openBracket_eq_raise.mp h).2]; rfl
  · rcases closeBracket_eq_raise.mp h with ⟨-, rfl⟩ | ⟨-, -, rfl⟩ <;> rfl
  · cases h

theorem encodeByte_raise {c : Byte} (h : encodeByte c s = .raise e) : e.isCompile = true := by
  cases hc : continuesRun c s with
  | true => rw [encodeByte_of_continues hc] at h; cases h
  | false =>
    rw [encodeByte_of_not_continues hc, Eff.bind_eq_raise] at h
    rcases h with h | ⟨u, -, h⟩
    · rw [(flush_eq_raise.mp h).2.2]; rfl
    · cases hf : foldOp c with
      | some op => rw [afterRun_of_fold hf] at h; cases h
      | none => rw [afterRun_of_none hf] at h; exact encodeSingle_raise h

theorem encodeEnd_raise (h : encodeEnd s = .raise e) : e.isCompile = true := by
  rw [encodeEnd, Eff.bind_eq_raise] at h
  rcases h with h | ⟨u, -, h⟩
  · rw [(flush_eq_raise.mp h).2.2]; rfl
  · split at h
    · cases h
    · cases h; rfl

end Sys2Proof.Machine
end

