-- ==== Sys2Proof/Laws/Exec.lean ====
section
/-! SUPPORT. Everything each instruction can answer with a next state: one inversion lemma per meaning, and one
for all of `exec`. -/

namespace Sys2Proof.Machine

variable {s t : State}

theorem execNop_next (h : execNop s = .next t) : t = s.advance := by
  simpa [execNop, eq_comm] using h

theorem execMoveLeft_next {n : BitVec 8} (h : execMoveLeft n s = .next t) :
    (s.dp.toNat < n.toNat ∧ t = s.enterFault .pointerOutOfBounds) ∨
    (n.toNat ≤ s.dp.toNat ∧ t = { s with dp := BitVec.ofNat 15 (s.dp.toNat - n.toNat), ip := s.ip + 1#15 }) := by
  have hc : count n = n.toNat := rfl
  simp only [execMoveLeft] at h
  split at h
  · exact .inl ⟨by omega, by simpa [eq_comm] using h⟩
  · refine .inr ⟨by omega, ?_⟩
    rw [settle_ok, Host.Outcome.next.injEq] at h
    rw [← h, State.setDp, State.advance, show ((s.dp.toNat : Int) - count n).toNat = s.dp.toNat - n.toNat by omega]

theorem execMoveRight_next {n : BitVec 8} (h : execMoveRight n s = .next t) :
    (s.cfg.heapSize ≤ s.dp.toNat + n.toNat ∧ t = s.enterFault .pointerOutOfBounds) ∨
    (s.dp.toNat + n.toNat < s.cfg.heapSize ∧
      t = { s with dp := BitVec.ofNat 15 (s.dp.toNat + n.toNat), ip := s.ip + 1#15 }) := by
  have hc : count n = n.toNat := rfl
  simp only [execMoveRight] at h
  split at h
  · exact .inl ⟨by omega, by simpa [eq_comm] using h⟩
  · refine .inr ⟨by omega, ?_⟩
    rw [settle_ok, Host.Outcome.next.injEq] at h
    rw [← h, State.setDp, State.advance, show ((s.dp.toNat : Int) + count n).toNat = s.dp.toNat + n.toNat by omega]

theorem updateCell_of_lt (f : Byte → Byte) (h : s.dp.toNat < s.cfg.heapSize) :
    updateCell f s = .ok { s with tape := s.tape.write s.dp.toNat (f (s.tape.read s.dp.toNat)), ip := s.ip + 1#15 } := by
  simp [updateCell, readCell, writeCell, readTape_of_lt h, writeTape_of_lt h, State.advance]

theorem updateCell_of_ge (f : Byte → Byte) (h : s.cfg.heapSize ≤ s.dp.toNat) :
    updateCell f s = .stop (.noSuchAddress .tape s.dp.toNat) := by
  simp [updateCell, readCell, readTape, Nat.not_lt.mpr h]

theorem updateCell_next {f : Byte → Byte} (h : settle s (updateCell f s) = .next t) :
    s.dp.toNat < s.cfg.heapSize ∧
    t = { s with tape := s.tape.write s.dp.toNat (f (s.tape.read s.dp.toNat)), ip := s.ip + 1#15 } := by
  by_cases hd : s.dp.toNat < s.cfg.heapSize
  · rw [updateCell_of_lt f hd, settle_ok, Host.Outcome.next.injEq] at h
    exact ⟨hd, h.symm⟩
  · rw [updateCell_of_ge f (by omega)] at h
    simp at h

theorem branch_of_lt (h : s.ip.toNat < s.cfg.heapSize) :
    branch s = if s.len.toNat ≤ (s.jtEntry s.ip.toNat).toNat then .raise .badJumpTarget
      else .ok { s with ip := s.jtEntry s.ip.toNat } := by
  simp only [branch, jumpTarget, readJt_of_lt h, Eff.bind_ok]
  split <;> rfl

theorem branch_of_ge (h : s.cfg.heapSize ≤ s.ip.toNat) : branch s = .stop (.noSuchAddress .jt s.ip.toNat) := by
  simp [branch, jumpTarget, readJt, Nat.not_lt.mpr h]

theorem branch_next (h : settle s (branch s) = .next t) : s.ip.toNat < s.cfg.heapSize ∧
    ((s.len.toNat ≤ (s.jtEntry s.ip.toNat).toNat ∧ t = s.enterFault .badJumpTarget) ∨
     ((s.jtEntry s.ip.toNat).toNat < s.len.toNat ∧ t = { s with ip := s.jtEntry s.ip.toNat })) := by
  by_cases hi : s.ip.toNat < s.cfg.heapSize
  · refine ⟨hi, ?_⟩
    rw [branch_of_lt hi] at h
    split at h
    · exact .inl ⟨‹_›, by simpa [eq_comm] using h⟩
    · exact .inr ⟨by omega, by simpa [eq_comm] using h⟩
  · rw [branch_of_ge (by omega)] at h
    simp at h

theorem cellIsZero_of_lt (h : s.dp.toNat < s.cfg.heapSize) :
    cellIsZero s = .ok (decide (s.tape.read s.dp.toNat = 0x00#8)) := by
  simp [cellIsZero, readCell, readTape_of_lt h]

theorem cellIsZero_of_ge (h : s.cfg.heapSize ≤ s.dp.toNat) :
    cellIsZero s = .stop (.noSuchAddress .tape s.dp.toNat) := by
  simp [cellIsZero, readCell, readTape, Nat.not_lt.mpr h]

theorem execLoopStart_next (h : execLoopStart s = .next t) : s.dp.toNat < s.cfg.heapSize ∧
    ((s.tape.read s.dp.toNat ≠ 0#8 ∧ t = s.advance) ∨
     (s.tape.read s.dp.toNat = 0#8 ∧ settle s (branch s) = .next t)) := by
  by_cases hd : s.dp.toNat < s.cfg.heapSize
  · refine ⟨hd, ?_⟩
    simp only [execLoopStart, cellIsZero_of_lt hd, Eff.bind_ok] at h
    split at h
    · exact .inr ⟨by simpa using ‹decide _ = true›, h⟩
    · exact .inl ⟨by simpa using ‹¬decide _ = true›, by simpa [eq_comm] using h⟩
  · simp [execLoopStart, cellIsZero_of_ge (Nat.not_lt.mp hd)] at h

theorem execLoopEnd_next (h : execLoopEnd s = .next t) : s.dp.toNat < s.cfg.heapSize ∧
    ((s.tape.read s.dp.toNat = 0#8 ∧ t = s.advance) ∨
     (s.tape.read s.dp.toNat ≠ 0#8 ∧ settle s (branch s) = .next t)) := by
  by_cases hd : s.dp.toNat < s.cfg.heapSize
  · refine ⟨hd, ?_⟩
    simp only [execLoopEnd, cellIsZero_of_lt hd, Eff.bind_ok] at h
    split at h
    · exact .inl ⟨by simpa using ‹decide _ = true›, by simpa [eq_comm] using h⟩
    · exact .inr ⟨by simpa using ‹¬decide _ = true›, h⟩
  · simp [execLoopEnd, cellIsZero_of_ge (Nat.not_lt.mp hd)] at h

theorem execOutput_next (h : execOutput s = .next t) : s.dp.toNat < s.cfg.heapSize ∧
    t = { s with outputs := s.outputs ++ [s.tape.read s.dp.toNat], ip := s.ip + 1#15 } := by
  by_cases hd : s.dp.toNat < s.cfg.heapSize
  · refine ⟨hd, ?_⟩
    simp only [execOutput, readCell, readTape_of_lt hd, Eff.bind_ok, settle_ok, Host.Outcome.next.injEq] at h
    exact h.symm
  · simp [execOutput, readCell, readTape, hd] at h

theorem execInput_next (h : execInput s = .next t) : t = { s with mode := .waitIn } := by
  simpa [execInput, eq_comm] using h

/-- Everything `exec` can answer with a next state. -/
theorem exec_next {i : Instr} (h : exec i s = .next t) :
    t = s.enterFault .pointerOutOfBounds ∧ ((∃ n, i = .moveLeft n) ∨ (∃ n, i = .moveRight n)) ∨
    t = s.enterFault .badJumpTarget ∧ (i = .loopStart ∨ i = .loopEnd) ∧
      s.len.toNat ≤ (s.jtEntry s.ip.toNat).toNat ∨
    t = s.advance ∧ (i = .nop ∨ i = .loopStart ∨ i = .loopEnd) ∨
    (∃ n, i = .moveLeft n ∧ n.toNat ≤ s.dp.toNat ∧
      t = { s with dp := BitVec.ofNat 15 (s.dp.toNat - n.toNat), ip := s.ip + 1#15 }) ∨
    (∃ n, i = .moveRight n ∧ s.dp.toNat + n.toNat < s.cfg.heapSize ∧
      t = { s with dp := BitVec.ofNat 15 (s.dp.toNat + n.toNat), ip := s.ip + 1#15 }) ∨
    (∃ v, ((∃ n, i = .decrement n) ∨ (∃ n, i = .increment n)) ∧ s.dp.toNat < s.cfg.heapSize ∧
      t = { s with tape := s.tape.write s.dp.toNat v, ip := s.ip + 1#15 }) ∨
    (i = .loopStart ∨ i = .loopEnd) ∧ (s.jtEntry s.ip.toNat).toNat < s.len.toNat ∧
      t = { s with ip := s.jtEntry s.ip.toNat } ∨
    i = .output ∧ s.dp.toNat < s.cfg.heapSize ∧
      t = { s with outputs := s.outputs ++ [s.tape.read s.dp.toNat], ip := s.ip + 1#15 } ∨
    i = .input ∧ t = { s with mode := .waitIn } := by
  cases i with
  | nop => simp [execNop_next h]
  | moveLeft n => rcases execMoveLeft_next h with ⟨_, rfl⟩ | ⟨hn, rfl⟩ <;> simp_all
  | moveRight n => rcases execMoveRight_next h with ⟨_, rfl⟩ | ⟨hn, rfl⟩ <;> simp_all
  | decrement n =>
    obtain ⟨hd, rfl⟩ := updateCell_next h
    exact .inr (.inr (.inr (.inr (.inr (.inl ⟨_, .inl ⟨n, rfl⟩, hd, rfl⟩)))))
  | increment n =>
    obtain ⟨hd, rfl⟩ := updateCell_next h
    exact .inr (.inr (.inr (.inr (.inr (.inl ⟨_, .inr ⟨n, rfl⟩, hd, rfl⟩)))))
  | loopStart =>
    obtain ⟨-, ⟨-, rfl⟩ | ⟨-, hb⟩⟩ := execLoopStart_next h
    · simp
    · obtain ⟨-, ⟨hj, rfl⟩ | ⟨hj, rfl⟩⟩ := branch_next hb <;> simp [hj]
  | loopEnd =>
    obtain ⟨-, ⟨-, rfl⟩ | ⟨-, hb⟩⟩ := execLoopEnd_next h
    · simp
    · obtain ⟨-, ⟨hj, rfl⟩ | ⟨hj, rfl⟩⟩ := branch_next hb <;> simp [hj]
  | output =>
    obtain ⟨hd, rfl⟩ := execOutput_next h
    simp [hd]
  | input => simp [execInput_next h]

/-- No meaning refuses. -/
theorem exec_ne_refused {i : Instr} {r : Refusal} : exec i s ≠ .refused r := by
  cases i <;> simp only [exec] <;> exact settle_ne_refused

end Sys2Proof.Machine
end

