-- ==== Sys2Proof/Laws/Host.lean ====
section
/-! SUPPORT. What one host access can answer. -/

namespace Sys2Proof.Machine

variable {s t : State}

/-- Everything a write to `CTRL` can answer. -/
theorem writeCtrl_cases (v : HostWord) (s : State) :
    writeCtrl v s = .ok s ∨
    (command v = some .encStart ∧ s.cfg.hasEncoder = true ∧ s.mode.startable = true ∧ writeCtrl v s = .ok s.startEncode) ∨
    (command v = some .encEnd ∧ s.cfg.hasEncoder = true ∧ s.mode = .encoding ∧ writeCtrl v s = encodeEnd s) ∨
    (command v = some .runStart ∧ s.mode.startable = true ∧ writeCtrl v s = .ok s.startRun) ∨
    (command v = some .clear ∧ s.mode.quiet = true ∧ writeCtrl v s = .ok s.leaveFault) := by
  simp only [writeCtrl]
  split
  · simp
  · split
    · rename_i c hc ha
      cases c <;> simp_all [accepts, runCommand]
    · simp

theorem writeSrc_cases (v : HostWord) (s : State) :
    writeSrc v s = .ok s ∨
    (s.cfg.hasEncoder = true ∧ s.mode = .encoding ∧ writeSrc v s = encodeByte (v.extractLsb' 0 8) s) := by
  simp only [writeSrc]
  split
  · simp_all
  · simp

theorem writeLen_cases (v : HostWord) (s : State) :
    writeLen v s = .ok s ∨
    (s.mode.quiet = true ∧ v.toNat ≤ s.cfg.heapSize ∧ writeLen v s = .ok { s with len := BitVec.ofNat 15 v.toNat }) := by
  simp only [writeLen]
  split
  · simp_all
  · simp

/-- Everything a register write can answer. -/
theorem writeReg_cases (index : Nat) (v : HostWord) (s : State) :
    writeReg index v s = .ok s ∨ (index = 0 ∧ writeReg index v s = writeCtrl v s) ∨
    (index = 1 ∧ writeReg index v s = writeSrc v s) ∨ (index = 3 ∧ writeReg index v s = writeLen v s) := by
  match index with
  | 0 => simp [writeReg]
  | 1 => simp [writeReg]
  | 2 => simp [writeReg]
  | 3 => simp [writeReg]
  | _ + 4 => simp [writeReg]

theorem writePort_cases (a : HostArray) (i : Nat) (v : HostWord) (s : State) :
    writePort a i v s = s ∨ (portOpen s i = true ∧
      ((a = .imem ∧ writePort a i v s = { s with imem := s.imem.write i (v.extractLsb' 0 16) }) ∨
       (a = .jt ∧ writePort a i v s = { s with jt := s.jt.write i (toIndex s.cfg v.toNat) }))) := by
  simp only [writePort]
  split
  · cases a <;> simp_all
  · simp

theorem portOpen_iff {i : Nat} : portOpen s i = true ↔ s.mode.quiet = true ∧ i < s.cfg.heapSize := by
  simp [portOpen]

theorem startable_iff {m : Mode} : m.startable = true ↔ m = .idle ∨ m = .done := by cases m <;> simp [Mode.startable]

theorem quiet_iff {m : Mode} : m.quiet = true ↔ m = .idle ∨ m = .done ∨ m = .fault := by cases m <;> simp [Mode.quiet]

/-- Everything a register write can leave with a next state: nothing changed, one of the four commands, a source
byte taken, `LEN` set, or a CompileError. -/
theorem writeReg_next {index : Nat} {v : HostWord} (h : settle s (writeReg index v s) = .next t) :
    t = s ∨
    (index = 0 ∧ command v = some .encStart ∧ s.cfg.hasEncoder = true ∧ s.mode.startable = true ∧ t = s.startEncode) ∨
    (index = 0 ∧ command v = some .encEnd ∧ s.cfg.hasEncoder = true ∧ s.mode = .encoding ∧ encodeEnd s = .ok t) ∨
    (index = 0 ∧ command v = some .runStart ∧ s.mode.startable = true ∧ t = s.startRun) ∨
    (index = 0 ∧ command v = some .clear ∧ s.mode.quiet = true ∧ t = s.leaveFault) ∨
    (index = 1 ∧ s.cfg.hasEncoder = true ∧ s.mode = .encoding ∧ encodeByte (v.extractLsb' 0 8) s = .ok t) ∨
    (index = 3 ∧ s.mode.quiet = true ∧ v.toNat ≤ s.cfg.heapSize ∧ t = { s with len := BitVec.ofNat 15 v.toNat }) ∨
    (s.mode = .encoding ∧ ∃ e, e.isCompile = true ∧ t = s.enterFault e ∧
      (index = 0 ∧ command v = some .encEnd ∧ encodeEnd s = .raise e ∨
       index = 1 ∧ encodeByte (v.extractLsb' 0 8) s = .raise e)) := by
  rcases writeReg_cases index v s with h' | ⟨hi, h'⟩ | ⟨hi, h'⟩ | ⟨hi, h'⟩ <;> rw [h'] at h
  · simp only [settle_ok, Host.Outcome.next.injEq] at h; exact .inl h.symm
  · rcases writeCtrl_cases v s with hw | ⟨hc, h1, h2, hw⟩ | ⟨hc, h1, h2, hw⟩ | ⟨hc, h2, hw⟩ | ⟨hc, h2, hw⟩ <;> rw [hw] at h
    · simp only [settle_ok, Host.Outcome.next.injEq] at h; exact .inl h.symm
    · simp only [settle_ok, Host.Outcome.next.injEq] at h
      exact .inr (.inl ⟨hi, hc, h1, h2, h.symm⟩)
    · rcases settle_eq_next.mp h with hx | ⟨e, hx, rfl⟩
      · exact .inr (.inr (.inl ⟨hi, hc, h1, h2, hx⟩))
      · exact .inr (.inr (.inr (.inr (.inr (.inr (.inr ⟨h2, e, encodeEnd_raise hx, rfl, .inl ⟨hi, hc, hx⟩⟩))))))
    · simp only [settle_ok, Host.Outcome.next.injEq] at h
      exact .inr (.inr (.inr (.inl ⟨hi, hc, h2, h.symm⟩)))
    · simp only [settle_ok, Host.Outcome.next.injEq] at h
      exact .inr (.inr (.inr (.inr (.inl ⟨hi, hc, h2, h.symm⟩))))
  · rcases writeSrc_cases v s with hw | ⟨h1, h2, hw⟩ <;> rw [hw] at h
    · simp only [settle_ok, Host.Outcome.next.injEq] at h; exact .inl h.symm
    · rcases settle_eq_next.mp h with hx | ⟨e, hx, rfl⟩
      · exact .inr (.inr (.inr (.inr (.inr (.inl ⟨hi, h1, h2, hx⟩)))))
      · exact .inr (.inr (.inr (.inr (.inr (.inr (.inr ⟨h2, e, encodeByte_raise hx, rfl, .inr ⟨hi, hx⟩⟩))))))
  · rcases writeLen_cases v s with hw | ⟨h1, h2, hw⟩ <;> rw [hw] at h
    · simp only [settle_ok, Host.Outcome.next.injEq] at h; exact .inl h.symm
    · simp only [settle_ok, Host.Outcome.next.injEq] at h
      exact .inr (.inr (.inr (.inr (.inr (.inr (.inl ⟨hi, h1, h2, h.symm⟩))))))

end Sys2Proof.Machine
end

