-- ==== Sys2Proof/Laws/PerInstr.lean ====
section
/-! SUPPORT. One lemma per instruction, for the family of statements about all instructions as syntax. -/

namespace Sys2Proof.Laws.EncodedFields

/-- The word of an instruction has the instruction's `OP` and `CNT` in the fields of 30_encoding.md R71. -/
def Statement (i : Instr) : Prop := opField (encode i) = i.opcode ∧ cntField (encode i) = i.cnt

theorem fields_of_append (op cnt : BitVec 8) :
    opField (op ++ cnt : BitVec (8 + 8)) = op ∧ cntField (op ++ cnt : BitVec (8 + 8)) = cnt := by
  have key : ∀ k, (op ++ cnt).getLsbD k = if k < 8 then cnt.getLsbD k else op.getLsbD (k - 8) := fun k => by
    rw [BitVec.getLsbD_append]
  constructor <;> apply BitVec.eq_of_getLsbD_eq <;> intro i hi
  · rw [opField, BitVec.getLsbD_extractLsb', key]; simp [hi]
  · rw [cntField, BitVec.getLsbD_extractLsb', key]; simp [hi]

theorem nop : Statement .nop := fields_of_append _ _
theorem moveLeft (n : BitVec 8) : Statement (.moveLeft n) := fields_of_append _ _
theorem moveRight (n : BitVec 8) : Statement (.moveRight n) := fields_of_append _ _
theorem decrement (n : BitVec 8) : Statement (.decrement n) := fields_of_append _ _
theorem increment (n : BitVec 8) : Statement (.increment n) := fields_of_append _ _
theorem loopStart : Statement .loopStart := fields_of_append _ _
theorem loopEnd : Statement .loopEnd := fields_of_append _ _
theorem output : Statement .output := fields_of_append _ _
theorem input : Statement .input := fields_of_append _ _

end Sys2Proof.Laws.EncodedFields
end

