-- ==== Sys2Proof/Laws/Step.lean ====
section
/-! SUPPORT. Everything one step can answer, by the agent that has the turn. -/

namespace Sys2Proof.Machine

variable {s t : State}

theorem dispatch_next {w : IWord} (h : dispatch w s = .next t) :
    (∃ i, decode w = .ok i ∧ exec i s = .next t) ∨
    (∃ e, decode w = .error e ∧ t = s.enterFault .illegalInstruction) := by
  simp only [dispatch] at h
  split at h
  · exact .inl ⟨_, ‹_›, h⟩
  · exact .inr ⟨_, ‹_›, by simpa [eq_comm] using h⟩

/-- A dispatch, where there is an instruction to fetch (41_dispatch.md R123). -/
theorem interpStep_of_lt (hl : s.ip.toNat < s.len.toNat) (hh : s.ip.toNat < s.cfg.heapSize) :
    interpStep s = dispatch (s.imem.read s.ip.toNat) s := by
  have hne : s.ip ≠ s.len := fun h => by rw [h] at hl; omega
  simp [interpStep, hne, hl, readImem_of_lt hh]

theorem interpStep_of_eq (h : s.ip = s.len) : interpStep s = .next { s with mode := .done } := if_pos h

/-- Everything an interpreter step can leave with a next state. -/
theorem interpStep_next (h : interpStep s = .next t) :
    (s.ip = s.len ∧ t = { s with mode := .done }) ∨
    (s.ip.toNat < s.len.toNat ∧ s.ip.toNat < s.cfg.heapSize ∧ dispatch (s.imem.read s.ip.toNat) s = .next t) := by
  by_cases he : s.ip = s.len
  · rw [interpStep_of_eq he] at h
    exact .inl ⟨he, by simpa [eq_comm] using h⟩
  · by_cases hl : s.ip.toNat < s.len.toNat
    · by_cases hh : s.ip.toNat < s.cfg.heapSize
      · rw [interpStep_of_lt hl hh] at h
        exact .inr ⟨hl, hh, h⟩
      · simp [interpStep, he, hl, readImem, hh] at h
    · simp [interpStep, he, hl] at h

/-- Outside `RUNNING` a device turn changes nothing. -/
theorem deviceStep_of_not_running (h : s.mode ≠ .running) : deviceStep s = .next s := by
  cases hm : s.mode <;> simp_all [deviceStep]

theorem deviceStep_of_running (h : s.mode = .running) : deviceStep s = interpStep s := by
  simp [deviceStep, h]

/-- Everything a response can leave with a next state (45_io.md R174 to R176). -/
theorem respond_next {r : Response} (h : settle s (respond r s) = .next t) :
    (∃ v, s.dp.toNat < s.cfg.heapSize ∧ (r = .byte v ∨ (r = .eof ∧ s.cfg.eofPolicy = .zero ∧ v = 0#8)) ∧
      t = { s with tape := s.tape.write s.dp.toNat v, ip := s.ip + 1#15, mode := .running }) ∨
    (r = .eof ∧ s.cfg.eofPolicy = .unchanged ∧ t = { s with ip := s.ip + 1#15, mode := .running }) ∨
    (r = .fail ∧ t = s.enterFault .inputFailed) := by
  cases r with
  | byte b =>
    rcases settle_eq_next.mp h with h | ⟨e, h, -⟩
    · simp only [respond, writeCell, Eff.bind_eq_ok, writeTape_eq_ok, Eff.ok.injEq] at h
      obtain ⟨_, ⟨hd, rfl⟩, rfl⟩ := h
      exact .inl ⟨b, hd, .inl rfl, rfl⟩
    · simp [respond, writeCell, Eff.bind_eq_raise] at h
  | eof =>
    cases hp : s.cfg.eofPolicy with
    | zero =>
      rcases settle_eq_next.mp h with h | ⟨e, h, -⟩
      · simp only [respond, hp, writeCell, Eff.bind_eq_ok, writeTape_eq_ok, Eff.ok.injEq] at h
        obtain ⟨_, ⟨hd, rfl⟩, rfl⟩ := h
        exact .inl ⟨0#8, hd, .inr ⟨rfl, rfl, rfl⟩, rfl⟩
      · simp [respond, hp, writeCell, Eff.bind_eq_raise] at h
    | unchanged =>
      simp only [respond, hp, settle_ok, Host.Outcome.next.injEq] at h
      exact .inr (.inl ⟨rfl, rfl, h.symm⟩)
  | fail =>
    simp only [respond, settle_raise, Host.Outcome.next.injEq] at h
    exact .inr (.inr ⟨rfl, h.symm⟩)

theorem inputStep_of_not_waiting (h : s.mode ≠ .waitIn) : inputStep s = .next s := by
  simp only [inputStep]
  split
  · contradiction
  · rfl

theorem inputStep_of_waiting {r : Response} (h : s.mode = .waitIn) (hi : s.inputs.next = some r) :
    inputStep s = settle { s with inputs := s.inputs.rest } (respond r { s with inputs := s.inputs.rest }) := by
  simp [inputStep, h, hi]

/-- Everything a turn of the input environment can leave. -/
theorem inputStep_next (h : inputStep s = .next t) :
    ((s.mode ≠ .waitIn ∨ s.inputs.next = none) ∧ t = s) ∨ (s.mode = .waitIn ∧ ∃ r, s.inputs.next = some r ∧
      settle { s with inputs := s.inputs.rest } (respond r { s with inputs := s.inputs.rest }) = .next t) := by
  cases hn : s.inputs.next with
  | none => exact .inl ⟨.inr rfl, by simpa [inputStep, hn, eq_comm] using h⟩
  | some r =>
    by_cases hm : s.mode = .waitIn
    · exact .inr ⟨hm, r, rfl, by rwa [inputStep_of_waiting hm hn] at h⟩
    · exact .inl ⟨.inl hm, by simpa [inputStep_of_not_waiting hm, eq_comm] using h⟩

/-- Everything a host access can leave. -/
theorem hostStep_next {a : HostAccess} (h : hostStep a s = .next t) :
    (∃ v, ((∃ i, a = .readReg i) ∨ (∃ p i, a = .readArray p i)) ∧ t = s.record v) ∨
    (∃ i v, a = .writeReg i v ∧ settle s (writeReg i v s) = .next t) ∨
    (∃ p i v, a = .writeArray p i v ∧ t = writePort p i v s) := by
  cases a with
  | readReg i => exact .inl ⟨_, .inl ⟨i, rfl⟩, by simpa [hostStep, eq_comm] using h⟩
  | writeReg i v => exact .inr (.inl ⟨i, v, rfl, h⟩)
  | readArray p i => exact .inl ⟨_, .inr ⟨p, i, rfl⟩, by simpa [hostStep, eq_comm] using h⟩
  | writeArray p i v => exact .inr (.inr ⟨p, i, v, rfl, by simpa [hostStep, eq_comm] using h⟩)

/-- A turn put first on the agenda is the one taken: an execution takes its turns by `step`. -/
theorem step_of_turn_first (a : Turn) (s : State) : step { s with agenda := a :: s.agenda } = takeTurn a s := rfl

theorem step_of_device (h : s.turn = .device) : step s = deviceStep s.popTurn := by simp [step, h, takeTurn]

theorem step_of_input (h : s.turn = .input) : step s = inputStep s.popTurn := by simp [step, h, takeTurn]

theorem step_of_host {a : HostAccess} (h : s.turn = .host a) : step s = hostStep a s.popTurn := by
  simp [step, h, takeTurn]

theorem step_of_reset (h : s.turn = .reset) : step s = .next s.popTurn.applyReset := by simp [step, h, takeTurn]

/-- Everything a step can leave, by the agent that has the turn. -/
theorem step_next (h : step s = .next t) :
    (s.turn = .device ∧ s.mode ≠ .running ∧ t = s.popTurn) ∨
    (s.turn = .device ∧ s.mode = .running ∧ interpStep s.popTurn = .next t) ∨
    (s.turn = .input ∧ inputStep s.popTurn = .next t) ∨
    (∃ a, s.turn = .host a ∧ hostStep a s.popTurn = .next t) ∨
    (s.turn = .reset ∧ t = s.popTurn.applyReset) := by
  cases ht : s.turn with
  | device =>
    rw [step_of_device ht] at h
    by_cases hm : s.mode = .running
    · exact .inr (.inl ⟨rfl, hm, by rwa [deviceStep_of_running (s := s.popTurn) hm] at h⟩)
    · rw [deviceStep_of_not_running (s := s.popTurn) hm] at h
      exact .inl ⟨rfl, hm, by simpa [eq_comm] using h⟩
  | input => exact .inr (.inr (.inl ⟨rfl, by rwa [step_of_input ht] at h⟩))
  | host a => exact .inr (.inr (.inr (.inl ⟨a, rfl, by rwa [step_of_host ht] at h⟩)))
  | reset =>
    rw [step_of_reset ht] at h
    exact .inr (.inr (.inr (.inr ⟨rfl, by simpa [eq_comm] using h⟩)))

/-- `k + 1` steps of the machine: one, and then `k`. -/
theorem core_run_succ (k : Nat) (s : State) : Sys2Proof.core.run (k + 1) s =
    match step s with
    | .next u => Sys2Proof.core.run k u
    | .fault r => .fault r
    | .refused r => .refused r := by
  have hs : Sys2Proof.core.step s = step s := rfl
  cases h : step s <;> rw [h] at hs <;> simp only [Host.Core.run, hs]

theorem popTurn_of_nil (h : s.agenda = []) : s.popTurn = s := by cases s; simp_all [State.popTurn]

theorem turn_of_cons {a : Turn} {rest : List Turn} (h : s.agenda = a :: rest) : s.turn = a := by simp [State.turn, h]

/-- With nothing on the agenda, the device has the turn unless an answerable request is outstanding. -/
theorem turn_of_nil (h : s.agenda = []) (hm : s.mode ≠ .waitIn) : s.turn = .device := by
  simp only [State.turn, h, State.defaultTurn]
  split
  · contradiction
  · rfl

end Sys2Proof.Machine
end

