-- ==== Sys2Proof/Tests/Slice0.lean ====
section
/-! SUPPORT. Small tests, their expected results taken from spec/95_test_vectors.md, and for every statement with
hypotheses a witness that meets them. -/

namespace Sys2Proof.Tests

open Sys2Proof.Machine

/-! ## Helpers -/

/-- The next state an outcome holds, if it is one. -/
def nextOf (o : Host.Outcome State Fault Refusal) : Option State :=
  match o with
  | .next t => some t
  | .fault _ => none
  | .refused _ => none

/-- The value an operation gives, if it gives one. -/
def okOf (x : Eff State) : Option State :=
  match x with
  | .ok t => some t
  | .raise _ => none
  | .stop _ => none

/-- The error an operation raises, if it raises one. -/
def errOf (x : Eff State) : Option Err :=
  match x with
  | .ok _ => none
  | .raise e => some e
  | .stop _ => none

/-- A run of this hardware at `IP`, `DP` with `LEN`, the current cell holding `v`. -/
def runAt (ip dp len : Slot) (v : Byte) : State :=
  { State.reset.startRun with ip := ip, dp := dp, len := len, tape := Memory.write ⟨.const 0#8, []⟩ dp.toNat v }

/-- The same, with `w` in the slot at `IP` and `target` in its `JT` entry. -/
def fetching (w : IWord) (target : Slot) (s : State) : State :=
  { s with imem := s.imem.write s.ip.toNat w, jt := s.jt.write s.ip.toNat target }

/-- The block with one turn pending. -/
def withTurn (t : Turn) (s : State) : State := { s with agenda := [t] }

/-- The block in `ENCODING`, with `LEN`, `SP` and the accumulator. -/
def enc (len sp : Slot) (op : Option FoldOp) (n : BitVec 8) : State :=
  { State.reset.startEncode with len := len, sp := sp, runOp := op, runCnt := n }

/-- A block with two slots and a stack of one entry, in mode `m`, and an environment that gives no response. -/
def tiny (m : Mode) : State :=
  { State.reset with cfg := ⟨2, 1, .zero, true⟩, mode := m, tape := ⟨.const 0#8, []⟩, inputs := ⟨[], .silent⟩ }

/-! ## Well-formedness refuses every ill-formed term -/

theorem test_wf_refuses_moveLeft_0 : (Instr.moveLeft 0#8).wf = false := by decide
theorem test_wf_refuses_moveRight_0 : (Instr.moveRight 0#8).wf = false := by decide
theorem test_wf_refuses_decrement_0 : (Instr.decrement 0#8).wf = false := by decide
theorem test_wf_refuses_increment_0 : (Instr.increment 0#8).wf = false := by decide
theorem test_wf_accepts_count_255 : (Instr.moveLeft 255#8).wf = true ∧ (Instr.increment 1#8).wf = true := by decide

/-! ## Words written out from the fields of 30_encoding.md R71, R72: `OP` in bits 15..8, `CNT` in bits 7..0 -/

theorem test_decode_nop : decode 0b0000000000000000#16 = .ok .nop := by rfl
theorem test_decode_moveLeft : decode 0b0000000100000011#16 = .ok (.moveLeft 3#8) := by rfl
theorem test_decode_moveRight : decode 0b0000001011111111#16 = .ok (.moveRight 255#8) := by rfl
theorem test_decode_decrement : decode 0b0000001100000001#16 = .ok (.decrement 1#8) := by rfl
theorem test_decode_increment : decode 0b0000010000101101#16 = .ok (.increment 45#8) := by rfl
theorem test_decode_loopStart : decode 0b0000010100000000#16 = .ok .loopStart := by rfl
theorem test_decode_loopEnd : decode 0b0000011000000000#16 = .ok .loopEnd := by rfl
theorem test_decode_output : decode 0b0000011100000000#16 = .ok .output := by rfl
theorem test_decode_input : decode 0b0000100000000000#16 = .ok .input := by rfl
/-- 95_test_vectors.md L2.1: the illegal words. -/
theorem test_decode_illegal : decode 0x0100#16 = .error .zeroCount ∧ decode 0x0200#16 = .error .zeroCount ∧
    decode 0x0300#16 = .error .zeroCount ∧ decode 0x0400#16 = .error .zeroCount ∧
    decode 0x0900#16 = .error .reservedOpcode ∧ decode 0xFFFF#16 = .error .reservedOpcode := ⟨rfl, rfl, rfl, rfl, rfl, rfl⟩
/-- An opcode-table word, by its number: `Increment 45`, and the match word of `MoveLeft`, which is illegal. -/
theorem test_decode_table_word : decodeTableWord 16 0x042D = some (.increment 45#8) ∧ decodeTableWord 16 0x0100 = none := by
  decide

/-- P1's listing, slots 13 and 15. -/
theorem test_listing : (decode 0x0104#16).map Instr.listing = .ok "MoveLeft 4" ∧
    (decode 0x0600#16).map Instr.listing = .ok "LoopEnd" := ⟨rfl, rfl⟩

/-! ## Instructions, one step each (95_test_vectors.md L2.4 to L2.8) -/

/-- `IP = 3` at a `Nop` gives `IP = 4`, and its `CNT` is ignored. -/
theorem test_nop : (nextOf (step (fetching 0x00AB#16 0#15 (runAt 3#15 0#15 5#15 7#8)))).map (fun t => (t.ip, t.dp, t.tape.read 0)) =
    some (4#15, 0#15, 7#8) := by decide

theorem test_moveLeft : (nextOf (exec (.moveLeft 3#8) (runAt 0#15 5#15 1#15 0#8))).map (fun t => (t.dp, t.ip, t.mode)) =
    some (2#15, 1#15, .running) := by decide
theorem test_moveLeft_out_of_bounds : (nextOf (exec (.moveLeft 255#8) (runAt 0#15 254#15 1#15 0#8))).map
    (fun t => (t.dp, t.ip, t.mode, t.err)) = some (254#15, 0#15, .fault, .pointerOutOfBounds) := by decide

theorem test_moveRight : (nextOf (exec (.moveRight 164#8) (runAt 0#15 29835#15 1#15 0#8))).map (fun t => (t.dp, t.ip, t.mode)) =
    some (29999#15, 1#15, .running) := by decide
theorem test_moveRight_out_of_bounds : (nextOf (exec (.moveRight 165#8) (runAt 0#15 29835#15 1#15 0#8))).map
    (fun t => (t.dp, t.ip, t.mode, t.err)) = some (29835#15, 0#15, .fault, .pointerOutOfBounds) := by decide

theorem test_decrement_255 : (nextOf (exec (.decrement 255#8) (runAt 0#15 2#15 1#15 0x00#8))).map
    (fun t => (t.tape.read 2, t.tape.read 1, t.ip)) = some (0x01#8, 0#8, 1#15) := by decide
theorem test_decrement_sign : (nextOf (exec (.decrement 1#8) (runAt 0#15 2#15 1#15 0x80#8))).map (·.tape.read 2) = some 0x7F#8 := by
  decide

theorem test_increment_wraps : (nextOf (exec (.increment 3#8) (runAt 0#15 2#15 1#15 0xFE#8))).map
    (fun t => (t.tape.read 2, t.tape.read 3, t.ip)) = some (0x01#8, 0#8, 1#15) := by decide
theorem test_increment_128 : (nextOf (exec (.increment 128#8) (runAt 0#15 2#15 1#15 0x80#8))).map (·.tape.read 2) = some 0x00#8 := by
  decide

/-- L2.6: the `LoopStart` of `[-]` on 0 goes to slot 2, and on 3 to slot 1. -/
theorem test_loopStart : (nextOf (step (fetching 0x0500#16 2#15 (runAt 0#15 0#15 3#15 0#8)))).map (·.ip) = some 2#15 ∧
    (nextOf (step (fetching 0x0500#16 2#15 (runAt 0#15 0#15 3#15 3#8)))).map (·.ip) = some 1#15 := by decide
/-- L2.6: a target at or past `LEN`. -/
theorem test_loopStart_bad_target : (nextOf (step (fetching 0x0500#16 5#15 (runAt 0#15 0#15 1#15 0#8)))).map
    (fun t => (statusWord t, t.ip)) = some (0x175#32, 0#15) := by decide

/-- L2.6: the `LoopEnd` of `[-]` on 2 goes to slot 0, and on 0 to slot 3. -/
theorem test_loopEnd : (nextOf (step (fetching 0x0600#16 0#15 (runAt 2#15 0#15 3#15 2#8)))).map (·.ip) = some 0#15 ∧
    (nextOf (step (fetching 0x0600#16 0#15 (runAt 2#15 0#15 3#15 0#8)))).map (·.ip) = some 3#15 := by decide
theorem test_loopEnd_bad_target : (nextOf (step (fetching 0x0600#16 7#15 (runAt 1#15 0#15 2#15 1#8)))).map
    (fun t => (t.err, t.ip, t.tape.read 0)) = some (.badJumpTarget, 1#15, 1#8) := by decide

/-- L2.7: a zero cell is still sent, and 0xFF is. -/
theorem test_output : (nextOf (exec .output (runAt 0#15 0#15 1#15 0#8))).map (fun t => (t.outputs, t.ip)) = some ([0x00#8], 1#15) ∧
    (nextOf (exec .output (runAt 0#15 0#15 1#15 0xFF#8))).map (·.outputs) = some [0xFF#8] := by decide

/-- L3 P2, d1: the request, with `IP` kept. -/
theorem test_input : (nextOf (exec .input (runAt 0#15 0#15 1#15 9#8))).map (fun t => (t.mode, t.ip, t.tape.read 0)) =
    some (.waitIn, 0#15, 9#8) := by decide

/-! ## Responses (L2.7), completion, illegal words (L2.3) -/

/-- The block in `WAIT_IN`, its cell holding 1, with one response to come. -/
def waiting (p : EofPolicy) (r : Response) : State :=
  { fetching 0x0800#16 0#15 (runAt 1#15 0#15 2#15 1#8) with
    cfg := { Config.hardware with eofPolicy := p }, mode := .waitIn, inputs := ⟨[r], .silent⟩ }

theorem test_byte_response : (nextOf (step (waiting .zero (.byte 0x5A#8)))).map (fun t => (t.tape.read 0, t.ip, t.mode)) =
    some (0x5A#8, 2#15, .running) := by decide
theorem test_eof_response : (nextOf (step (waiting .zero .eof))).map (fun t => (t.tape.read 0, t.ip, t.mode)) =
    some (0#8, 2#15, .running) ∧
    (nextOf (step (waiting .unchanged .eof))).map (fun t => (t.tape.read 0, t.ip, t.mode)) = some (1#8, 2#15, .running) := by
  decide
theorem test_fail_response : (nextOf (step (waiting .zero .fail))).map (fun t => (statusWord t, t.ip, t.tape.read 0)) =
    some (0x155#32, 1#15, 1#8) := by decide
theorem test_completion : (nextOf (step (runAt 1#15 0#15 1#15 0#8))).map (fun t => (t.mode, t.ip)) = some (.done, 1#15) := by decide
theorem test_illegal_word : (nextOf (step (fetching 0x0900#16 0#15 (runAt 0#15 0#15 1#15 0#8)))).map
    (fun t => (statusWord t, t.ip, t.dp)) = some (0x165#32, 0#15, 0#15) := by decide

/-! ## The host interface (L2.3) -/

theorem test_run_start_ignored_in_fault :
    (nextOf (step (withTurn (hostWrite 0 4#32) (State.reset.enterFault .pointerOutOfBounds)))).map statusWord = some 0x145#32 := by
  decide
theorem test_clear_keeps_the_module : (nextOf (step (withTurn (hostWrite 0 8#32)
    ((runAt 0#15 0#15 1#15 0#8).enterFault .pointerOutOfBounds)))).map (fun t => (t.mode, t.err, t.len)) =
    some (.idle, .none, 1#15) := by decide
theorem test_two_command_bits : (nextOf (step (withTurn (hostWrite 0 5#32) State.reset))).map (·.mode) = some .idle := by decide
theorem test_len_30001_ignored : (nextOf (step (withTurn (hostWrite 3 30001#32) { State.reset with len := 4#15 }))).map (·.len) =
    some 4#15 ∧ (nextOf (step (withTurn (hostWrite 3 30000#32) State.reset))).map (·.len) = some 30000#15 := by decide
theorem test_tape_port_reads_0_in_a_run :
    (nextOf (step (withTurn (.host (.readArray .tape 0)) (runAt 0#15 0#15 1#15 9#8)))).map (·.hostReads) = some [0#32] := by decide
theorem test_index_7_reads_0 : (nextOf (step (withTurn (.host (.readReg 7)) State.reset))).map (·.hostReads) = some [0#32] := by
  decide

/-! ## The encoder, one byte each (the streaming trace of `++>+++[<+>-]` and the error rows of L2.2) -/

theorem test_encode_new_run : (okOf (encodeByte 0x2B#8 (enc 0#15 0#15 none 0#8))).map (fun t => (t.len, t.runOp, t.runCnt)) =
    some (0#15, some .increment, 1#8) := by decide
theorem test_encode_flush_new_run : (okOf (encodeByte 0x3E#8 (enc 0#15 0#15 (some .increment) 2#8))).map
    (fun t => (t.len, t.runOp, t.runCnt, t.imem.read 0)) = some (1#15, some .moveRight, 1#8, 0x0402#16) := by decide
theorem test_encode_flush_open : (okOf (encodeByte 0x5B#8 (enc 2#15 0#15 (some .increment) 3#8))).map
    (fun t => (t.len, t.sp, t.runOp, t.imem.read 2, t.imem.read 3)) = some (4#15, 1#15, none, 0x0403#16, 0x0500#16) := by decide
theorem test_encode_flush_close : (okOf (encodeByte 0x5D#8
    { enc 7#15 1#15 (some .decrement) 1#8 with stack := Memory.write ⟨.free 3, []⟩ 0 3#15 })).map
    (fun t => (t.len, t.sp, t.imem.read 7, t.imem.read 8, t.jtEntry 3, t.jtEntry 8)) =
    some (9#15, 0#15, 0x0301#16, 0x0600#16, 8#15, 3#15) := by decide
theorem test_encode_errors : errOf (encodeByte 0x5D#8 (enc 30000#15 0#15 none 0#8)) = some .unmatchedCloseBracket ∧
    errOf (encodeByte 0x5D#8 (enc 30000#15 0#15 (some .increment) 1#8)) = some .sourceTooLarge ∧
    errOf (encodeByte 0x5B#8 (enc 0#15 30000#15 none 0#8)) = some .sourceTooLarge ∧
    errOf (encodeEnd (enc 1#15 1#15 none 0#8)) = some .unmatchedOpenBracket := by decide
/-- L2.2: `.` × 30000 then `++`, one slot less: the flush at the end fills the last slot. -/
theorem test_encode_end_fills_last_slot : (okOf (encodeEnd (enc 29999#15 0#15 (some .increment) 2#8))).map
    (fun t => (t.len, t.mode, t.imem.read 29999)) = some (30000#15, .idle, 0x0402#16) := by decide
/-- The four fold characters, `<>-+`, by 30_encoding.md R80. -/
theorem test_encode_fold_characters : encodeSource Config.hardware [0x3C#8, 0x3E#8, 0x2D#8, 0x2B#8] =
    .ok ⟨[], [0x0101#16, 0x0201#16, 0x0301#16, 0x0401#16], []⟩ := by rfl
/-- A `<` taken and flushed by the streaming encoder. -/
theorem test_encode_moveLeft : ((okOf (encodeByte 0x3C#8 (enc 0#15 0#15 none 0#8))).bind fun s => okOf (encodeByte 0x2E#8 s)).map
    (fun t => (t.len, t.imem.read 0, t.imem.read 1)) = some (2#15, 0x0101#16, 0x0700#16) := by decide
/-- L2.2: `+a+`, by the batch algorithm. -/
theorem test_encode_source : encodeSource Config.hardware [0x2B#8, 0x61#8, 0x2B#8] = .ok ⟨[], [0x0401#16, 0x0401#16], []⟩ := by rfl

/-! ## A placed word, and reset -/

/-- `LoopStart`, placed in a block just reset, runs on the zeroed tape and finds a target of its own slot. -/
theorem test_placed_word_runs : (nextOf (step (State.reset.withFetchWord 16 0x0500))).map (fun t => (t.ip, t.mode)) =
    some (0#15, .running) ∧
    (nextOf (step (State.reset.withFetchWord 16 0x0403))).map (fun t => (t.tape.read 0, t.ip)) = some (3#8, 1#15) := by decide
theorem test_reset : (nextOf (step (withTurn .reset (runAt 3#15 4#15 5#15 6#8)))).map
    (fun t => (t.mode, t.err, t.ip, t.dp, t.len, t.sp)) = some (.idle, .none, 0#15, 0#15, 0#15, 0#15) := by decide

/-! ## Witnesses: for each statement with hypotheses, operands and a state that meet them together -/

/-- A legal build with two slots, in a run at `IP`, `DP`: the smallest bounds. -/
def run2 (ip dp len : Slot) (v : Byte) (w : IWord) (target : Slot) : State :=
  fetching w target { tiny .running with ip := ip, dp := dp, len := len, tape := Memory.write ⟨.const 0#8, []⟩ dp.toNat v }

theorem witness_DecodeInvertsEncode : (Instr.moveLeft 255#8).wf = true ∧ decode 0x01FF#16 = .ok (.moveLeft 255#8) ∧
    (Instr.moveLeft 255#8).isCounted = true := ⟨rfl, rfl, rfl⟩

theorem witness_DecodeFollowsOpcodeMap : (0#8 = 0#8 ∧ 1#8 ≠ 0#8) ∧ 9 ≤ (9#8).toNat ∧ 9 ≤ (255#8).toNat := by decide

/-- What `IllegalWordRaisesBeforeAnyEffect` asks of a state. -/
abbrev FetchesIllegal (s : State) : Prop :=
  s.turn = .device ∧ s.mode = .running ∧ s.ip.toNat < s.len.toNat ∧ s.ip.toNat < s.cfg.heapSize ∧
  (9 ≤ (opField (s.imem.read s.ip.toNat)).toNat ∨
    (1 ≤ (opField (s.imem.read s.ip.toNat)).toNat ∧ (opField (s.imem.read s.ip.toNat)).toNat ≤ 4 ∧
      cntField (s.imem.read s.ip.toNat) = 0#8))

/-- Reserved `OP` 9 and 255, and a zero count under `OP` 1 and 4. -/
theorem witness_IllegalWordRaisesBeforeAnyEffect : FetchesIllegal (run2 1#15 0#15 2#15 0#8 0x09AB#16 0#15) ∧
    FetchesIllegal (run2 1#15 0#15 2#15 0#8 0xFFFF#16 0#15) := ⟨by decide, by decide⟩
theorem witness_IllegalWord_zero_count : FetchesIllegal (run2 1#15 0#15 2#15 0#8 0x0100#16 0#15) ∧
    FetchesIllegal (run2 1#15 0#15 2#15 0#8 0x0400#16 0#15) := ⟨by decide, by decide⟩

/-- The count equal to `DP`, and one more. -/
theorem witness_MoveLeftMovesOrFaults : let s := runAt 0#15 3#15 1#15 0#8
    3#8 ≠ 0#8 ∧ (3#8).toNat ≤ s.dp.toNat ∧ s.dp.toNat < (4#8).toNat := by decide

/-- The last cell reached exactly, and one past it. -/
theorem witness_MoveRightMovesOrFaults : let s := runAt 0#15 29835#15 1#15 0#8
    s.cfg.legal ∧ 164#8 ≠ 0#8 ∧ s.dp.toNat + (164#8).toNat < s.cfg.heapSize ∧
    s.cfg.heapSize ≤ s.dp.toNat + (165#8).toNat := by decide

theorem witness_IncrementAddsModulo256 : let s := runAt 0#15 29999#15 1#15 255#8
    s.dp.toNat < s.cfg.heapSize ∧ 255#8 ≠ 0#8 := by decide
theorem witness_DecrementSubtractsModulo256 : let s := runAt 0#15 29999#15 1#15 0#8
    s.dp.toNat < s.cfg.heapSize ∧ 255#8 ≠ 0#8 := by decide

/-- On 1; on 0 with the last slot as target; on 0 with `LEN` as target. -/
theorem witness_LoopStartBranchesOnZero :
    (let s := run2 1#15 1#15 2#15 1#8 0x0500#16 1#15
     s.dp.toNat < s.cfg.heapSize ∧ s.ip.toNat < s.cfg.heapSize ∧ s.tape.read s.dp.toNat ≠ 0#8) ∧
    (let s := run2 1#15 1#15 2#15 0#8 0x0500#16 1#15
     s.dp.toNat < s.cfg.heapSize ∧ s.ip.toNat < s.cfg.heapSize ∧ s.tape.read s.dp.toNat = 0#8 ∧
     (s.jtEntry s.ip.toNat).toNat < s.len.toNat) ∧
    (let s := run2 1#15 1#15 2#15 0#8 0x0500#16 2#15
     s.dp.toNat < s.cfg.heapSize ∧ s.ip.toNat < s.cfg.heapSize ∧ s.tape.read s.dp.toNat = 0#8 ∧
     s.len.toNat ≤ (s.jtEntry s.ip.toNat).toNat) := by decide

theorem witness_LoopEndBranchesOnNonzero :
    (let s := run2 1#15 1#15 2#15 0#8 0x0600#16 0#15
     s.dp.toNat < s.cfg.heapSize ∧ s.ip.toNat < s.cfg.heapSize ∧ s.tape.read s.dp.toNat = 0#8) ∧
    (let s := run2 1#15 1#15 2#15 255#8 0x0600#16 1#15
     s.dp.toNat < s.cfg.heapSize ∧ s.ip.toNat < s.cfg.heapSize ∧ s.tape.read s.dp.toNat ≠ 0#8 ∧
     (s.jtEntry s.ip.toNat).toNat < s.len.toNat) ∧
    (let s := run2 1#15 1#15 2#15 1#8 0x0600#16 2#15
     s.dp.toNat < s.cfg.heapSize ∧ s.ip.toNat < s.cfg.heapSize ∧ s.tape.read s.dp.toNat ≠ 0#8 ∧
     s.len.toNat ≤ (s.jtEntry s.ip.toNat).toNat) := by decide

theorem witness_OutputSendsTheCell : let s := runAt 0#15 29999#15 1#15 0#8
    s.dp.toNat < s.cfg.heapSize := by decide

/-- An instruction that stores, one that sends, one that only asks, one that raises. -/
theorem witness_InstructionFrame : let s := run2 0#15 1#15 2#15 0#8 0x0500#16 2#15
    (nextOf (exec (.increment 1#8) s)).map (fun t => (t.mode, t.tape.read 1)) = some (.running, 1#8) ∧
    (nextOf (exec .output s)).map (·.outputs) = some [0#8] ∧ (nextOf (exec .input s)).map (·.mode) = some .waitIn ∧
    (nextOf (exec (.moveRight 1#8) s)).map (·.err) = some .pointerOutOfBounds ∧
    (nextOf (exec .loopStart s)).map (·.err) = some .badJumpTarget := by decide

theorem witness_CellArithmeticIsModular : let s := runAt 0#15 29999#15 1#15 200#8
    s.dp.toNat < s.cfg.heapSize := by decide

/-- `IP` at `LEN`, at the last slot with a legal and with an illegal word, and another mode. -/
theorem witness_StepRunsTheDecodedInstruction :
    (let s := run2 1#15 0#15 1#15 0#8 0x0000#16 0#15
     s.turn = .device ∧ s.mode = .running ∧ s.ip = s.len) ∧
    (let s := run2 1#15 0#15 2#15 0#8 0x0401#16 0#15
     s.turn = .device ∧ s.mode = .running ∧ s.ip.toNat < s.len.toNat ∧ s.ip.toNat < s.cfg.heapSize) ∧
    ((tiny .encoding).turn = .device ∧ (tiny .encoding).mode ≠ .running) ∧
    decode ((run2 1#15 0#15 2#15 0#8 0x0401#16 0#15).imem.read 1) = .ok (.increment 1#8) ∧
    decode ((run2 1#15 0#15 2#15 0#8 0x0900#16 0#15).imem.read 1) = .error .reservedOpcode :=
  ⟨by decide, by decide, by decide, rfl, rfl⟩

theorem witness_PlacedWordRunsNext : State.reset.cfg.legal ∧ (tiny .waitIn).cfg.legal ∧
    decodeTableWord 16 0x0800 = some .input := by decide

theorem witness_QuietModesOnlyMoveByHost : ∀ m ∈ [Mode.idle, Mode.done, Mode.fault],
    (withTurn .device (tiny m)).mode = m ∧ (withTurn .device (tiny m)).turn = .device ∧
    (withTurn .input (tiny m)).turn = .input := by decide

theorem witness_ByteResponseStoresAndResumes : let s := { tiny .waitIn with dp := 1#15, inputs := ⟨[], .always (.byte 255#8)⟩ }
    s.turn = .input ∧ s.mode = .waitIn ∧ s.inputs.next = some (.byte 255#8) ∧ s.dp.toNat < s.cfg.heapSize := by decide

theorem witness_EofResponseFollowsThePolicy : ∀ p ∈ [EofPolicy.zero, EofPolicy.unchanged],
    let s := { tiny .waitIn with dp := 1#15, inputs := ⟨[.eof], .silent⟩, cfg := ⟨2, 1, p, true⟩ }
    s.turn = .input ∧ s.mode = .waitIn ∧ s.inputs.next = some .eof ∧ s.dp.toNat < s.cfg.heapSize ∧ s.cfg.eofPolicy = p := by
  decide

theorem witness_FailResponseFaults : let s := { tiny .waitIn with inputs := ⟨[.fail], .silent⟩ }
    s.turn = .input ∧ s.mode = .waitIn ∧ s.inputs.next = some .fail := by decide

theorem witness_NoResponseOutsideWaiting :
    (let s := withTurn .input { tiny .running with inputs := ⟨[.eof], .silent⟩ }
     s.turn = .input ∧ s.mode ≠ .waitIn) ∧
    (let s := withTurn .input (tiny .waitIn)
     s.turn = .input ∧ s.inputs.next = none) := by decide

/-- A wait that goes on, one that reset ends, one that a byte ends, one that a failure ends. -/
theorem witness_WaitEndsOnlyByResponseOrReset : (tiny .waitIn).mode = .waitIn ∧
    (∃ t, step (tiny .waitIn) = .next t ∧ t.mode = .waitIn) ∧
    (∃ t, step (withTurn .reset (tiny .waitIn)) = .next t ∧ t.mode = .idle) ∧
    (∃ t, step { tiny .waitIn with inputs := ⟨[.byte 1#8], .silent⟩ } = .next t ∧ t.mode = .running) ∧
    (∃ t, step { tiny .waitIn with inputs := ⟨[.fail], .silent⟩ } = .next t ∧ t.err = .inputFailed) :=
  ⟨rfl, ⟨_, rfl, rfl⟩, ⟨_, rfl, rfl⟩, ⟨_, rfl, rfl⟩, ⟨_, rfl, rfl⟩⟩

/-! ### States that satisfy the invariant -/

/-- `Inv` as a question about numerals, the open slots of `ENCODING` bounded by `SP`. -/
abbrev Checked (s : State) : Prop :=
  s.cfg.legal ∧
  (s.tape.wf && s.imem.wf && s.jt.wf && s.stack.wf && s.tape.within s.cfg.heapSize && s.imem.within s.cfg.heapSize &&
    s.jt.within s.cfg.heapSize && s.stack.within s.cfg.stackSize) = true ∧
  s.dp.toNat < s.cfg.heapSize ∧ s.len.toNat ≤ s.cfg.heapSize ∧ s.sp.toNat ≤ s.cfg.stackSize ∧
  s.ip.toNat ≤ s.cfg.heapSize ∧ (s.mode = .running → s.ip.toNat ≤ s.len.toNat) ∧
  (s.mode = .waitIn → s.ip.toNat < s.len.toNat ∧ opField (s.imem.read s.ip.toNat) = 0x08#8) ∧
  (s.err ≠ .none ↔ s.mode = .fault) ∧ (s.runOp = none ↔ s.runCnt = 0#8) ∧
  (s.mode = .encoding → ∀ k, k < s.sp.toNat → (s.stack.read k).toNat < s.len.toNat) ∧
  (s.mode = .running ∨ s.mode = .waitIn → s.tape.fill = .const 0#8)

theorem inv_of_checked {s : State} (h : Checked s) : Inv s := by
  obtain ⟨hc, hw, hd, hl, hs, hp, hi, hr, he, ha, ho, hf⟩ := h
  simp only [Bool.and_eq_true, and_assoc] at hw
  obtain ⟨h1, h2, h3, h4, h5, h6, h7, h8⟩ := hw
  exact { cfg_legal := hc, tape_wf := h1, imem_wf := h2, jt_wf := h3, stack_wf := h4, tape_within := h5,
          imem_within := h6, jt_within := h7, stack_within := h8, dp_lt := hd, len_le := hl, sp_le := hs, ip_le_heap := hp,
          ip_le := hi,
          ip_input := fun hm => ⟨(hr hm).1, by simp [decode, (hr hm).2]⟩,
          err_iff := he, run_iff := ha, stack_lt := ho, tape_fresh := hf }

/-- The module `[]`, two slots, in a run at slot 0 on a zero cell. -/
def loopRun : State := { run2 0#15 0#15 2#15 0#8 0x0500#16 1#15 with
  imem := Memory.write (Memory.write ⟨.free 1, []⟩ 0 0x0500#16) 1 0x0600#16,
  jt := Memory.write (Memory.write ⟨.free 2, []⟩ 0 1#15) 1 0#15 }

theorem inv_loopRun : Inv loopRun := inv_of_checked (by decide)

theorem wellFormed_loopRun : WellFormedModule loopRun := by
  refine ⟨by decide, fun i hi => ?_, [(0, 1)], by decide, by decide⟩
  match i, hi with
  | 0, _ => exact ⟨.loopStart, rfl⟩
  | 1, _ => exact ⟨.loopEnd, rfl⟩
  | _ + 2, h => exact absurd h (by simp [loopRun, run2, fetching])

theorem witness_EveryStepKeepsTheInvariant : Inv loopRun ∧ ∃ t, step loopRun = .next t ∧ t.ip = 1#15 :=
  ⟨inv_loopRun, _, rfl, rfl⟩

/-- Every mode has a state that satisfies `Inv` but for `WAIT_IN` and `ENCODING` with an open bracket, below. -/
theorem witness_NoStepStopsFromAGoodState : Inv loopRun ∧ Inv (withTurn (hostWrite 1 0x5D#32) (tiny .encoding)) :=
  ⟨inv_loopRun, inv_of_checked (by decide)⟩

/-- `WAIT_IN`, its `Input` at the last slot. -/
theorem witness_InvWhileWaiting : Inv { run2 1#15 1#15 2#15 7#8 0x0800#16 0#15 with mode := .waitIn } :=
  inv_of_checked (by decide)

/-- `ENCODING`, one bracket open, `LEN` and `SP` at their bounds. -/
theorem witness_InvWhileEncoding : Inv { tiny .encoding with
    len := 2#15, sp := 1#15, stack := Memory.write ⟨.free 3, []⟩ 0 1#15 } := inv_of_checked (by decide)

/-! ### Errors and writers -/

/-- An interpreter error, an encoder error and a failed response, each entering `FAULT`; `CLEAR`, which leaves it;
and a turn of the environment in it. -/
theorem witness_RaiseWritesOnlyTheFaultState :
    (let s := run2 0#15 1#15 2#15 0#8 0x0201#16 0#15
     s.mode = .running ∧ (nextOf (step s)).map (fun t => (t.mode, t.err)) = some (.fault, .pointerOutOfBounds)) ∧
    (let s := withTurn (hostWrite 1 0x5D#32) (tiny .encoding)
     s.mode = .encoding ∧ (nextOf (step s)).map (fun t => (t.mode, t.err)) = some (.fault, .unmatchedCloseBracket)) ∧
    (let s := { tiny .waitIn with inputs := ⟨[.fail, .eof], .silent⟩ }
     (nextOf (step s)).map (fun t => (t.mode, t.err, t.inputs)) = some (.fault, .inputFailed, ⟨[.eof], .silent⟩)) ∧
    (let s := withTurn (hostWrite 0 8#32) { tiny .fault with err := .badJumpTarget }
     s.mode = .fault ∧ (nextOf (step s)).map (·.mode) = some .idle) ∧
    (let s := withTurn .input { tiny .fault with err := .badJumpTarget }
     s.mode = .fault ∧ s.turn = .input) := by decide

/-- The module `<`, well-formed, whose run faults at once. -/
theorem witness_WellFormedRunFaultsOnlyByPointerOrInput : let s := run2 0#15 0#15 1#15 0#8 0x0101#16 0#15
    Inv s ∧ WellFormedModule s ∧ s.mode = .running ∧ ∃ t, step s = .next t ∧ t.mode = .fault := by
  refine ⟨inv_of_checked (by decide), ⟨by decide, fun i hi => ?_, [], by decide, by decide⟩, rfl, _, rfl, rfl⟩
  match i, hi with
  | 0, _ => exact ⟨.moveLeft 1#8, rfl⟩
  | _ + 1, h => exact absurd h (by simp [run2, fetching])

theorem witness_ModuleIsImmutableDuringARun : let s := withTurn (.host (.writeArray .imem 0 0#32)) loopRun
    s.mode = .running ∧ s.turn ≠ .reset ∧ ∃ t, step s = .next t := ⟨rfl, by decide, _, rfl⟩

theorem witness_DataPointerStaysInRangeAndOnlyMovesWriteIt :
    (let s := run2 0#15 0#15 1#15 0#8 0x0201#16 0#15
     ∃ t, step s = .next t ∧ t.dp ≠ s.dp) ∧
    (let s := withTurn (hostWrite 0 4#32) { tiny .done with dp := 1#15 }
     ∃ t, step s = .next t ∧ t.dp ≠ s.dp) ∧
    (let s := withTurn .reset { tiny .done with dp := 1#15 }
     ∃ t, step s = .next t ∧ t.dp ≠ s.dp) :=
  ⟨⟨_, rfl, by decide⟩, ⟨_, rfl, by decide⟩, ⟨_, rfl, by decide⟩⟩

theorem witness_OnlyItsWritersChangeTheTape :
    (let s := run2 0#15 1#15 1#15 0#8 0x0301#16 0#15
     ∃ t, step s = .next t ∧ t.tape.read 1 ≠ s.tape.read 1) ∧
    (let s := withTurn (hostWrite 0 4#32) { tiny .done with tape := ⟨.const 1#8, []⟩ }
     ∃ t, step s = .next t ∧ t.tape.read 1 ≠ s.tape.read 1) ∧
    (let s := { tiny .waitIn with dp := 1#15, inputs := ⟨[.byte 5#8], .silent⟩ }
     ∃ t, step s = .next t ∧ t.tape.read 1 ≠ s.tape.read 1) :=
  ⟨⟨_, rfl, by decide⟩, ⟨_, rfl, by decide⟩, ⟨_, rfl, by decide⟩⟩

/-- The `Output` at the last slot below `LEN`, which sends, and a `RUN_START`. -/
theorem witness_OnlyOutputSendsBytes :
    (let s := run2 1#15 1#15 2#15 3#8 0x0700#16 0#15
     s.turn = .device ∧ s.mode = .running ∧ s.ip.toNat < s.len.toNat ∧
      decode (s.imem.read s.ip.toNat) = .ok .output ∧ ∃ t, step s = .next t ∧ t.outputs = [3#8]) ∧
    (∃ t, step (withTurn (hostWrite 0 4#32) { tiny .done with outputs := [3#8] }) = .next t ∧ t.outputs = []) :=
  ⟨⟨rfl, rfl, by decide, rfl, _, rfl, rfl⟩, _, rfl, rfl⟩

/-! ### The host interface -/

theorem witness_StatusReadShowsItsFields : (withTurn (.host (.readReg 2)) (tiny .fault)).turn = .host (.readReg 2) := rfl

/-- Each register read; a write of `LEN` at `HEAPSIZE`, one past it, and in a busy mode; a write of a read-only one. -/
theorem witness_LenIpDpDepthRegisters : (tiny .idle).cfg.legal ∧
    (∀ i ∈ [3, 4, 5, 6], (withTurn (.host (.readReg i)) (tiny .running)).turn = .host (.readReg i)) ∧
    ((tiny .idle).mode.quiet = true ∧ (2#32).toNat ≤ (tiny .idle).cfg.heapSize ∧
      (withTurn (hostWrite 3 2#32) (tiny .idle)).turn = .host (.writeReg 3 2#32)) ∧
    ((tiny .idle).cfg.heapSize < (3#32).toNat ∧ (tiny .encoding).mode.quiet = false) ∧
    (withTurn (hostWrite 4 9#32) (tiny .idle)).turn = .host (.writeReg 4 9#32) := by decide

theorem witness_RegisterIndexMap :
    (∀ i ∈ [0, 1, 7], (withTurn (.host (.readReg i)) (tiny .idle)).turn = .host (.readReg i)) ∧
    (∀ i ∈ [2, 4, 5, 6, 7], (withTurn (hostWrite i 1#32) (tiny .idle)).turn = .host (.writeReg i 1#32)) := by decide

/-- The last index in a quiet mode; one past it; an index in range in a busy mode. -/
theorem witness_ArrayPorts : (tiny .idle).cfg.legal ∧ ((tiny .done).mode.quiet = true ∧ 1 < (tiny .done).cfg.heapSize) ∧
    ((tiny .done).cfg.heapSize ≤ 2 ∧ (tiny .running).mode.quiet = false) ∧
    (∀ p ∈ [HostArray.imem, .jt, .tape],
      (withTurn (.host (.readArray p 1)) (tiny .idle)).turn = .host (.readArray p 1) ∧
      (withTurn (.host (.writeArray p 1 5#32)) (tiny .idle)).turn = .host (.writeArray p 1 5#32)) := by decide

theorem witness_BusyModuleWritesAreLost : ∀ m ∈ [Mode.encoding, .running, .waitIn],
    (withTurn (hostWrite 3 1#32) (tiny m)).mode = m ∧ (withTurn (hostWrite 3 1#32) (tiny m)).turn = .host (.writeReg 3 1#32) ∧
    (withTurn (.host (.writeArray .jt 0 1#32)) (tiny m)).turn = .host (.writeArray .jt 0 1#32) := by decide

theorem witness_CommandsOutsideTheirModesAreIgnored :
    (∀ v : HostWord, (withTurn (hostWrite 0 v) (tiny .running)).turn = .host (.writeReg 0 v)) ∧
    (1#32).extractLsb' 0 4 = 1#4 ∧ (2#32).extractLsb' 0 4 = 2#4 ∧ (4#32).extractLsb' 0 4 = 4#4 ∧
    (8#32).extractLsb' 0 4 = 8#4 ∧ (tiny .running).mode ≠ .idle ∧ (tiny .running).mode ≠ .done ∧
    (tiny .running).mode ≠ .fault ∧ (tiny .running).mode ≠ .encoding :=
  ⟨fun _ => rfl, rfl, rfl, rfl, rfl, by decide, by decide, by decide, by decide⟩

/-- `CLEAR` in the three quiet modes, and a write with no command bit, with two, with four, and with bit 4 alone. -/
theorem witness_ClearAndMalformedCtrlWrites :
    (∀ m : Mode, (withTurn (hostWrite 0 8#32) (tiny m)).turn = .host (.writeReg 0 8#32)) ∧
    (tiny .idle).mode = .idle ∧ (tiny .done).mode = .done ∧ (tiny .fault).mode = .fault ∧
    (0#32).extractLsb' 0 4 = 0#4 ∧ (3#32).extractLsb' 0 4 = 3#4 ∧ (15#32).extractLsb' 0 4 = 15#4 ∧
    (16#32).extractLsb' 0 4 = 0#4 := ⟨fun _ => rfl, rfl, rfl, rfl, rfl, rfl, rfl, rfl⟩

theorem witness_RunStartBeginsAFreshRun : ∀ m ∈ [Mode.idle, .done], let s := withTurn (hostWrite 0 4#32) (tiny m)
    s.turn = .host (.writeReg 0 4#32) ∧ (4#32).extractLsb' 0 4 = 4#4 ∧ s.mode = m := by decide

theorem witness_ResetFromAnyMode : (withTurn .reset (tiny .waitIn)).turn = .reset ∧ (tiny .waitIn).mode = .waitIn ∧
    (tiny .encoding).mode ≠ .waitIn := by decide

/-! ### The encoder -/

theorem witness_EncStartDiscardsTheModule : ∀ m ∈ [Mode.idle, .done], let s := withTurn (hostWrite 0 1#32) (tiny m)
    s.turn = .host (.writeReg 0 1#32) ∧ (1#32).extractLsb' 0 4 = 1#4 ∧ s.cfg.hasEncoder = true ∧ s.mode = m := by decide

theorem witness_SrcTakesOneByte :
    (let s := withTurn (hostWrite 1 0x12B#32) (tiny .encoding)
     s.turn = .host (.writeReg 1 0x12B#32) ∧ s.cfg.hasEncoder = true ∧ s.mode = .encoding) ∧
    (withTurn (hostWrite 1 0x2B#32) (tiny .idle)).mode ≠ .encoding := by decide

/-- A run that goes on at 254; none pending; another operator, and the same one at 255, with the last slot free and
with none. -/
theorem witness_FoldCharactersRunLengthEncode : foldOp 0x2B#8 = some .increment ∧
    ((enc 0#15 0#15 (some .increment) 254#8).runOp = some .increment ∧
      (enc 0#15 0#15 (some .increment) 254#8).runCnt.toNat < 255) ∧
    (enc 0#15 0#15 none 0#8).runOp = none ∧
    (let s := enc 29999#15 0#15 (some .moveLeft) 1#8
     s.runOp = some .moveLeft ∧ FoldOp.moveLeft ≠ .increment ∧ s.len.toNat < s.cfg.heapSize) ∧
    (let s := enc 30000#15 0#15 (some .increment) 255#8
     s.runOp = some .increment ∧ s.runCnt.toNat = 255 ∧ s.len.toNat = s.cfg.heapSize) := by decide

theorem witness_PendingRunIsFlushedFirst : foldOp 0x5B#8 = none ∧
    (let s := enc 29999#15 0#15 (some .decrement) 1#8
     s.runOp = some .decrement ∧ s.len.toNat < s.cfg.heapSize) ∧
    (let s := enc 30000#15 0#15 (some .decrement) 255#8
     s.runOp = some .decrement ∧ s.len.toNat = s.cfg.heapSize) := by decide

theorem witness_SingleAndCommentBytes :
    ((enc 29999#15 0#15 none 0#8).runOp = none ∧ (enc 29999#15 0#15 none 0#8).len.toNat < (enc 29999#15 0#15 none 0#8).cfg.heapSize) ∧
    (enc 30000#15 0#15 none 0#8).len.toNat = (enc 30000#15 0#15 none 0#8).cfg.heapSize ∧
    0x61#8 ∉ [0x3C#8, 0x3E#8, 0x2D#8, 0x2B#8, 0x2E#8, 0x2C#8, 0x5B#8, 0x5D#8] := by decide

theorem witness_OpenBracketPushesItsSlot :
    (let s := enc 29999#15 29999#15 none 0#8
     s.runOp = none ∧ s.sp.toNat < s.cfg.stackSize ∧ s.len.toNat < s.cfg.heapSize) ∧
    (enc 0#15 30000#15 none 0#8).sp.toNat = (enc 0#15 30000#15 none 0#8).cfg.stackSize ∧
    (enc 30000#15 0#15 none 0#8).len.toNat = (enc 30000#15 0#15 none 0#8).cfg.heapSize := by decide

theorem witness_CloseBracketWritesThePair :
    (let s := { enc 29999#15 30000#15 none 0#8 with stack := Memory.write ⟨.free 3, []⟩ 29999 29998#15 }
     s.runOp = none ∧ s.sp ≠ 0#15 ∧ s.len.toNat < s.cfg.heapSize ∧ (s.sp - 1#15).toNat < s.cfg.stackSize ∧
     s.stack.read (s.sp - 1#15).toNat = 29998#15 ∧ (29998#15).toNat < s.len.toNat) ∧
    (enc 30000#15 0#15 none 0#8).sp = 0#15 ∧
    ((enc 30000#15 1#15 none 0#8).sp ≠ 0#15 ∧ (enc 30000#15 1#15 none 0#8).len.toNat = (enc 30000#15 1#15 none 0#8).cfg.heapSize) := by
  decide

/-- With the stack empty, and with one bracket open. -/
theorem witness_EncEndFinishesOrRaises : ∀ p : Slot, let s := withTurn (hostWrite 0 2#32) (enc 1#15 p none 0#8)
    s.turn = .host (.writeReg 0 2#32) ∧ (2#32).extractLsb' 0 4 = 2#4 ∧ s.cfg.hasEncoder = true ∧ s.mode = .encoding ∧
    s.runOp = none ∧ s.sp = p := fun _ => ⟨rfl, rfl, rfl, rfl, rfl, rfl⟩

/-- One slot written, a bracket open at it, and a `]` to come. -/
def closing : State := withTurn (hostWrite 1 0x5D#32)
  { enc 1#15 1#15 none 0#8 with stack := Memory.write ⟨.free 3, []⟩ 0 0#15 }

theorem witness_EncoderFrameInEncoding : closing.mode = .encoding ∧ closing.turn ≠ .reset ∧
    ∃ t, step closing = .next t ∧ t.jt.read 0 = 1#15 := ⟨rfl, by decide, _, rfl, rfl⟩

/-- A full module; a pending run that fills it; a full stack. -/
theorem witness_SourceTooLargeOnlyAtCapacity :
    (let s := withTurn (hostWrite 1 0x2E#32) { tiny .encoding with len := 2#15 }
     Inv s ∧ s.mode = .encoding ∧ ∃ t, step s = .next t ∧ t.mode = .fault ∧ t.err = .sourceTooLarge) ∧
    (let s := withTurn (hostWrite 1 0x2E#32) { tiny .encoding with len := 1#15, runOp := some .increment, runCnt := 1#8 }
     Inv s ∧ s.mode = .encoding ∧ ∃ t, step s = .next t ∧ t.mode = .fault ∧ t.err = .sourceTooLarge) ∧
    (let s := withTurn (hostWrite 1 0x5B#32)
       { tiny .encoding with len := 1#15, sp := 1#15, stack := Memory.write ⟨.free 3, []⟩ 0 0#15 }
     Inv s ∧ s.mode = .encoding ∧ s.sp.toNat = s.cfg.stackSize ∧ ∃ t, step s = .next t ∧ t.mode = .fault ∧ t.err = .sourceTooLarge) :=
  ⟨⟨inv_of_checked (by decide), rfl, _, rfl, rfl, rfl⟩, ⟨inv_of_checked (by decide), rfl, _, rfl, rfl, rfl⟩,
   inv_of_checked (by decide), rfl, rfl, _, rfl, rfl, rfl⟩

/-- The turns of an encode of `[]`: between the `SRC` writes a read, an ignored `LEN` write, an ignored `RUN_START`
and a turn of the device. -/
def busyTurns : List Turn :=
  [hostWrite 1 0x5B#32, .host (.readReg 2), hostWrite 3 0#32, hostWrite 0 4#32, .device, hostWrite 1 0x5D#32]

/-- The source `[]` encoded in a block of two slots, its bytes written at once or with other turns between them, and
the source `]`, which raises. -/
theorem witness_StreamingEncoderEqualsEncode :
    (∀ mid ∈ [[hostWrite 1 0x5B#32, hostWrite 1 0x5D#32], busyTurns, [hostWrite 1 0x5D#32]],
      ∀ x ∈ mid, x ≠ .reset ∧ x ≠ hostWrite 0 2#32) ∧
    busyTurns.filterMap Turn.srcByte = [0x5B#8, 0x5D#8] ∧ [hostWrite 1 0x5D#32].filterMap Turn.srcByte = [0x5D#8] ∧
    (tiny .done).cfg.legal ∧ (tiny .done).cfg.hasEncoder = true ∧
    encodeSource (tiny .done).cfg [0x5B#8, 0x5D#8] = .ok ⟨[], [0x0500#16, 0x0600#16], [(0, 1), (1, 0)]⟩ ∧
    encodeSource (tiny .done).cfg [0x5D#8] = .error .unmatchedCloseBracket := by decide

/-- No `CTRL` write among them is an `ENC_END`. -/
theorem witness_StreamingEncoder_no_end : ∀ x ∈ busyTurns, ∀ u : HostWord, x = .host (.writeReg 0 u) →
    u.extractLsb' 0 4 ≠ 2#4 := by
  simp [busyTurns, hostWrite]

/-- The script of a source is such a run of turns. -/
theorem witness_encodeScript : encodeScript [0x5B#8, 0x5D#8] =
    hostWrite 0 1#32 :: ([hostWrite 1 0x5B#32, hostWrite 1 0x5D#32] ++ hostWrite 0 2#32 :: []) := rfl

/-- `[]`, with other turns between its bytes, then `ENC_END`. -/
def encodeBusily : State := { tiny .idle with agenda := hostWrite 0 1#32 :: (busyTurns ++ [hostWrite 0 2#32]) }

theorem witness_EncodedModulesAreWellFormed : encodeBusily.cfg.legal ∧ encodeBusily.cfg.hasEncoder = true ∧
    encodeBusily.mode = .idle ∧ encodeBusily.turn = .host (.writeReg 0 1#32) ∧
    (∀ k, k ≤ 6 → ∀ u, Sys2Proof.core.run (k + 1) encodeBusily = .next u → u.mode = .encoding) ∧
    ∃ t, Sys2Proof.core.run (6 + 2) encodeBusily = .next t ∧ t.mode = .idle ∧ t.len = 2#15 := by
  refine ⟨by decide, rfl, rfl, rfl, fun k hk u h => ?_, _, rfl, rfl, rfl⟩
  match k, hk with
  | 0, _ | 1, _ | 2, _ | 3, _ | 4, _ | 5, _ | 6, _ => cases h; rfl
  | k + 7, hk => omega

theorem witness_JumpTableIsSymmetric : WellFormedModule loopRun ∧ (0 < loopRun.len.toNat ∧ isOpen (loopRun.imem.read 0) = true) ∧
    (1 < loopRun.len.toNat ∧ isClose (loopRun.imem.read 1) = true) := ⟨wellFormed_loopRun, by decide, by decide⟩

theorem witness_RunOfKCharactersGivesItsPieces : foldOp 0x2D#8 = some .decrement ∧ (510 + 254) / 255 ≤ 2 ∧
    (1 + 254) / 255 ≤ (tiny .idle).cfg.heapSize := by decide

/-! ### Runs -/

theorem witness_BranchLandsJustPastThePartner :
    (Inv loopRun ∧ WellFormedModule loopRun ∧ loopRun.mode = .running ∧ loopRun.agenda = [] ∧
      loopRun.ip.toNat < loopRun.len.toNat ∧ isOpen (loopRun.imem.read loopRun.ip.toNat) = true ∧
      loopRun.tape.read loopRun.dp.toNat = 0#8) ∧
    (let s := { loopRun with ip := 1#15, tape := Memory.write ⟨.const 0#8, []⟩ 0 1#8 }
     Inv s ∧ s.mode = .running ∧ s.agenda = [] ∧ s.ip.toNat < s.len.toNat ∧
      isClose (s.imem.read s.ip.toNat) = true ∧ s.tape.read s.dp.toNat ≠ 0#8) :=
  ⟨⟨inv_loopRun, wellFormed_loopRun, by decide⟩,
   ⟨inv_of_checked (by decide), by decide⟩⟩

/-- `loopRun`'s module before a run, in two blocks that differ in tape, pointers and encoder registers. -/
theorem witness_RunsOfOneModuleAgree :
    let s := withTurn (hostWrite 0 4#32) { loopRun with mode := .idle }
    let s' := withTurn (hostWrite 0 4#32)
      { loopRun with mode := .done, ip := 2#15, dp := 1#15, tape := Memory.write ⟨.const 0#8, []⟩ 0 9#8, runOp := some .increment, runCnt := 3#8 }
    Inv s ∧ Inv s' ∧ NoFault s ∧ NoFault s' ∧ s'.cfg = s.cfg ∧ SameModule s s' ∧ s'.inputs = s.inputs ∧
    s.agenda = [hostWrite 0 4#32] ∧ s'.agenda = [hostWrite 0 4#32] :=
  ⟨inv_of_checked (by decide),
   inv_of_checked (by decide), .inl rfl, .inr rfl, rfl, ⟨rfl, fun _ _ => rfl, fun _ _ _ => rfl⟩, rfl, rfl, rfl⟩

theorem witness_WidthsAreTheLeast : Config.hardware.legal ∧ Config.hardware.heapSize < 2 ^ 15 ∧
    Config.hardware.stackSize < 2 ^ 15 ∧ (Config.mk 1 32767 .zero false).legal := by decide

/-- Completion; in `DONE` a write of a `LEN` below `IP`, the one step with `IP > LEN` after it; and one that leaves
`DONE` as it was. -/
theorem witness_IpExceedsLenOnlyByAHostWriteInDone :
    (let s := { tiny .running with ip := 2#15, len := 2#15 }
     Checked s ∧ IpWithinLen s ∧ s.mode ≠ .done ∧
      (nextOf (step s)).map (fun t => (t.mode, t.ip, t.len)) = some (.done, 2#15, 2#15)) ∧
    (let s := withTurn (hostWrite 3 1#32) { tiny .done with ip := 2#15, len := 2#15 }
     Checked s ∧ IpWithinLen s ∧
      (nextOf (step s)).map (fun t => (t.mode, t.ip, t.len)) = some (.done, 2#15, 1#15)) ∧
    (let s := withTurn (.host (.readReg 4)) { tiny .done with ip := 2#15, len := 2#15 }
     Checked s ∧ (nextOf (step s)).map (fun t => (t.mode, t.ip, t.len)) = some (.done, 2#15, 2#15)) :=
  ⟨by decide, by decide, by decide⟩

/-! ### An endless fair execution: `+[,]` with an environment that answers 1 over and over -/

/-- `+[,]` at `IP`, in mode `m`, its cell holding `v`. -/
def echo (m : Mode) (ip : Slot) (v : Byte) : State :=
  { runAt ip 0#15 4#15 v with
    mode := m
    inputs := ⟨[], .always (.byte 1#8)⟩
    imem := (((Memory.write ⟨.free 1, []⟩ 0 0x0401#16).write 1 0x0500#16).write 2 0x0800#16).write 3 0x0600#16
    jt := (Memory.write ⟨.free 2, []⟩ 1 3#15).write 3 1#15 }

/-- The four instants of one turn of the loop. -/
def echoLap (k : Nat) : State :=
  match k with
  | 0 => echo .running 1#15 1#8
  | 1 => echo .running 2#15 1#8
  | 2 => echo .waitIn 2#15 1#8
  | _ => echo .running 3#15 1#8

def echoRun (n : Nat) : State :=
  match n with
  | 0 => echo .running 0#15 0#8
  | n + 1 => echoLap (n % 4)

def echoTurns (n : Nat) : Turn := (echoRun n).turn

theorem echoRun_succ (n : Nat) : ∃ k, k < 4 ∧ n % 4 = k ∧ echoRun (n + 1) = echoLap k ∧
    echoRun (n + 2) = echoLap ((k + 1) % 4) :=
  ⟨n % 4, by omega, rfl, rfl, by simp [echoRun]⟩

theorem echo_execution : Execution echoTurns echoRun := by
  intro n
  cases n with
  | zero => rfl
  | succ n =>
    obtain ⟨k, hk, -, h, h'⟩ := echoRun_succ n
    rw [echoTurns, h, h']
    match k, hk with
    | 0, _ | 1, _ | 2, _ | 3, _ => rfl

/-- At every instant the device has the turn, in `RUNNING`, or the environment has it and a response to give. -/
theorem echoRun_turns (n : Nat) : ((echoRun n).mode = .running ∧ echoTurns n = .device) ∨
    ((echoRun n).mode = .waitIn ∧ echoTurns n = .input ∧ (echoRun n).inputs.next ≠ none) := by
  cases n with
  | zero => exact .inl ⟨rfl, rfl⟩
  | succ n =>
    obtain ⟨k, hk, -, h, -⟩ := echoRun_succ n
    rw [echoTurns, h]
    match k, hk with
    | 0, _ | 1, _ | 2, _ | 3, _ => decide

/-- The execution meets both fairness premises, every request in it is answered with 1, and it never ends. -/
theorem test_fair_execution_that_never_ends : Execution echoTurns echoRun ∧ FairInput echoTurns echoRun ∧
    FairDevice echoTurns echoRun ∧ ∀ n, (echoRun n).mode = .running ∨ (echoRun n).mode = .waitIn := by
  refine ⟨echo_execution, fun n hn => ?_, fun n hn => ?_, fun n => (echoRun_turns n).imp And.left And.left⟩ <;>
    rcases echoRun_turns n with ⟨hm, ht⟩ | ⟨hm, ht, hi⟩
  · simp [hm] at hn
  · exact ⟨n, Nat.le_refl n, fun k h1 h2 => Nat.le_antisymm h2 h1 ▸ hn, ht, hi⟩
  · exact ⟨n, Nat.le_refl n, .inl ht⟩
  · simp [hm] at hn

/-- A `WAIT_IN` ended by a reset is no answered one (log 15). -/
theorem test_reset_answers_nothing (turns : Nat → Turn) (run : Nat → State) (n : Nat) (h : turns n = .reset)
    (hi : (run (n + 1)).mode = .idle) : ¬ ∃ m, AnsweredAt turns run n m := by
  rintro ⟨m, hm, hw, ht, -⟩
  rcases Nat.eq_or_lt_of_le hm with rfl | hlt
  · rw [h] at ht; cases ht
  · have := hw (n + 1) (by omega) hlt
    rw [hi] at this; cases this

end Sys2Proof.Tests
end

section
/-! PROOF. The widths of a build (00_scope.md R9): `IW` and `SW` are characterised by which widths are wide enough,
and that they are the least such widths follows. -/

namespace Sys2Proof

namespace Config

/-- A width is at least `IW` exactly when it holds `0..HEAPSIZE`. -/
theorem iw_le_iff {c : Config} (hc : c.legal) {w : Nat} : c.iw ≤ w ↔ c.heapSize < 2 ^ w := by
  obtain ⟨hpos, _⟩ := hc
  exact Nat.log2_lt (Nat.ne_of_gt hpos)

/-- A width is at least `SW` exactly when it holds `0..STACKSIZE`. -/
theorem sw_le_iff {c : Config} (hc : c.legal) {w : Nat} : c.sw ≤ w ↔ c.stackSize < 2 ^ w := by
  obtain ⟨_, _, hpos, _⟩ := hc
  exact Nat.log2_lt (Nat.ne_of_gt hpos)

theorem hardware_iw : hardware.iw = 15 := by decide

theorem hardware_sw : hardware.sw = 15 := by decide

end Config

/-- Settles O59: a width holds the range exactly when it is at least `IW` (`SW`), so that width itself is the least. -/
theorem widthsAreTheLeast : Obligations.WidthsAreTheLeast := by
  intro c hc
  have heapFits : c.heapSize < 2 ^ c.iw := (Config.iw_le_iff hc).mp (Nat.le_refl _)
  have stackFits : c.stackSize < 2 ^ c.sw := (Config.sw_le_iff hc).mp (Nat.le_refl _)
  exact ⟨heapFits, fun _ => (Config.iw_le_iff hc).mpr, stackFits, fun _ => (Config.sw_le_iff hc).mpr,
    Config.hardware_iw, Config.hardware_sw⟩

end Sys2Proof
end

section
/-! PROOF. Every step of every agent keeps the invariant: one rule per field a step may write, with the bound the
write has to meet, and then each step as a composition of those writes. -/

namespace Sys2Proof.Machine

variable {s t : State}

/-! ## Bounds on slots -/

theorem legal_heapSize_le {c : Config} (hc : c.legal) : c.heapSize ≤ 32767 := hc.2.1

theorem legal_stackSize_le {c : Config} (hc : c.legal) : c.stackSize ≤ 32767 := hc.2.2.2

/-- Below another slot the successor does not wrap. -/
theorem toNat_succ_le {x y : Slot} (h : x.toNat < y.toNat) : (x + 1#15).toNat ≤ y.toNat := by
  have hy := y.isLt
  rw [toNat_succ (by omega)]
  exact h

theorem slot_toNat_ofNat_le (n : Nat) : (BitVec.ofNat 15 n : Slot).toNat ≤ n := by
  rw [BitVec.toNat_ofNat]
  exact Nat.mod_le _ _

/-! ## One rule per field written -/

theorem Inv.popTurn (h : Inv s) : Inv s.popTurn := { h with }

theorem Inv.record (h : Inv s) (v : HostWord) : Inv (s.record v) := { h with }

theorem Inv.setInputs (h : Inv s) (rs : Source) : Inv { s with inputs := rs } := { h with }

theorem Inv.setOutputs (h : Inv s) (bs : List Byte) : Inv { s with outputs := bs } := { h with }

theorem Inv.setDp (h : Inv s) {d : Slot} (hd : d.toNat < s.cfg.heapSize) : Inv { s with dp := d } :=
  { h with dp_lt := hd }

/-- In `RUNNING` the pointer may go anywhere up to `LEN`. -/
theorem Inv.setIp (h : Inv s) (hm : s.mode = .running) {i : Slot} (hi : i.toNat ≤ s.len.toNat) :
    Inv { s with ip := i } :=
  { h with
    ip_le_heap := Nat.le_trans hi h.len_le
    ip_le := fun _ => hi
    ip_input := fun hw => by simp [hm] at hw }

theorem Inv.setRun (h : Inv s) {op : Option FoldOp} {n : BitVec 8} (hr : op = none ↔ n = 0#8) :
    Inv { s with runOp := op, runCnt := n } := { h with run_iff := hr }

theorem Inv.writeTape (h : Inv s) {a : Nat} (ha : a < s.cfg.heapSize) (v : Byte) :
    Inv { s with tape := s.tape.write a v } :=
  { h with
    tape_wf := Memory.write_wf h.tape_wf a v
    tape_within := Memory.write_within h.tape_within ha v
    tape_fresh := fun hm => (Memory.write_fill s.tape a v).trans (h.tape_fresh hm) }

theorem Inv.writeJt (h : Inv s) {a : Nat} (ha : a < s.cfg.heapSize) (v : Slot) :
    Inv { s with jt := s.jt.write a v } :=
  { h with
    jt_wf := Memory.write_wf h.jt_wf a v
    jt_within := Memory.write_within h.jt_within ha v }

/-- No word is written while a request is outstanding, so the `Input` at `IP` stays. -/
theorem Inv.writeImem (h : Inv s) (hm : s.mode ≠ .waitIn) {a : Nat} (ha : a < s.cfg.heapSize) (w : IWord) :
    Inv { s with imem := s.imem.write a w } :=
  { h with
    imem_wf := Memory.write_wf h.imem_wf a w
    imem_within := Memory.write_within h.imem_within ha w
    ip_input := fun hw => absurd hw hm }

/-! ## The modes -/

/-- In a quiet mode `LEN` has only its range to keep, and `ERR` tells `FAULT` from the other two. -/
theorem Inv.setQuiet (h : Inv s) {m : Mode} {e : Err} {l : Slot} (hq : m.quiet = true)
    (he : e ≠ .none ↔ m = .fault) (hl : l.toNat ≤ s.cfg.heapSize) : Inv { s with mode := m, err := e, len := l } :=
  { h with
    len_le := hl
    ip_le := by rintro rfl; cases hq
    ip_input := by rintro rfl; cases hq
    err_iff := he
    stack_lt := by rintro rfl; cases hq
    tape_fresh := by rintro (rfl | rfl) <;> cases hq }

theorem Inv.err_eq_none (h : Inv s) (hm : s.mode ≠ .fault) : s.err = .none := by
  by_contra he
  exact hm (h.err_iff.mp he)

/-- An error other than none is taken in any mode; an encoder error lowers `LEN`. -/
theorem Inv.enterFault (h : Inv s) {e : Err} (he : e ≠ .none) : Inv (s.enterFault e) := by
  refine h.setQuiet rfl (by simp [he]) ?_
  split
  · exact Nat.zero_le _
  · exact h.len_le

theorem Inv.leaveFault (h : Inv s) : Inv s.leaveFault := h.setQuiet rfl (by simp) h.len_le

theorem Inv.setLen (h : Inv s) (hq : s.mode.quiet = true) {l : Slot} (hl : l.toNat ≤ s.cfg.heapSize) :
    Inv { s with len := l } := h.setQuiet hq h.err_iff hl

theorem Inv.complete (h : Inv s) (hm : s.mode = .running) : Inv { s with mode := .done } :=
  h.setQuiet rfl (by simp [h.err_eq_none (by simp [hm])]) h.len_le

theorem Inv.endEncode (h : Inv s) (hm : s.mode = .encoding) : Inv { s with mode := .idle } :=
  h.setQuiet rfl (by simp [h.err_eq_none (by simp [hm])]) h.len_le

theorem Inv.startRun (h : Inv s) : Inv s.startRun :=
  { h with
    tape_wf := Memory.wf_empty _
    tape_within := Memory.within_empty _ _
    dp_lt := h.cfg_legal.1
    ip_le_heap := Nat.zero_le _
    ip_le := fun _ => Nat.zero_le _
    ip_input := nofun
    err_iff := by simp
    stack_lt := nofun
    tape_fresh := fun _ => rfl }

theorem Inv.startEncode (h : Inv s) : Inv s.startEncode :=
  { h with
    len_le := Nat.zero_le _
    sp_le := Nat.zero_le _
    ip_le := nofun
    ip_input := nofun
    err_iff := by simp
    run_iff := by simp
    stack_lt := fun _ _ hk => absurd hk (Nat.not_lt_zero _)
    tape_fresh := nofun }

/-- `Input` dispatched at `IP`: the request is that of the word there. -/
theorem Inv.request (h : Inv s) (hm : s.mode = .running) (hl : s.ip.toNat < s.len.toNat)
    (hd : decode (s.imem.read s.ip.toNat) = .ok .input) : Inv { s with mode := .waitIn } :=
  { h with
    ip_le := nofun
    ip_input := fun _ => ⟨hl, hd⟩
    err_iff := by simp [h.err_eq_none (by simp [hm])]
    stack_lt := nofun
    tape_fresh := fun _ => h.tape_fresh (.inl hm) }

/-- The state after a reset needs of the state before only that its build is legal. -/
theorem inv_applyReset (h : s.cfg.legal) : Inv s.applyReset where
  cfg_legal := h
  tape_wf := Memory.wf_empty _
  imem_wf := Memory.wf_empty _
  jt_wf := Memory.wf_empty _
  stack_wf := Memory.wf_empty _
  tape_within := Memory.within_empty _ _
  imem_within := Memory.within_empty _ _
  jt_within := Memory.within_empty _ _
  stack_within := Memory.within_empty _ _
  dp_lt := h.1
  len_le := Nat.zero_le _
  sp_le := Nat.zero_le _
  ip_le_heap := Nat.zero_le _
  ip_le := nofun
  ip_input := nofun
  err_iff := by simp
  run_iff := by simp
  stack_lt := nofun
  tape_fresh := nofun

/-! ## The interpreter and the input environment -/

theorem Inv.advance (h : Inv s) (hm : s.mode = .running) (hl : s.ip.toNat < s.len.toNat) : Inv s.advance :=
  h.setIp hm (toNat_succ_le hl)

/-- A response ends the request one past the `Input`. -/
theorem Inv.resume (h : Inv s) (hm : s.mode = .waitIn) : Inv s.resume := by
  have hip := toNat_succ_le (h.ip_input hm).1
  exact { h with
    ip_le_heap := Nat.le_trans hip h.len_le
    ip_le := fun _ => hip
    ip_input := nofun
    err_iff := by simp [h.err_eq_none (by simp [hm])]
    stack_lt := nofun
    tape_fresh := fun _ => h.tape_fresh (.inr hm) }

theorem Inv.exec (h : Inv s) (hm : s.mode = .running) (hl : s.ip.toNat < s.len.toNat) {i : Instr}
    (hd : decode (s.imem.read s.ip.toNat) = .ok i) (hx : exec i s = .next t) : Inv t := by
  have hdp := h.dp_lt
  rcases exec_next hx with ⟨rfl, -⟩ | ⟨rfl, -, -⟩ | ⟨rfl, -⟩ | ⟨n, -, hn, rfl⟩ | ⟨n, -, hn, rfl⟩ |
    ⟨v, -, -, rfl⟩ | ⟨-, hj, rfl⟩ | ⟨-, -, rfl⟩ | ⟨rfl, rfl⟩
  · exact h.enterFault (by simp)
  · exact h.enterFault (by simp)
  · exact h.advance hm hl
  · exact (h.setDp (Nat.lt_of_le_of_lt (slot_toNat_ofNat_le _) (by omega))).advance hm hl
  · exact (h.setDp (Nat.lt_of_le_of_lt (slot_toNat_ofNat_le _) (by omega))).advance hm hl
  · exact (h.writeTape hdp v).advance hm hl
  · exact h.setIp hm (Nat.le_of_lt hj)
  · exact (h.setOutputs (s.outputs ++ [s.tape.read s.dp.toNat])).advance hm hl
  · exact h.request hm hl hd

theorem Inv.interpStep (h : Inv s) (hm : s.mode = .running) (hx : interpStep s = .next t) : Inv t := by
  rcases interpStep_next hx with ⟨-, rfl⟩ | ⟨hl, -, hx⟩
  · exact h.complete hm
  · rcases dispatch_next hx with ⟨i, hd, hx⟩ | ⟨e, -, rfl⟩
    · exact h.exec hm hl hd hx
    · exact h.enterFault (by simp)

theorem Inv.respond (h : Inv s) (hm : s.mode = .waitIn) {r : Response}
    (hx : settle s (respond r s) = .next t) : Inv t := by
  rcases respond_next hx with ⟨v, hd, -, rfl⟩ | ⟨-, -, rfl⟩ | ⟨-, rfl⟩
  · exact (h.writeTape hd v).resume hm
  · exact h.resume hm
  · exact h.enterFault (by simp)

theorem Inv.inputStep (h : Inv s) (hx : inputStep s = .next t) : Inv t := by
  rcases inputStep_next hx with ⟨-, rfl⟩ | ⟨hm, r, -, hx⟩
  · exact h
  · exact (h.setInputs s.inputs.rest).respond hm hx

/-! ## The encoder -/

/-- A word appended to the module: the open slots stay below the higher `LEN`. -/
theorem Inv.append (h : Inv s) (hm : s.mode = .encoding) (hl : s.len.toNat < s.cfg.heapSize) (w : IWord) :
    Inv { s with imem := s.imem.write s.len.toNat w, len := s.len + 1#15 } := by
  have hlen : (s.len + 1#15).toNat = s.len.toNat + 1 := toNat_succ (by have := legal_heapSize_le h.cfg_legal; omega)
  exact { h.writeImem (by simp [hm]) hl w with
    len_le := by rw [hlen]; exact hl
    ip_le := fun hr => by simp [hm] at hr
    ip_input := fun hw => by simp [hm] at hw
    stack_lt := fun _ k hk => by rw [hlen]; exact Nat.lt_succ_of_lt (h.stack_lt hm k hk) }

/-- A slot below `LEN` pushed on the bracket stack. -/
theorem Inv.push (h : Inv s) (hs : s.sp.toNat < s.cfg.stackSize) {o : Slot} (ho : o.toNat < s.len.toNat) :
    Inv { s with stack := s.stack.write s.sp.toNat o, sp := s.sp + 1#15 } := by
  have hsp : (s.sp + 1#15).toNat = s.sp.toNat + 1 := toNat_succ (by have := legal_stackSize_le h.cfg_legal; omega)
  exact { h with
    stack_wf := Memory.write_wf h.stack_wf _ o
    stack_within := Memory.write_within h.stack_within hs o
    sp_le := by rw [hsp]; exact hs
    stack_lt := fun hm k hk => by
      rw [hsp] at hk
      rw [Memory.read_write]
      split
      · exact ho
      · exact h.stack_lt hm k (by omega) }

theorem Inv.pop (h : Inv s) (h0 : s.sp ≠ 0#15) : Inv { s with sp := s.sp - 1#15 } := by
  have hsp : (s.sp - 1#15).toNat = s.sp.toNat - 1 := toNat_pred h0
  exact { h with
    sp_le := by rw [hsp]; exact Nat.le_trans (Nat.sub_le _ _) h.sp_le
    stack_lt := fun hm k hk => h.stack_lt hm k (by rw [hsp] at hk; omega) }

theorem Inv.emit (h : Inv s) (hm : s.mode = .encoding) {i : Instr} (hx : emit i s = .ok t) : Inv t := by
  obtain ⟨hl, rfl⟩ := emit_eq_ok.mp hx
  exact h.append hm hl _

theorem Inv.flush (h : Inv s) (hm : s.mode = .encoding) (hx : flush s = .ok t) : Inv t := by
  rcases flush_eq_ok.mp hx with ⟨-, rfl⟩ | ⟨op, -, hl, rfl⟩
  · exact h
  · exact (h.append hm hl _).setRun (by simp)

theorem Inv.openBracket (h : Inv s) (hm : s.mode = .encoding) (hx : openBracket s = .ok t) : Inv t := by
  obtain ⟨hs, hl, rfl⟩ := openBracket_eq_ok.mp hx
  have hlt : s.len.toNat < (s.len + 1#15).toNat := by
    rw [toNat_succ (by have := legal_heapSize_le h.cfg_legal; omega)]
    exact Nat.lt_succ_self _
  exact (h.append hm hl _).push hs hlt

theorem Inv.closeBracket (h : Inv s) (hm : s.mode = .encoding) (hx : closeBracket s = .ok t) : Inv t := by
  obtain ⟨h0, -, hl, ho, rfl⟩ := closeBracket_eq_ok.mp hx
  exact (((h.pop h0).writeJt ho _).writeJt hl _).append hm hl _

theorem Inv.encodeSingle (h : Inv s) (hm : s.mode = .encoding) {c : Byte} (hx : encodeSingle c s = .ok t) :
    Inv t := by
  rcases encodeSingle_cases c s with ⟨-, hc⟩ | ⟨-, hc⟩ | ⟨-, hc⟩ | ⟨-, hc⟩ | ⟨-, -, -, -, hc⟩ <;> rw [hc] at hx
  · exact h.emit hm hx
  · exact h.emit hm hx
  · exact h.openBracket hm hx
  · exact h.closeBracket hm hx
  · cases hx; exact h

theorem Inv.encodeByte (h : Inv s) (hm : s.mode = .encoding) {c : Byte} (hx : encodeByte c s = .ok t) : Inv t := by
  cases hc : continuesRun c s with
  | true =>
    rw [encodeByte_of_continues hc] at hx
    cases hx
    obtain ⟨op, hop, -, hn⟩ := continuesRun_iff.mp hc
    have hne : s.runCnt + 1#8 ≠ 0#8 := by bv_omega
    exact h.setRun (by simp [hop, hne])
  | false =>
    rw [encodeByte_of_not_continues hc, Eff.bind_eq_ok] at hx
    obtain ⟨u, hu, hx⟩ := hx
    have hInv := h.flush hm hu
    cases hf : foldOp c with
    | some op =>
      rw [afterRun_of_fold hf] at hx
      cases hx
      exact hInv.setRun (by simp)
    | none =>
      rw [afterRun_of_none hf] at hx
      exact hInv.encodeSingle ((flush_frame hu).2.1.trans hm) hx

theorem Inv.encodeEnd (h : Inv s) (hm : s.mode = .encoding) (hx : encodeEnd s = .ok t) : Inv t := by
  obtain ⟨u, hu, -, rfl⟩ := encodeEnd_eq_ok.mp hx
  exact (h.flush hm hu).endEncode ((flush_frame hu).2.1.trans hm)

/-! ## The host -/

theorem ne_none_of_isCompile {e : Err} (h : e.isCompile = true) : e ≠ .none := by rintro rfl; cases h

theorem Inv.writeReg (h : Inv s) {i : Nat} {v : HostWord} (hx : settle s (writeReg i v s) = .next t) : Inv t := by
  rcases writeReg_next hx with rfl | ⟨-, -, -, -, rfl⟩ | ⟨-, -, -, hm, hx⟩ | ⟨-, -, -, rfl⟩ | ⟨-, -, -, rfl⟩ |
    ⟨-, -, hm, hx⟩ | ⟨-, hq, hv, rfl⟩ | ⟨-, e, he, rfl, -⟩
  · exact h
  · exact h.startEncode
  · exact h.encodeEnd hm hx
  · exact h.startRun
  · exact h.leaveFault
  · exact h.encodeByte hm hx
  · exact h.setLen hq (Nat.le_trans (slot_toNat_ofNat_le _) hv)
  · exact h.enterFault (ne_none_of_isCompile he)

theorem Inv.writePort (h : Inv s) (p : HostArray) (i : Nat) (v : HostWord) : Inv (writePort p i v s) := by
  rcases writePort_cases p i v s with hp | ⟨ho, ⟨-, hp⟩ | ⟨-, hp⟩⟩ <;> rw [hp]
  · exact h
  · obtain ⟨hq, hi⟩ := portOpen_iff.mp ho
    exact h.writeImem (fun hw => by simp [hw, Mode.quiet] at hq) hi _
  · exact h.writeJt (portOpen_iff.mp ho).2 _

theorem Inv.hostStep (h : Inv s) {a : HostAccess} (hx : hostStep a s = .next t) : Inv t := by
  rcases hostStep_next hx with ⟨v, -, rfl⟩ | ⟨i, v, -, hx⟩ | ⟨p, i, v, -, rfl⟩
  · exact h.record v
  · exact h.writeReg hx
  · exact h.writePort p i v

/-- Settles O25, by the agent that has the turn: each agent's step is a composition of writes that keep `Inv`. -/
theorem everyStepKeepsTheInvariant : Obligations.EveryStepKeepsTheInvariant := by
  intro s t h hx
  rcases step_next hx with ⟨-, -, rfl⟩ | ⟨-, hm, hx⟩ | ⟨-, hx⟩ | ⟨a, -, hx⟩ | ⟨-, rfl⟩
  · exact h.popTurn
  · exact h.popTurn.interpStep hm hx
  · exact h.popTurn.inputStep hx
  · exact h.popTurn.hostStep hx
  · exact inv_applyReset h.popTurn.cfg_legal

/-- Settles O24: the reset state is what a reset leaves of this hardware, whose four arrays take draws 0 to 3. -/
theorem resetSatisfiesTheInvariant : Obligations.ResetSatisfiesTheInvariant := by
  have hc : Config.hardware.legal := by decide
  exact inv_applyReset (s := { State.reset with draws := 0 }) hc

end Sys2Proof.Machine
end

section
/-! PROOF. The host interface (10_state.md section 3): what a read of each register and array returns, and which
writes are taken. -/

namespace Sys2Proof.Machine

variable {s : State}

/-! ## The commands -/

/-- The one bit of `CTRL` bits[3:0] that gives each command (10_state.md R34). -/
def Command.bits : Command → BitVec 4
  | .encStart => 1#4
  | .encEnd => 2#4
  | .runStart => 4#4
  | .clear => 8#4

theorem command_eq_some {v : HostWord} {c : Command} : command v = some c ↔ v.extractLsb' 0 4 = c.bits := by
  simp only [command]
  generalize v.extractLsb' 0 4 = x
  cases c <;> revert x <;> decide

theorem command_eq_none {v : HostWord} : command v = none ↔ ∀ c : Command, v.extractLsb' 0 4 ≠ c.bits := by
  rw [Option.eq_none_iff_forall_ne_some]
  exact forall_congr' fun _ => not_congr command_eq_some

/-- A command that is accepted does what it stands for. -/
theorem writeCtrl_of_accepts {v : HostWord} {c : Command} (hc : v.extractLsb' 0 4 = c.bits)
    (ha : accepts s c = true) : writeCtrl v s = runCommand c s := by
  simp [writeCtrl, command_eq_some.mpr hc, ha]

/-- A command outside the modes that accept it is ignored (10_state.md R35). -/
theorem writeCtrl_of_not_accepts {v : HostWord} {c : Command} (hc : v.extractLsb' 0 4 = c.bits)
    (ha : accepts s c = false) : writeCtrl v s = .ok s := by
  simp [writeCtrl, command_eq_some.mpr hc, ha]

theorem writeCtrl_of_no_command {v : HostWord} (hc : ∀ c : Command, v.extractLsb' 0 4 ≠ c.bits) :
    writeCtrl v s = .ok s := by
  simp [writeCtrl, command_eq_none.mpr hc]

/-! ## A host access as a step -/

theorem readReg_popTurn (i : Nat) (s : State) : readReg i s.popTurn = readReg i s := rfl

theorem readPort_popTurn (p : HostArray) (i : Nat) (s : State) : readPort p i s.popTurn = readPort p i s := rfl

theorem step_of_readReg {i : Nat} (ht : s.turn = .host (.readReg i)) :
    step s = .next (s.popTurn.record (readReg i s)) := by
  rw [step_of_host ht, hostStep, readReg_popTurn]

theorem step_of_readArray {p : HostArray} {i : Nat} (ht : s.turn = .host (.readArray p i)) :
    step s = .next (s.popTurn.record (readPort p i s)) := by
  rw [step_of_host ht, hostStep, readPort_popTurn]

theorem step_of_writeReg {i : Nat} {v : HostWord} {x : Eff State} (ht : s.turn = .host (.writeReg i v))
    (hw : writeReg i v s.popTurn = x) : step s = settle s.popTurn x := by
  rw [step_of_host ht, hostStep, hw]

theorem step_of_writeArray {p : HostArray} {i : Nat} {v : HostWord} (ht : s.turn = .host (.writeArray p i v)) :
    step s = .next (writePort p i v s.popTurn) := by
  rw [step_of_host ht, hostStep]

/-- A write the block ignores leaves the state it found. -/
theorem step_of_ignored {i : Nat} {v : HostWord} (ht : s.turn = .host (.writeReg i v))
    (hw : writeReg i v s.popTurn = .ok s.popTurn) : step s = .next s.popTurn :=
  step_of_writeReg ht hw

/-! ## Indices without a register -/

theorem readReg_of_no_readable {i : Nat} (hi : i = 0 ∨ i = 1 ∨ 7 ≤ i) : readReg i s = 0#32 := by
  rcases hi with rfl | rfl | hi
  · rfl
  · rfl
  · obtain ⟨k, rfl⟩ := Nat.exists_eq_add_of_le' hi
    rfl

theorem writeReg_of_no_writable {i : Nat} {v : HostWord} (hi : i = 2 ∨ i = 4 ∨ i = 5 ∨ i = 6 ∨ 7 ≤ i) :
    writeReg i v s = .ok s := by
  rcases hi with rfl | rfl | rfl | rfl | hi
  · rfl
  · rfl
  · rfl
  · rfl
  · obtain ⟨k, rfl⟩ := Nat.exists_eq_add_of_le' hi
    rfl

/-- Settles O36: the three kinds of access by what `readReg` and `writeReg` have at the index. -/
theorem registerIndexMap : Obligations.RegisterIndexMap := by
  intro s
  refine ⟨fun i hi ht => ?_, fun i v hi ht => ?_, fun i ht => ⟨_, step_of_readReg ht⟩⟩
  · rw [step_of_readReg ht, readReg_of_no_readable hi]
    rfl
  · exact step_of_ignored ht (writeReg_of_no_writable hi)

/-! ## `STATUS` -/

/-- Settles O33: the codes are the tables of R22 and R190. -/
theorem modeAndErrorCodes : Obligations.ModeAndErrorCodes :=
  ⟨rfl, rfl, rfl, rfl, rfl, rfl, rfl, rfl, rfl, rfl, rfl, rfl, rfl, rfl⟩

/-- The fields of a `STATUS` word put together from its parts: to read one, drop those below it. -/
theorem statusFields (p h : BitVec 1) (e : BitVec 4) (m : BitVec 3) :
    let w : BitVec (22 + 1 + 1 + 4 + 1 + 3) := 0#22 ++ p ++ h ++ e ++ 0#1 ++ m
    w.extractLsb' 0 3 = m ∧ w.extractLsb' 3 1 = 0#1 ∧ w.extractLsb' 4 4 = e ∧ w.extractLsb' 8 1 = h ∧
      w.extractLsb' 9 1 = p ∧ w.extractLsb' 10 22 = 0#22 := by
  intro w
  have aboveMode : ∀ start len, 3 ≤ start →
      w.extractLsb' start len = (0#22 ++ p ++ h ++ e ++ 0#1).extractLsb' (start - 3) len :=
    fun _ _ => BitVec.extractLsb'_append_eq_of_le
  have aboveErr : ∀ start len, 8 ≤ start → w.extractLsb' start len = (0#22 ++ p ++ h).extractLsb' (start - 8) len := by
    intro start len hs
    rw [aboveMode _ _ (by omega), BitVec.extractLsb'_append_eq_of_le (by omega),
      BitVec.extractLsb'_append_eq_of_le (by omega)]
    congr 1
  refine ⟨BitVec.extractLsb'_append_eq_right, ?_, ?_, ?_, ?_, ?_⟩
  · exact (aboveMode 3 1 (by decide)).trans BitVec.extractLsb'_append_eq_right
  · rw [aboveMode 4 4 (by decide), BitVec.extractLsb'_append_eq_of_le (by decide)]
    exact BitVec.extractLsb'_append_eq_right
  · exact (aboveErr 8 1 (by decide)).trans BitVec.extractLsb'_append_eq_right
  · rw [aboveErr 9 1 (by decide), BitVec.extractLsb'_append_eq_of_le (by decide)]
    exact BitVec.extractLsb'_append_eq_right
  · rw [aboveErr 10 22 (by decide), BitVec.extractLsb'_append_eq_of_le (by decide)]
    exact BitVec.extractLsb'_append_eq_left

theorem statusWord_eq (s : State) : statusWord s = 0#22 ++ (if s.cfg.eofPolicy = .unchanged then 1#1 else 0#1)
    ++ (if s.cfg.hasEncoder then 1#1 else 0#1) ++ s.err.code ++ 0#1 ++ s.mode.code := by
  rw [statusWord]
  cases s.cfg.eofPolicy <;> rfl

/-- Settles O34: the read returns the `STATUS` word, whose fields are its parts. -/
theorem statusReadShowsItsFields : Obligations.StatusReadShowsItsFields := by
  intro s ht
  exact ⟨statusWord s, step_of_readReg ht, statusWord_eq s ▸ statusFields _ _ _ _⟩

/-! ## `LEN`, `IP`, `DP`, `DEPTH` -/

/-- A slot read as a host word is zero-extended. -/
theorem slot_setWidth_toNat (x : Slot) : (x.setWidth 32 : HostWord).toNat = x.toNat :=
  BitVec.toNat_setWidth_of_le (by decide)

theorem writeLen_of_quiet {v : HostWord} (hq : s.mode.quiet = true) (hv : v.toNat ≤ s.cfg.heapSize) :
    writeLen v s = .ok { s with len := BitVec.ofNat 15 v.toNat } := by
  simp [writeLen, hq, hv]

theorem writeLen_of_refused {v : HostWord} (h : s.mode.quiet = false ∨ s.cfg.heapSize < v.toNat) :
    writeLen v s = .ok s := by
  rcases h with hq | hv
  · simp [writeLen, hq]
  · simp [writeLen, Nat.not_le.mpr hv]

/-- Settles O35: the reads by the width of a slot, the writes of `LEN` by its two tests. -/
theorem lenIpDpDepthRegisters : Obligations.LenIpDpDepthRegisters := by
  intro s hc
  refine ⟨fun ht => ⟨_, slot_setWidth_toNat _, step_of_readReg ht⟩,
    fun ht => ⟨_, slot_setWidth_toNat _, step_of_readReg ht⟩,
    fun ht => ⟨_, slot_setWidth_toNat _, step_of_readReg ht⟩,
    fun ht => ⟨_, slot_setWidth_toNat _, step_of_readReg ht⟩,
    fun v ht => ⟨fun hq hv => ?_, fun h => ?_⟩, fun i v hi ht => ?_⟩
  · refine ⟨_, step_of_writeReg ht (writeLen_of_quiet (s := s.popTurn) hq hv), ?_, rfl⟩
    have hwidth := legal_heapSize_le hc
    exact (BitVec.toNat_ofNat _ _).trans (Nat.mod_eq_of_lt (by omega))
  · exact step_of_ignored ht (writeLen_of_refused (s := s.popTurn) h)
  · exact step_of_ignored ht (writeReg_of_no_writable (by omega))

/-! ## The array ports -/

/-- Where the port is closed a read returns 0 (10_state.md R39). -/
theorem readPort_of_closed {p : HostArray} {i : Nat} (h : portOpen s i = false) : readPort p i s = 0#32 := by
  simp [readPort, h]

theorem writePort_of_closed {p : HostArray} {i : Nat} {v : HostWord} (h : portOpen s i = false) :
    writePort p i v s = s := by
  simp [writePort, h]

section
variable {i : Nat} (h : portOpen s i = true)
include h

theorem readPort_imem_of_open : readPort .imem i s = (s.imem.read i).setWidth 32 := if_pos h

theorem readPort_jt_of_open : readPort .jt i s = (s.jtEntry i).setWidth 32 := if_pos h

theorem readPort_tape_of_open : readPort .tape i s = (s.tape.read i).setWidth 32 := if_pos h

theorem writePort_imem_of_open (v : HostWord) :
    writePort .imem i v s = { s with imem := s.imem.write i (v.extractLsb' 0 16) } := if_pos h

theorem writePort_jt_of_open (v : HostWord) :
    writePort .jt i v s = { s with jt := s.jt.write i (toIndex s.cfg v.toNat) } := if_pos h

theorem writePort_tape_of_open (v : HostWord) : writePort .tape i v s = s := if_pos h

end

/-- An index of a legal build fits in a slot. -/
theorem iw_le_slotWidth {c : Config} (hc : c.legal) : c.iw ≤ 15 :=
  (Config.iw_le_iff hc).mpr (Nat.lt_succ_of_le (legal_heapSize_le hc))

/-- In a legal build the low `IW` bits fit in a slot. -/
theorem toNat_toIndex {c : Config} (hc : c.legal) (n : Nat) : (toIndex c n).toNat = n % 2 ^ c.iw :=
  (BitVec.toNat_ofNat _ _).trans (Nat.mod_eq_of_lt (Nat.lt_of_lt_of_le (Nat.mod_lt _ (Nat.two_pow_pos _))
    (Nat.pow_le_pow_right (by decide) (iw_le_slotWidth hc))))

/-- Settles O37: the port is open exactly in a quiet mode below `HEAPSIZE`. -/
theorem arrayPorts : Obligations.ArrayPorts := by
  intro s i hc
  refine ⟨fun hq hi => ?_, fun h => ?_⟩
  · have ho : portOpen s i = true := portOpen_iff.mpr ⟨hq, hi⟩
    have ho' : portOpen s.popTurn i = true := ho
    refine ⟨fun ht => ?_, fun ht => ?_, fun ht => ?_, fun v ht => ?_, fun v ht => ?_, fun v ht => ?_⟩
    · exact ⟨_, BitVec.toNat_setWidth_of_le (by decide), readPort_imem_of_open ho ▸ step_of_readArray ht⟩
    · exact ⟨_, slot_setWidth_toNat _, readPort_jt_of_open ho ▸ step_of_readArray ht⟩
    · exact ⟨_, BitVec.toNat_setWidth_of_le (by decide), readPort_tape_of_open ho ▸ step_of_readArray ht⟩
    · refine ⟨_, writePort_imem_of_open ho' v ▸ step_of_writeArray ht, Memory.read_write_same _ _ _, ?_, rfl⟩
      exact fun a ha => Memory.read_write_other _ ha _
    · refine ⟨_, writePort_jt_of_open ho' v ▸ step_of_writeArray ht, ?_, ?_, rfl⟩
      · simp [State.jtEntry, toNat_toIndex hc]
      · intro a ha
        simp [State.jtEntry, Memory.read_write_other _ ha]
    · rw [step_of_writeArray ht, writePort_tape_of_open ho']
      rfl
  · have ho : portOpen s i = false := by
      simp only [Bool.eq_false_iff, ne_eq, portOpen_iff, not_and, Nat.not_lt]
      rcases h with hq | hi
      · simp [hq]
      · exact fun _ => hi
    refine ⟨fun p ht => ?_, fun p v ht => ?_⟩
    · rw [step_of_readArray ht, readPort_of_closed ho]
      rfl
    · rw [step_of_writeArray ht, writePort_of_closed (s := s.popTurn) ho]
      rfl

/-! ## `CTRL` and `SRC` -/

theorem startable_eq_false {m : Mode} : m.startable = false ↔ m ≠ .idle ∧ m ≠ .done := by
  rw [Bool.eq_false_iff, ne_eq, startable_iff, not_or]

theorem quiet_eq_false {m : Mode} : m.quiet = false ↔ m ≠ .idle ∧ m ≠ .done ∧ m ≠ .fault := by
  rw [Bool.eq_false_iff, ne_eq, quiet_iff, not_or, not_or]

/-- Settles O39: in each of the four cases the command is not accepted. -/
theorem commandsOutsideTheirModesAreIgnored : Obligations.CommandsOutsideTheirModesAreIgnored := by
  intro s v ht
  have ignored : ∀ c : Command, v.extractLsb' 0 4 = c.bits → accepts s c = false → step s = .next s.popTurn :=
    fun c hc ha => step_of_ignored ht (writeCtrl_of_not_accepts (s := s.popTurn) hc ha)
  refine ⟨fun hc h => ignored .encStart hc ?_, fun hc h => ignored .encEnd hc ?_,
    fun hc h => ignored .runStart hc ?_, fun hc h => ignored .clear hc ?_⟩
  · rw [accepts, Bool.and_eq_false_iff, startable_eq_false]
    exact h
  · rw [accepts, Bool.and_eq_false_iff, beq_eq_false_iff_ne]
    exact h
  · exact startable_eq_false.mpr h
  · exact quiet_eq_false.mpr h

/-- Settles O40: `CLEAR` is accepted in the quiet modes, and no other nibble is a command. -/
theorem clearAndMalformedCtrlWrites : Obligations.ClearAndMalformedCtrlWrites := by
  intro s v ht
  refine ⟨fun hc hm => ?_, fun h1 h2 h4 h8 => ?_⟩
  · exact step_of_writeReg ht (writeCtrl_of_accepts (s := s.popTurn) (c := .clear) hc (quiet_iff.mpr hm))
  · have hc : ∀ c : Command, v.extractLsb' 0 4 ≠ c.bits := by
      rintro (_ | _ | _ | _)
      · exact h1
      · exact h2
      · exact h4
      · exact h8
    exact step_of_ignored ht (writeCtrl_of_no_command (s := s.popTurn) hc)

theorem writeSrc_of_encoding {v : HostWord} (he : s.cfg.hasEncoder = true) (hm : s.mode = .encoding) :
    writeSrc v s = encodeByte (v.extractLsb' 0 8) s := by
  simp [writeSrc, he, hm]

theorem writeSrc_of_refused {v : HostWord} (h : s.cfg.hasEncoder = false ∨ s.mode ≠ .encoding) :
    writeSrc v s = .ok s := by
  rcases h with he | hm
  · simp [writeSrc, he]
  · simp [writeSrc, hm]

/-- Settles O44: a `SRC` write is the encoder's step on its byte, or no step. -/
theorem srcTakesOneByte : Obligations.SrcTakesOneByte := by
  intro s v ht
  refine ⟨fun he hm => ?_, fun h => ?_⟩
  · exact step_of_writeReg ht (writeSrc_of_encoding (s := s.popTurn) he hm)
  · exact step_of_ignored ht (writeSrc_of_refused (s := s.popTurn) h)

end Sys2Proof.Machine
end

section
/-! PROOF. What an instruction leaves unchanged, and which steps change a cell (10_state.md R20). -/

namespace Sys2Proof.Machine

variable {s t : State}

/-- An instruction changes a cell only by storing to it: `Increment` and `Decrement`, at `DP`. -/
theorem exec_tape_change {i : Instr} {a : Nat} (h : exec i s = .next t) (hne : t.tape.read a ≠ s.tape.read a) :
    a = s.dp.toNat ∧ ∃ n, i = .increment n ∨ i = .decrement n := by
  rcases exec_next h with ⟨rfl, -⟩ | ⟨rfl, -, -⟩ | ⟨rfl, -⟩ | ⟨n, -, -, rfl⟩ | ⟨n, -, -, rfl⟩ |
    ⟨v, hi, -, rfl⟩ | ⟨-, -, rfl⟩ | ⟨-, -, rfl⟩ | ⟨-, rfl⟩
  any_goals exact absurd rfl hne
  have ha : a = s.dp.toNat := by
    by_contra ha
    exact hne (Memory.read_write_other s.tape ha v)
  obtain ⟨n, rfl⟩ | ⟨n, rfl⟩ := hi
  · exact ⟨ha, n, .inr rfl⟩
  · exact ⟨ha, n, .inl rfl⟩

/-- Only the moves write `DP`. -/
theorem exec_dp {i : Instr} (h : exec i s = .next t) (hi : ∀ n, i ≠ .moveLeft n ∧ i ≠ .moveRight n) :
    t.dp = s.dp := by
  rcases exec_next h with ⟨rfl, -⟩ | ⟨rfl, -, -⟩ | ⟨rfl, -⟩ | ⟨n, hn, -⟩ | ⟨n, hn, -⟩ |
    ⟨v, -, -, rfl⟩ | ⟨-, -, rfl⟩ | ⟨-, -, rfl⟩ | ⟨-, rfl⟩
  any_goals rfl
  · exact absurd hn (hi n).1
  · exact absurd hn (hi n).2

/-- Only `Output` sends a byte. -/
theorem exec_outputs {i : Instr} (h : exec i s = .next t) (hi : i ≠ .output) : t.outputs = s.outputs := by
  rcases exec_next h with ⟨rfl, -⟩ | ⟨rfl, -, -⟩ | ⟨rfl, -⟩ | ⟨n, -, -, rfl⟩ | ⟨n, -, -, rfl⟩ |
    ⟨v, -, -, rfl⟩ | ⟨-, -, rfl⟩ | ⟨ho, -, -⟩ | ⟨-, rfl⟩
  any_goals rfl
  exact absurd ho hi

/-- The fields no instruction writes. -/
structure ExecFrame (s t : State) : Prop where
  cfg : t.cfg = s.cfg
  len : t.len = s.len
  imem : t.imem = s.imem
  jt : t.jt = s.jt
  stack : t.stack = s.stack
  sp : t.sp = s.sp
  runOp : t.runOp = s.runOp
  runCnt : t.runCnt = s.runCnt
  agenda : t.agenda = s.agenda
  inputs : t.inputs = s.inputs
  hostReads : t.hostReads = s.hostReads
  draws : t.draws = s.draws

theorem exec_frame {i : Instr} (h : exec i s = .next t) : ExecFrame s t := by
  rcases exec_next h with ⟨rfl, -⟩ | ⟨rfl, -, -⟩ | ⟨rfl, -⟩ | ⟨n, -, -, rfl⟩ | ⟨n, -, -, rfl⟩ |
    ⟨v, -, -, rfl⟩ | ⟨-, -, rfl⟩ | ⟨-, -, rfl⟩ | ⟨-, rfl⟩ <;> constructor <;> rfl

/-- An instruction changes `MODE` or `ERR` only by a request or by an error of its own. -/
theorem exec_mode_err {i : Instr} (h : exec i s = .next t) :
    (t.mode = s.mode ∧ t.err = s.err) ∨
    (i = .input ∧ t.mode = .waitIn ∧ t.err = s.err) ∨
    (((∃ n, i = .moveLeft n) ∨ ∃ n, i = .moveRight n) ∧ t.mode = .fault ∧ t.err = .pointerOutOfBounds) ∨
    ((i = .loopStart ∨ i = .loopEnd) ∧ t.mode = .fault ∧ t.err = .badJumpTarget) := by
  rcases exec_next h with ⟨rfl, hi⟩ | ⟨rfl, hi, -⟩ | ⟨rfl, -⟩ | ⟨n, -, -, rfl⟩ | ⟨n, -, -, rfl⟩ |
    ⟨v, -, -, rfl⟩ | ⟨-, -, rfl⟩ | ⟨-, -, rfl⟩ | ⟨hi, rfl⟩
  any_goals exact .inl ⟨rfl, rfl⟩
  · exact .inr (.inr (.inl ⟨hi, rfl, rfl⟩))
  · exact .inr (.inr (.inr ⟨hi, rfl, rfl⟩))
  · exact .inr (.inl ⟨hi, rfl, rfl⟩)

/-- Settles O14: the fields no instruction writes, and for each other field its writers. -/
theorem instructionFrame : Obligations.InstructionFrame := by
  intro i s t h
  obtain ⟨hcfg, hlen, himem, hjt, hstack, hsp, hop, hcnt, hagenda, hinputs, hreads, hdraws⟩ := exec_frame h
  have hstore : (∀ n, i ≠ .increment n ∧ i ≠ .decrement n) → ∀ a, t.tape.read a = s.tape.read a := by
    intro hi a
    by_contra hne
    obtain ⟨-, n, rfl | rfl⟩ := exec_tape_change h hne
    · exact (hi n).1 rfl
    · exact (hi n).2 rfl
  have hother : ∀ a, a ≠ s.dp.toNat → t.tape.read a = s.tape.read a := by
    intro a ha
    by_contra hne
    exact ha (exec_tape_change h hne).1
  exact ⟨hcfg, hlen, himem, hjt, hstack, hsp, hop, hcnt, hagenda, hinputs, hreads, hdraws,
    exec_dp h, hstore, hother, exec_outputs h, exec_mode_err h⟩

/-! ## The tape -/

/-- An interpreter step changes a cell only by dispatching an instruction that stores to it. -/
theorem interpStep_tape_change {a : Nat} (h : interpStep s = .next t) (hne : t.tape.read a ≠ s.tape.read a) :
    a = s.dp.toNat ∧ ∃ n, decode (s.imem.read s.ip.toNat) = .ok (.increment n) ∨
      decode (s.imem.read s.ip.toNat) = .ok (.decrement n) := by
  rcases interpStep_next h with ⟨-, rfl⟩ | ⟨-, -, h⟩
  · exact absurd rfl hne
  · rcases dispatch_next h with ⟨i, hd, h⟩ | ⟨e, -, rfl⟩
    · obtain ⟨ha, n, rfl | rfl⟩ := exec_tape_change h hne
      · exact ⟨ha, n, .inl hd⟩
      · exact ⟨ha, n, .inr hd⟩
    · exact absurd rfl hne

/-- A response changes no cell but the one at `DP`. -/
theorem inputStep_tape_change {a : Nat} (h : inputStep s = .next t) (hne : t.tape.read a ≠ s.tape.read a) :
    a = s.dp.toNat ∧ s.mode = .waitIn := by
  rcases inputStep_next h with ⟨-, rfl⟩ | ⟨hm, r, -, h⟩
  · exact absurd rfl hne
  · rcases respond_next h with ⟨v, -, -, rfl⟩ | ⟨-, -, rfl⟩ | ⟨-, rfl⟩
    · refine ⟨?_, hm⟩
      by_contra ha
      exact hne (Memory.read_write_other s.tape ha v)
    · exact absurd rfl hne
    · exact absurd rfl hne

/-- Of the register writes only an accepted `RUN_START` writes the tape. -/
theorem writeReg_tape {i : Nat} {v : HostWord} (h : settle s (writeReg i v s) = .next t) :
    t.tape = s.tape ∨ (i = 0 ∧ command v = some .runStart ∧ s.mode.startable = true) := by
  rcases writeReg_next h with rfl | ⟨-, -, -, -, rfl⟩ | ⟨-, -, -, -, h⟩ | ⟨hi, hc, hm, -⟩ | ⟨-, -, -, rfl⟩ |
    ⟨-, -, -, h⟩ | ⟨-, -, -, rfl⟩ | ⟨-, e, -, rfl, -⟩
  any_goals exact .inl rfl
  · exact .inl (encodeEnd_frame h).1.tape
  · exact .inr ⟨hi, hc, hm⟩
  · exact .inl (encodeByte_frame h).1.tape

@[simp] theorem writePort_tape (p : HostArray) (i : Nat) (v : HostWord) (s : State) :
    (writePort p i v s).tape = s.tape := by
  rcases writePort_cases p i v s with h | ⟨-, ⟨-, h⟩ | ⟨-, h⟩⟩ <;> rw [h]

theorem hostStep_tape {a : HostAccess} (h : hostStep a s = .next t) :
    t.tape = s.tape ∨ ∃ v, a = .writeReg 0 v ∧ command v = some .runStart ∧ s.mode.startable = true := by
  rcases hostStep_next h with ⟨v, -, rfl⟩ | ⟨i, v, rfl, h⟩ | ⟨p, i, v, -, rfl⟩
  · exact .inl rfl
  · rcases writeReg_tape h with h | ⟨rfl, hc, hm⟩
    · exact .inl h
    · exact .inr ⟨v, rfl, hc, hm⟩
  · exact .inl (writePort_tape p i v s)

/-- Settles O31, by the agent that has the turn: what each one's step can do to the tape. -/
theorem onlyItsWritersChangeTheTape : Obligations.OnlyItsWritersChangeTheTape := by
  intro s t a h hne
  rcases step_next h with ⟨-, -, rfl⟩ | ⟨ht, hm, h⟩ | ⟨ht, h⟩ | ⟨x, ht, h⟩ | ⟨ht, -⟩
  · exact absurd rfl hne
  · obtain ⟨ha, hd⟩ := interpStep_tape_change h hne
    exact .inr (.inr (.inl ⟨ha, ht, hm, hd⟩))
  · obtain ⟨ha, hm⟩ := inputStep_tape_change h hne
    exact .inr (.inr (.inr ⟨ha, ht, hm⟩))
  · rcases hostStep_tape h with htape | ⟨v, rfl, hc, hm⟩
    · exact absurd (congrArg (·.read a) htape) hne
    · exact .inr (.inl ⟨v, ht, command_eq_some.mp hc, startable_iff.mp hm⟩)
  · exact .inl ht

end Sys2Proof.Machine
end

section
/-! PROOF. From a good state every step has a next state: the operations that make a checked access stop nowhere
while the registers are in their ranges, and everything else of a step answers or raises. -/

namespace Sys2Proof.Machine

variable {s : State} {g : Fault}

/-! ## What cannot stop has a next state -/

theorem settle_next_of_ne_stop {x : Eff State} (h : ∀ g, x ≠ .stop g) : ∃ t, settle s x = .next t := by
  cases x with
  | ok t => exact ⟨t, rfl⟩
  | raise e => exact ⟨s.enterFault e, rfl⟩
  | stop g => exact absurd rfl (h g)

theorem Eff.bind_ne_stop {α β : Type} {x : Eff α} {f : α → Eff β} (hx : ∀ g, x ≠ .stop g)
    (hf : ∀ a, x = .ok a → ∀ g, f a ≠ .stop g) : x.bind f ≠ .stop g := by
  rw [ne_eq, Eff.bind_eq_stop]
  rintro (h | ⟨a, ha, h⟩)
  · exact hx g h
  · exact hf a ha g h

/-! ## The interpreter: `DP` names a cell, and `IP` a slot -/

theorem updateCell_ne_stop (f : Byte → Byte) (hd : s.dp.toNat < s.cfg.heapSize) : updateCell f s ≠ .stop g := by
  simp [updateCell_of_lt f hd]

theorem branch_ne_stop (hi : s.ip.toNat < s.cfg.heapSize) : branch s ≠ .stop g := by
  rw [branch_of_lt hi]
  split <;> simp

theorem exec_total (hd : s.dp.toNat < s.cfg.heapSize) (hi : s.ip.toNat < s.cfg.heapSize) (i : Instr) :
    ∃ t, exec i s = .next t := by
  cases i with
  | nop => exact ⟨_, rfl⟩
  | moveLeft n => exact settle_next_of_ne_stop fun _ => by split <;> simp
  | moveRight n => exact settle_next_of_ne_stop fun _ => by split <;> simp
  | decrement n => exact settle_next_of_ne_stop fun _ => updateCell_ne_stop _ hd
  | increment n => exact settle_next_of_ne_stop fun _ => updateCell_ne_stop _ hd
  | loopStart =>
    refine settle_next_of_ne_stop fun _ => ?_
    rw [cellIsZero_of_lt hd, Eff.bind_ok]
    split
    · exact branch_ne_stop hi
    · simp
  | loopEnd =>
    refine settle_next_of_ne_stop fun _ => ?_
    rw [cellIsZero_of_lt hd, Eff.bind_ok]
    split
    · simp
    · exact branch_ne_stop hi
  | output => exact settle_next_of_ne_stop fun _ => by simp [readCell, readTape_of_lt hd]
  | input => exact ⟨_, rfl⟩

theorem dispatch_total (hd : s.dp.toNat < s.cfg.heapSize) (hi : s.ip.toNat < s.cfg.heapSize) (w : IWord) :
    ∃ t, dispatch w s = .next t := by
  rw [dispatch]
  split
  · exact exec_total hd hi _
  · exact ⟨_, rfl⟩

/-- The interpreter fetches only below `LEN`, which no `IP` of a run exceeds (41_dispatch.md R122, R127). -/
theorem Inv.interpStep_total (h : Inv s) (hm : s.mode = .running) : ∃ t, Machine.interpStep s = .next t := by
  rcases Nat.lt_or_eq_of_le (h.ip_le hm) with hl | he
  · have hi : s.ip.toNat < s.cfg.heapSize := Nat.lt_of_lt_of_le hl h.len_le
    rw [interpStep_of_lt hl hi]
    exact dispatch_total h.dp_lt hi _
  · exact ⟨_, interpStep_of_eq (BitVec.eq_of_toNat_eq he)⟩

theorem Inv.deviceStep_total (h : Inv s) : ∃ t, deviceStep s = .next t := by
  by_cases hm : s.mode = .running
  · rw [deviceStep_of_running hm]
    exact h.interpStep_total hm
  · exact ⟨s, deviceStep_of_not_running hm⟩

/-! ## The input environment -/

theorem respond_ne_stop (hd : s.dp.toNat < s.cfg.heapSize) (r : Response) : respond r s ≠ .stop g := by
  cases r with
  | byte b => simp [respond, writeCell, writeTape_of_lt hd]
  | eof =>
    rw [respond]
    split
    · simp [writeCell, writeTape_of_lt hd]
    · simp
  | fail => simp [respond]

theorem Inv.inputStep_total (h : Inv s) : ∃ t, Machine.inputStep s = .next t := by
  rw [Machine.inputStep]
  split
  · exact settle_next_of_ne_stop fun _ => respond_ne_stop (h.setInputs s.inputs.rest).dp_lt _
  · exact ⟨s, rfl⟩

/-! ## The encoder: `LEN`, `SP` and the open slots are in their ranges -/

theorem Inv.encodeSingle_ne_stop (h : Inv s) (hm : s.mode = .encoding) (c : Byte) :
    Machine.encodeSingle c s ≠ .stop g := by
  rcases encodeSingle_cases c s with ⟨-, hc⟩ | ⟨-, hc⟩ | ⟨-, hc⟩ | ⟨-, hc⟩ | ⟨-, -, -, -, hc⟩ <;> rw [hc]
  · exact emit_ne_stop h.len_le
  · exact emit_ne_stop h.len_le
  · exact openBracket_ne_stop h.sp_le h.len_le
  · exact closeBracket_ne_stop h.sp_le h.len_le fun k hk => Nat.lt_of_lt_of_le (h.stack_lt hm k hk) h.len_le
  · simp

theorem Inv.afterRun_ne_stop (h : Inv s) (hm : s.mode = .encoding) (c : Byte) : afterRun c s ≠ .stop g := by
  cases hf : foldOp c with
  | some op => simp [afterRun_of_fold hf]
  | none => rw [afterRun_of_none hf]; exact h.encodeSingle_ne_stop hm c

theorem Inv.encodeByte_ne_stop (h : Inv s) (hm : s.mode = .encoding) (c : Byte) :
    Machine.encodeByte c s ≠ .stop g := by
  cases hc : continuesRun c s with
  | true => simp [encodeByte_of_continues hc]
  | false =>
    rw [encodeByte_of_not_continues hc]
    exact Eff.bind_ne_stop (fun _ => flush_ne_stop h.len_le) fun u hu _ =>
      (h.flush hm hu).afterRun_ne_stop ((flush_frame hu).2.1.trans hm) c

theorem Inv.encodeEnd_ne_stop (h : Inv s) : Machine.encodeEnd s ≠ .stop g :=
  Eff.bind_ne_stop (fun _ => flush_ne_stop h.len_le) fun u _ _ => by
    split <;> simp

/-! ## The host -/

theorem Inv.writeCtrl_ne_stop (h : Inv s) (v : HostWord) : writeCtrl v s ≠ .stop g := by
  rcases writeCtrl_cases v s with hw | ⟨-, -, -, hw⟩ | ⟨-, -, -, hw⟩ | ⟨-, -, hw⟩ | ⟨-, -, hw⟩ <;> rw [hw]
  · simp
  · simp
  · exact h.encodeEnd_ne_stop
  · simp
  · simp

theorem Inv.writeSrc_ne_stop (h : Inv s) (v : HostWord) : writeSrc v s ≠ .stop g := by
  rcases writeSrc_cases v s with hw | ⟨-, hm, hw⟩ <;> rw [hw]
  · simp
  · exact h.encodeByte_ne_stop hm _

theorem writeLen_ne_stop (v : HostWord) : writeLen v s ≠ .stop g := by
  rcases writeLen_cases v s with hw | ⟨-, -, hw⟩ <;> simp [hw]

theorem Inv.writeReg_ne_stop (h : Inv s) (i : Nat) (v : HostWord) : Machine.writeReg i v s ≠ .stop g := by
  rcases writeReg_cases i v s with hw | ⟨-, hw⟩ | ⟨-, hw⟩ | ⟨-, hw⟩ <;> rw [hw]
  · simp
  · exact h.writeCtrl_ne_stop v
  · exact h.writeSrc_ne_stop v
  · exact writeLen_ne_stop v

theorem Inv.hostStep_total (h : Inv s) (a : HostAccess) : ∃ t, Machine.hostStep a s = .next t := by
  cases a with
  | readReg i => exact ⟨_, rfl⟩
  | writeReg i v => exact settle_next_of_ne_stop fun _ => h.writeReg_ne_stop i v
  | readArray p i => exact ⟨_, rfl⟩
  | writeArray p i v => exact ⟨_, rfl⟩

/-- Settles O26, by the agent that has the turn: each one's step stops in no good state. -/
theorem noStepStopsFromAGoodState : Obligations.NoStepStopsFromAGoodState := by
  intro s h
  rw [step]
  cases s.turn with
  | device => exact h.popTurn.deviceStep_total
  | input => exact h.popTurn.inputStep_total
  | host a => exact h.popTurn.hostStep_total a
  | reset => exact ⟨_, rfl⟩

end Sys2Proof.Machine
end

section
/-! PROOF. A run reads its module and writes none of it (20_memory.md R62): neither the device nor the input
environment does, and the host's accesses are refused or do not reach it. -/

namespace Sys2Proof.Machine

variable {s t : State}

/-- The parameters, the module and the pending turns: what the device and the input environment never write. -/
structure ModuleFrame (s t : State) : Prop where
  cfg : t.cfg = s.cfg
  len : t.len = s.len
  imem : t.imem = s.imem
  jt : t.jt = s.jt
  agenda : t.agenda = s.agenda

theorem ModuleFrame.refl (s : State) : ModuleFrame s s := by constructor <;> rfl

theorem interpStep_moduleFrame (h : interpStep s = .next t) : ModuleFrame s t := by
  rcases interpStep_next h with ⟨-, rfl⟩ | ⟨-, -, h⟩
  · constructor <;> rfl
  · rcases dispatch_next h with ⟨i, -, h⟩ | ⟨e, -, rfl⟩
    · have hf := exec_frame h
      exact ⟨hf.cfg, hf.len, hf.imem, hf.jt, hf.agenda⟩
    · constructor <;> rfl

theorem inputStep_moduleFrame (h : inputStep s = .next t) : ModuleFrame s t := by
  rcases inputStep_next h with ⟨-, rfl⟩ | ⟨-, r, -, h⟩
  · exact .refl _
  · rcases respond_next h with ⟨v, -, -, rfl⟩ | ⟨-, -, rfl⟩ | ⟨-, rfl⟩ <;> constructor <;> rfl

/-- A step of the device or of the input environment, after its turn is off the agenda. -/
theorem step_moduleFrame (ht : s.turn = .device ∨ s.turn = .input) (h : step s = .next t) :
    ModuleFrame s.popTurn t := by
  rcases step_next h with ⟨-, -, rfl⟩ | ⟨-, -, h⟩ | ⟨-, h⟩ | ⟨a, ha, -⟩ | ⟨hr, -⟩
  · exact .refl _
  · exact interpStep_moduleFrame h
  · exact inputStep_moduleFrame h
  · simp [ha] at ht
  · simp [hr] at ht

/-- In a mode of a run no register write is taken (10_state.md R35, R36, R38). -/
theorem writeReg_of_run {i : Nat} {v : HostWord} (hm : s.mode = .running ∨ s.mode = .waitIn) :
    writeReg i v s = .ok s := by
  have hquiet : s.mode.quiet = false := by rcases hm with hm | hm <;> rw [hm] <;> rfl
  have hstart : s.mode.startable = false := by rcases hm with hm | hm <;> rw [hm] <;> rfl
  have henc : s.mode ≠ .encoding := by rcases hm with hm | hm <;> simp [hm]
  rcases writeReg_cases i v s with hw | ⟨-, hw⟩ | ⟨-, hw⟩ | ⟨-, hw⟩ <;> rw [hw]
  · rcases writeCtrl_cases v s with hc | ⟨-, -, h, -⟩ | ⟨-, -, h, -⟩ | ⟨-, h, -⟩ | ⟨-, h, -⟩
    · exact hc
    · simp [hstart] at h
    · exact absurd h henc
    · simp [hstart] at h
    · simp [hquiet] at h
  · exact writeSrc_of_refused (.inr henc)
  · exact writeLen_of_refused (.inl hquiet)

theorem hostStep_moduleFrame_of_run {a : HostAccess} (hm : s.mode = .running ∨ s.mode = .waitIn)
    (h : hostStep a s = .next t) : ModuleFrame s t := by
  rcases hostStep_next h with ⟨v, -, rfl⟩ | ⟨i, v, -, h⟩ | ⟨p, i, v, -, rfl⟩
  · constructor <;> rfl
  · rw [writeReg_of_run hm] at h
    cases h
    exact .refl _
  · have hclosed : portOpen s i = false := by rcases hm with hm | hm <;> simp [portOpen, hm, Mode.quiet]
    rw [writePort_of_closed hclosed]
    exact .refl _

/-- Settles O29, by the agent that has the turn. -/
theorem moduleIsImmutableDuringARun : Obligations.ModuleIsImmutableDuringARun := by
  intro s t hm hr h
  have hframe : ModuleFrame s.popTurn t := by
    cases ht : s.turn with
    | device => exact step_moduleFrame (.inl ht) h
    | input => exact step_moduleFrame (.inr ht) h
    | host a =>
      rw [step_of_host ht] at h
      exact hostStep_moduleFrame_of_run (s := s.popTurn) hm h
    | reset => exact absurd ht hr
  exact ⟨hframe.imem, hframe.jt, hframe.len⟩

end Sys2Proof.Machine
end

section
/-! PROOF. Two runs of one module agree (20_memory.md R65). A step of a run commutes with exchanging everything the
run does not read, so the second run is the first one with other held contents, and goes the same way. -/

namespace Sys2Proof.Machine

variable {s m t : State}

/-! ## Exchanging what a run does not read -/

/-- `s` with the arrays, the encoder's registers and the history held in `m`: of these a run reads only its module. -/
def State.holding (s m : State) : State :=
  { s with
    imem := m.imem
    jt := m.jt
    stack := m.stack
    sp := m.sp
    runOp := m.runOp
    runCnt := m.runCnt
    hostReads := m.hostReads
    draws := m.draws }

/-- What an operation answers, with the held contents of `m` in the state it gives. -/
def Eff.holding (x : Eff State) (m : State) : Eff State := x.bind fun t => .ok (t.holding m)

/-- The next state, with the held contents of `m`. -/
def outcomeHolding (x : Host.Outcome State Fault Refusal) (m : State) : Host.Outcome State Fault Refusal :=
  match x with
  | .next t => .next (t.holding m)
  | .fault f => .fault f
  | .refused r => .refused r

/-- An error is taken the same way whatever is held beside the run. -/
theorem settle_holding (x : Eff State) : settle (s.holding m) (x.holding m) = outcomeHolding (settle s x) m := by
  cases x <;> rfl

/-- What a run holds and shows is not exchanged. -/
theorem holding_sameRun (s m : State) : SameRun s (s.holding m) := by constructor <;> rfl

/-! ## Every operation of a run commutes with it -/

/-- After a part that reads nothing exchanged, a rest that commutes. -/
theorem Eff.bind_holding {α : Type} (x : Eff α) {f f' : α → Eff State} (hf : ∀ a, f' a = (f a).holding m) :
    x.bind f' = (x.bind f).holding m := by
  cases x with
  | ok a => exact hf a
  | raise e => rfl
  | stop g => rfl

/-- After a part that commutes, a rest that commutes. -/
theorem Eff.holding_bind (x : Eff State) {f : State → Eff State} (hf : ∀ t, f (t.holding m) = (f t).holding m) :
    (x.holding m).bind f = (x.bind f).holding m := by
  cases x with
  | ok t => exact hf t
  | raise e => rfl
  | stop g => rfl

/-- A test that reads nothing exchanged, between two ways that commute. -/
theorem Eff.ite_holding {p : Prop} [Decidable p] {x x' y y' : Eff State} (hx : x' = x.holding m)
    (hy : y' = y.holding m) : (if p then x' else y') = (if p then x else y).holding m := by
  rw [hx, hy]
  exact (apply_ite (Eff.holding · m) p x y).symm

theorem writeCell_holding (s m : State) (v : Byte) : writeCell (s.holding m) v = (writeCell s v).holding m :=
  Eff.ite_holding rfl rfl

theorem updateCell_holding (f : Byte → Byte) : updateCell f (s.holding m) = (updateCell f s).holding m := by
  refine Eff.bind_holding (readCell s) fun v => ?_
  rw [writeCell_holding]
  exact Eff.holding_bind _ fun _ => rfl

/-- A branch reads the one `JT` entry at `IP`. -/
theorem branch_holding (hj : (s.holding m).jtEntry s.ip.toNat = s.jtEntry s.ip.toNat) :
    branch (s.holding m) = (branch s).holding m := by
  have htarget : jumpTarget (s.holding m) s.ip.toNat = jumpTarget s s.ip.toNat := by
    rw [jumpTarget, readJt, hj]
    rfl
  refine Eq.trans ?_ (Eff.bind_holding (jumpTarget s s.ip.toNat) fun _ => rfl)
  exact congrArg (Eff.bind · _) htarget

theorem exec_holding {i : Instr}
    (hj : i = .loopStart ∨ i = .loopEnd → (s.holding m).jtEntry s.ip.toNat = s.jtEntry s.ip.toNat) :
    exec i (s.holding m) = outcomeHolding (exec i s) m := by
  have settled {x x' : Eff State} (h : x' = x.holding m) : settle (s.holding m) x' = outcomeHolding (settle s x) m :=
    h ▸ settle_holding x
  cases i with
  | nop => rfl
  | moveLeft n => exact settled (Eff.ite_holding rfl rfl)
  | moveRight n => exact settled (Eff.ite_holding rfl rfl)
  | decrement n => exact settled (updateCell_holding _)
  | increment n => exact settled (updateCell_holding _)
  | loopStart =>
    exact settled (Eff.bind_holding (cellIsZero s) fun _ => Eff.ite_holding (branch_holding (hj (.inl rfl))) rfl)
  | loopEnd =>
    exact settled (Eff.bind_holding (cellIsZero s) fun _ => Eff.ite_holding rfl (branch_holding (hj (.inr rfl))))
  | output => exact settled (Eff.bind_holding (readCell s) fun _ => rfl)
  | input => rfl

theorem respond_holding (r : Response) (s m : State) : respond r (s.holding m) = (respond r s).holding m := by
  have store (v : Byte) : ((writeCell (s.holding m) v).bind fun t => .ok t.resume) =
      ((writeCell s v).bind fun t => .ok t.resume).holding m := by
    rw [writeCell_holding]
    exact Eff.holding_bind _ fun _ => rfl
  cases r with
  | byte b => exact store b
  | eof =>
    cases hp : s.cfg.eofPolicy with
    | zero => simpa [respond, hp, State.holding] using store 0x00#8
    | unchanged => simp [respond, hp, State.holding, State.resume, State.advance, Eff.holding]
  | fail => rfl

theorem inputStep_holding (s m : State) : inputStep (s.holding m) = outcomeHolding (inputStep s) m := by
  by_cases hm : s.mode = .waitIn
  · cases hn : s.inputs.next with
    | none => simp [inputStep, hn, State.holding, outcomeHolding]
    | some r =>
      rw [inputStep_of_waiting hm hn, inputStep_of_waiting (s := s.holding m) hm hn, ← settle_holding,
        ← respond_holding]
      rfl
  · rw [inputStep_of_not_waiting hm, inputStep_of_not_waiting (s := s.holding m) hm]
    rfl

/-! ## The brackets among the words are those that branch -/

theorem decodeCounted_eq_ok {mk : BitVec 8 → Instr} {cnt : BitVec 8} {i : Instr} :
    decodeCounted mk cnt = .ok i ↔ cnt ≠ 0#8 ∧ i = mk cnt := by
  rw [decodeCounted]
  split <;> simp [*, eq_comm]

/-- A word that decodes has the `OP` of its instruction (30_encoding.md R72). -/
theorem opField_of_decode {w : IWord} {i : Instr} (h : decode w = .ok i) : opField w = i.opcode := by
  have counted {mk : BitVec 8 → Instr} (hmk : ∀ n, (mk n).opcode = (mk 0#8).opcode)
      (hd : decodeCounted mk (cntField w) = .ok i) : i.opcode = (mk 0#8).opcode :=
    (decodeCounted_eq_ok.mp hd).2 ▸ hmk _
  apply BitVec.eq_of_toNat_eq
  rw [decode] at h
  split at h
  case h_1 hop | h_6 hop | h_7 hop | h_8 hop | h_9 hop => cases h; exact hop
  case h_2 hop | h_3 hop | h_4 hop | h_5 hop => rw [counted (fun _ => rfl) h]; exact hop
  case h_10 => cases h

theorem isBracket_of_decode {w : IWord} {i : Instr} (h : decode w = .ok i) (hi : i = .loopStart ∨ i = .loopEnd) :
    isOpen w = true ∨ isClose w = true := by
  rw [isOpen, isClose, opField_of_decode h]
  exact hi.imp (by rintro rfl; rfl) (by rintro rfl; rfl)

/-! ## A step, and a run -/

theorem dispatch_holding {w : IWord}
    (hj : isOpen w = true ∨ isClose w = true → (s.holding m).jtEntry s.ip.toNat = s.jtEntry s.ip.toNat) :
    dispatch w (s.holding m) = outcomeHolding (dispatch w s) m := by
  cases hd : decode w with
  | ok i =>
    simp only [dispatch, hd]
    exact exec_holding fun hi => hj (isBracket_of_decode hd hi)
  | error e =>
    simp only [dispatch, hd]
    rfl

/-- With the same module, whatever else is held, the interpreter does the same. -/
theorem interpStep_holding (h : SameModule s (s.holding m)) :
    interpStep (s.holding m) = outcomeHolding (interpStep s) m := by
  by_cases he : s.ip = s.len
  · rw [interpStep_of_eq he, interpStep_of_eq (s := s.holding m) he]
    rfl
  by_cases hl : s.ip.toNat < s.len.toNat
  · by_cases hh : s.ip.toNat < s.cfg.heapSize
    · have hword : (s.holding m).imem.read s.ip.toNat = s.imem.read s.ip.toNat := h.words _ hl
      rw [interpStep_of_lt hl hh, ← dispatch_holding (h.targets _ hl), ← hword]
      exact interpStep_of_lt (s := s.holding m) hl hh
    · simp [interpStep, State.holding, he, hl, hh, readImem, outcomeHolding]
  · simp [interpStep, State.holding, he, hl, outcomeHolding]

theorem deviceStep_holding (h : SameModule s (s.holding m)) :
    deviceStep (s.holding m) = outcomeHolding (deviceStep s) m := by
  by_cases hm : s.mode = .running
  · rw [deviceStep_of_running hm, deviceStep_of_running (s := s.holding m) hm]
    exact interpStep_holding h
  · rw [deviceStep_of_not_running hm, deviceStep_of_not_running (s := s.holding m) hm]
    rfl

/-- With nothing on the agenda the host and the reset line have no turn. -/
theorem turn_of_agenda_nil (ha : s.agenda = []) : s.turn = .device ∨ s.turn = .input := by
  rw [State.turn, ha]
  change s.defaultTurn = _ ∨ s.defaultTurn = _
  rw [State.defaultTurn]
  split
  · exact .inr rfl
  · exact .inl rfl

theorem step_holding (ha : s.agenda = []) (h : SameModule s (s.holding m)) :
    step (s.holding m) = outcomeHolding (step s) m := by
  have hpop : s.popTurn = s := popTurn_of_nil ha
  have hpop' : (s.holding m).popTurn = s.holding m := popTurn_of_nil ha
  rcases turn_of_agenda_nil ha with ht | ht
  · rw [step_of_device ht, step_of_device (s := s.holding m) ht, hpop, hpop']
    exact deviceStep_holding h
  · rw [step_of_input ht, step_of_input (s := s.holding m) ht, hpop, hpop']
    exact inputStep_holding s m

theorem jtEntry_congr {i : Nat} (hc : t.cfg = s.cfg) (hj : t.jt.read i = s.jt.read i) :
    t.jtEntry i = s.jtEntry i := by
  rw [State.jtEntry, State.jtEntry, hc, hj]

/-- What is held instead stays the same module while the module is not written. -/
theorem SameModule.of_moduleFrame (h : SameModule s (s.holding m)) (hf : ModuleFrame s t) :
    SameModule t (t.holding m) where
  len := rfl
  words i hi := by
    rw [hf.len] at hi
    rw [hf.imem]
    exact h.words i hi
  targets i hi hb := by
    rw [hf.len] at hi
    rw [hf.imem] at hb
    calc (t.holding m).jtEntry i
      _ = (s.holding m).jtEntry i := jtEntry_congr hf.cfg rfl
      _ = s.jtEntry i := h.targets i hi hb
      _ = t.jtEntry i := (jtEntry_congr hf.cfg (by rw [hf.jt])).symm

/-- The run with other contents held goes through the states of the first with those contents held. -/
theorem run_holding (k : Nat) (hInv : Inv s) (ha : s.agenda = []) (h : SameModule s (s.holding m)) :
    ∃ t, Sys2Proof.core.run k s = .next t ∧ Sys2Proof.core.run k (s.holding m) = .next (t.holding m) := by
  induction k generalizing s with
  | zero => exact ⟨s, rfl, rfl⟩
  | succ k ih =>
    obtain ⟨u, hu⟩ := noStepStopsFromAGoodState s hInv
    have hframe : ModuleFrame s u := popTurn_of_nil ha ▸ step_moduleFrame (turn_of_agenda_nil ha) hu
    have hu' : step (s.holding m) = .next (u.holding m) := by rw [step_holding ha h, hu]; rfl
    obtain ⟨t, ht, ht'⟩ :=
      ih (everyStepKeepsTheInvariant s u hInv hu) (hframe.agenda.trans ha) (h.of_moduleFrame hframe)
    exact ⟨t, by rw [core_run_succ, hu]; exact ht, by rw [core_run_succ, hu']; exact ht'⟩

/-! ## The start of a run -/

theorem step_of_runStart (hm : NoFault s) (ha : s.agenda = [hostWrite 0 4#32]) : step s = .next s.popTurn.startRun :=
  step_of_writeReg (turn_of_cons ha)
    (writeCtrl_of_accepts (s := s.popTurn) (v := 4#32) (c := .runStart) (by decide) (startable_iff.mpr hm))

/-- A fresh run is the same whatever was held before, but for what it does not read. -/
theorem startRun_eq_holding {s' : State} (hc : s'.cfg = s.cfg) (hl : s'.len = s.len) (hi : s'.inputs = s.inputs)
    (ha : s'.agenda = s.agenda) : s'.popTurn.startRun = s.popTurn.startRun.holding s' := by
  rw [State.startRun, State.startRun, State.popTurn, State.popTurn, State.holding, hc, hl, hi, ha]

/-- Settles O58: after `RUN_START` the second run is the first with other contents held, and stays so. -/
theorem runsOfOneModuleAgree : Obligations.RunsOfOneModuleAgree := by
  intro s s' k hInv _ hm hm' hc hmod hi ha ha'
  have hstart : s'.popTurn.startRun = s.popTurn.startRun.holding s' :=
    startRun_eq_holding hc hmod.len hi (ha'.trans ha.symm)
  have hentry (i : Nat) : (s.popTurn.startRun.holding s').jtEntry i = s'.jtEntry i := jtEntry_congr hc.symm rfl
  have hsame : SameModule s.popTurn.startRun (s.popTurn.startRun.holding s') :=
    ⟨rfl, hmod.words, fun i hl hb => (hentry i).trans (hmod.targets i hl hb)⟩
  obtain ⟨t, ht, ht'⟩ := run_holding k hInv.popTurn.startRun (congrArg List.tail ha) hsame
  refine ⟨t, t.holding s', ?_, ?_, holding_sameRun t s'⟩
  · rw [core_run_succ, step_of_runStart hm ha]
    exact ht
  · rw [core_run_succ, step_of_runStart hm' ha', hstart]
    exact ht'

end Sys2Proof.Machine
end

section
/-! PROOF. The decoder and the encoder agree (30_encoding.md R71 to R79). One equation says what the decoder answers
at each `OP` of the map; from it follows which words decode to which instruction, and the statements. -/

namespace Sys2Proof

open Laws.EncodedFields (fields_of_append)
open Machine (decodeCounted_eq_ok opField_of_decode)

variable {i : Instr} {w : IWord}

/-! ## The two fields of a word (30_encoding.md R71) -/

@[simp] theorem opField_append (op cnt : BitVec 8) : opField (op ++ cnt : BitVec (8 + 8)) = op :=
  (fields_of_append op cnt).1

@[simp] theorem cntField_append (op cnt : BitVec 8) : cntField (op ++ cnt : BitVec (8 + 8)) = cnt :=
  (fields_of_append op cnt).2

/-- A word is its two fields: no bit lies outside them. -/
theorem opField_append_cntField (w : IWord) : (opField w ++ cntField w : BitVec (8 + 8)) = w :=
  BitVec.extractLsb'_append_extractLsb'_eq_extractLsb' rfl |>.trans BitVec.extractLsb'_eq_self

/-! ## The count of an instruction -/

/-- The instruction with the same `OP` and the count `n`, if it is count-bearing. -/
def Instr.withCount : Instr → BitVec 8 → Instr
  | .nop, _ => .nop
  | .moveLeft _, n => .moveLeft n
  | .moveRight _, n => .moveRight n
  | .decrement _, n => .decrement n
  | .increment _, n => .increment n
  | .loopStart, _ => .loopStart
  | .loopEnd, _ => .loopEnd
  | .output, _ => .output
  | .input, _ => .input

theorem Instr.eq_withCount_iff (hc : i.isCounted = true) (n : BitVec 8) : i = i.withCount n ↔ i.cnt = n := by
  cases i <;> simp_all [Instr.isCounted, Instr.withCount, Instr.cnt]

theorem Instr.wf_iff : i.wf = true ↔ (i.isCounted = true → i.cnt ≠ 0#8) := by
  cases i <;> simp [Instr.wf, Instr.isCounted, Instr.cnt]

/-! ## The decoder -/

/-- The decoder at the `OP` of an instruction: the row of the map in 30_encoding.md R72, R77. -/
theorem decode_of_opField (h : opField w = i.opcode) :
    decode w = if i.isCounted = true then decodeCounted i.withCount (cntField w) else .ok i := by
  rw [decode, h]
  cases i <;> rfl

/-- Above the last `OP` of the map every word is illegal (30_encoding.md R76). -/
theorem decode_of_reserved (h : 9 ≤ (opField w).toNat) : decode w = .error .reservedOpcode := by
  rw [decode]
  split
  case h_10 => rfl
  all_goals omega

/-- The words that decode to `i`: its `OP`, and the whole of its count where it has one. -/
theorem decode_eq_ok_iff : decode w = .ok i ↔
    opField w = i.opcode ∧ i.wf = true ∧ (i.isCounted = true → i.cnt = cntField w) := by
  have answer (hop : opField w = i.opcode) :
      decode w = .ok i ↔ i.wf = true ∧ (i.isCounted = true → i.cnt = cntField w) := by
    rw [decode_of_opField hop, Instr.wf_iff]
    by_cases hc : i.isCounted = true
    · simp only [hc, if_true, decodeCounted_eq_ok, Instr.eq_withCount_iff hc, forall_const]
      exact and_congr_left fun hn => by rw [hn]
    · simp [hc]
  exact ⟨fun h => ⟨opField_of_decode h, (answer (opField_of_decode h)).mp h⟩, fun ⟨hop, h⟩ => (answer hop).mpr h⟩

theorem decode_encode (h : i.wf = true) : decode (encode i) = .ok i :=
  decode_eq_ok_iff.mpr ⟨opField_append _ _, h, fun _ => (cntField_append _ _).symm⟩

theorem encode_eq_of_fields (hop : opField w = i.opcode) (hcnt : i.cnt = cntField w) : encode i = w := by
  rw [encode, ← hop, hcnt, opField_append_cntField]

theorem decode_opcode_append (i : Instr) (cnt : BitVec 8) : decode (i.opcode ++ cnt) =
    if i.isCounted = true then decodeCounted i.withCount cnt else .ok i := by
  rw [decode_of_opField (opField_append _ _), cntField_append]

/-! ## The statements -/

/-- Settles O1: both directions read off which words decode to an instruction. -/
theorem decodeInvertsEncode : Obligations.DecodeInvertsEncode := by
  refine ⟨fun _ => decode_encode, fun w i h => ?_⟩
  obtain ⟨hop, hwf, hcnt⟩ := decode_eq_ok_iff.mp h
  exact ⟨hwf, hop, fun hc => encode_eq_of_fields hop (hcnt hc)⟩

/-- Settles O2: each row is the decoder's equation at one `OP`; the count given to a counted row's instruction is
overwritten. -/
theorem decodeFollowsOpcodeMap : Obligations.DecodeFollowsOpcodeMap := by
  intro cnt
  exact ⟨decode_opcode_append .nop cnt,
    decode_opcode_append (.moveLeft cnt) cnt,
    decode_opcode_append (.moveRight cnt) cnt,
    decode_opcode_append (.decrement cnt) cnt,
    decode_opcode_append (.increment cnt) cnt,
    decode_opcode_append .loopStart cnt,
    decode_opcode_append .loopEnd cnt,
    decode_opcode_append .output cnt,
    decode_opcode_append .input cnt,
    fun op h => decode_of_reserved (by rwa [opField_append])⟩

/-- Settles O3: the words are fixed, and the decoder is run on each. -/
theorem testVectorWordsDecode : Obligations.TestVectorWordsDecode := by
  unfold Obligations.TestVectorWordsDecode
  decide

end Sys2Proof
end

section
/-! PROOF. The encoder, one action a step (40_encoder.md R91 to R104): a turn in `ENCODING` is a `SRC` write, the
`ENC_END`, or changes nothing of the encoder; and what each byte does with and without a pending run. -/

namespace Sys2Proof.Machine

variable {s t u : State} {c : Byte} {p : FoldOp}

/-! ## The turns taken in `ENCODING` -/

/-- Settles O43: the command is accepted, and is `startEncode`. -/
theorem encStartDiscardsTheModule : Obligations.EncStartDiscardsTheModule := by
  intro s v ht hc he hm
  exact step_of_writeReg ht (writeCtrl_of_accepts (s := s.popTurn) (c := .encStart) hc
    (Bool.and_eq_true_iff.mpr ⟨he, startable_iff.mpr hm⟩))

theorem step_of_encEnd {v : HostWord} (ht : s.turn = .host (.writeReg 0 v)) (hc : v.extractLsb' 0 4 = 2#4)
    (he : s.cfg.hasEncoder = true) (hm : s.mode = .encoding) : step s = settle s.popTurn (encodeEnd s.popTurn) :=
  step_of_writeReg ht (writeCtrl_of_accepts (s := s.popTurn) (c := .encEnd) hc
    (Bool.and_eq_true_iff.mpr ⟨he, beq_iff_eq.mpr hm⟩))

/-- In `ENCODING` a register write is taken by the encoder or ignored (10_state.md R35, R36, R38). -/
theorem writeReg_of_encoding (hm : s.mode = .encoding) (i : Nat) (v : HostWord) :
    (i = 1 ∧ writeReg i v s = encodeByte (v.extractLsb' 0 8) s) ∨
    (i = 0 ∧ v.extractLsb' 0 4 = 2#4 ∧ writeReg i v s = encodeEnd s) ∨ writeReg i v s = .ok s := by
  have hquiet : s.mode.quiet = false := by rw [hm]; rfl
  have hstart : s.mode.startable = false := by rw [hm]; rfl
  rcases writeReg_cases i v s with hw | ⟨hi, hw⟩ | ⟨hi, hw⟩ | ⟨-, hw⟩ <;> rw [hw]
  · exact .inr (.inr rfl)
  · rcases writeCtrl_cases v s with h | ⟨-, -, h, -⟩ | ⟨hc, -, -, h⟩ | ⟨-, h, -⟩ | ⟨-, h, -⟩
    · exact .inr (.inr h)
    · simp [hstart] at h
    · exact .inr (.inl ⟨hi, command_eq_some.mp hc, h⟩)
    · simp [hstart] at h
    · simp [hquiet] at h
  · rcases writeSrc_cases v s with h | ⟨-, -, h⟩
    · exact .inr (.inr h)
    · exact .inl ⟨hi, h⟩
  · exact .inr (.inr (writeLen_of_refused (.inl hquiet)))

/-- Everything a step from `ENCODING` can be: a reset, a source byte, the end of the source, or a turn that changes
at most what the host has read. -/
theorem step_of_encoding (hm : s.mode = .encoding) :
    s.turn = .reset ∨
    (∃ v, s.turn = .host (.writeReg 1 v) ∧ step s = settle s.popTurn (encodeByte (v.extractLsb' 0 8) s.popTurn)) ∨
    (∃ v, s.turn = .host (.writeReg 0 v) ∧ v.extractLsb' 0 4 = 2#4 ∧
      step s = settle s.popTurn (encodeEnd s.popTurn)) ∨
    ∃ rs, step s = .next { s.popTurn with hostReads := rs } := by
  cases ht : s.turn with
  | device =>
    exact .inr (.inr (.inr ⟨s.hostReads, (step_of_device ht).trans (deviceStep_of_not_running (by simp [hm]))⟩))
  | input =>
    exact .inr (.inr (.inr ⟨s.hostReads, (step_of_input ht).trans (inputStep_of_not_waiting (by simp [hm]))⟩))
  | reset => exact .inl rfl
  | host a =>
    cases a with
    | readReg i => exact .inr (.inr (.inr ⟨_, step_of_readReg ht⟩))
    | readArray a i => exact .inr (.inr (.inr ⟨_, step_of_readArray ht⟩))
    | writeArray a i v =>
      have hclosed : portOpen s.popTurn i = false := by simp [portOpen, hm, Mode.quiet]
      exact .inr (.inr (.inr ⟨s.hostReads, by rw [step_of_writeArray ht, writePort_of_closed hclosed]; rfl⟩))
    | writeReg i v =>
      rcases writeReg_of_encoding (s := s.popTurn) hm i v with ⟨rfl, h⟩ | ⟨rfl, hc, h⟩ | h
      · exact .inr (.inl ⟨v, rfl, step_of_writeReg ht h⟩)
      · exact .inr (.inr (.inl ⟨v, rfl, hc, step_of_writeReg ht h⟩))
      · exact .inr (.inr (.inr ⟨s.hostReads, step_of_writeReg ht h⟩))

/-! ## The fold characters and their words (40_encoder.md R92, R96) -/

/-- The fold character of an operator. -/
def FoldOp.char : FoldOp → Byte
  | .moveLeft => 0x3C#8
  | .moveRight => 0x3E#8
  | .decrement => 0x2D#8
  | .increment => 0x2B#8

theorem foldOp_char (op : FoldOp) : foldOp op.char = some op := by cases op <;> rfl

theorem foldOp_eq_some {op : FoldOp} : foldOp c = some op ↔ c = op.char := by
  refine ⟨fun h => ?_, fun h => h ▸ foldOp_char op⟩
  simp only [foldOp] at h
  split_ifs at h <;> cases h <;> assumption

theorem foldOp_eq_none : foldOp c = none ↔ c ∉ [0x3C#8, 0x3E#8, 0x2D#8, 0x2B#8] := by
  rw [foldOp]
  split_ifs <;> simp [*]

theorem encode_output : encode .output = 0x0700#16 := rfl
theorem encode_input : encode .input = 0x0800#16 := rfl

/-! ## A pending run -/

/-- The state with the pending run of `p` flushed (40_encoder.md R95). -/
def State.flushed (s : State) (p : FoldOp) : State :=
  { s with
    imem := s.imem.write s.len.toNat (encode (p.instr s.runCnt))
    len := s.len + 1#15
    runOp := none
    runCnt := 0#8 }

theorem flush_eq_flushed (hr : s.runOp = some p) (hl : s.len.toNat < s.cfg.heapSize) : flush s = .ok (s.flushed p) :=
  flush_of_some hr hl

theorem flush_of_full (hr : s.runOp = some p) (hl : s.len.toNat = s.cfg.heapSize) :
    flush s = .raise .sourceTooLarge :=
  flush_eq_raise.mpr ⟨by rw [hr]; rfl, hl, rfl⟩

theorem continuesRun_of_none (hr : s.runOp = none) : continuesRun c s = false := by simp [continuesRun, hr]

/-- A run ends at a byte of another class, and at 255. -/
theorem continuesRun_of_pending (hr : s.runOp = some p) (hc : foldOp c ≠ some p ∨ s.runCnt.toNat = 255) :
    continuesRun c s = false := by
  rw [Bool.eq_false_iff, ne_eq, continuesRun_iff]
  rintro ⟨op, hop, hf, hn⟩
  obtain rfl : p = op := Option.some.inj (hr.symm.trans hop)
  rcases hc with hc | hc
  · exact hc hf
  · omega

theorem encodeByte_of_no_run (hr : s.runOp = none) : encodeByte c s = afterRun c s := by
  rw [encodeByte_of_not_continues (continuesRun_of_none hr), flush_of_none hr, Eff.bind_ok]

/-- A byte that is no fold character, where no run is pending. -/
theorem encodeByte_of_single (hr : s.runOp = none) (hf : foldOp c = none) : encodeByte c s = encodeSingle c s :=
  (encodeByte_of_no_run hr).trans (afterRun_of_none hf)

theorem encodeByte_of_pending (hr : s.runOp = some p) (hc : foldOp c ≠ some p ∨ s.runCnt.toNat = 255)
    (hl : s.len.toNat < s.cfg.heapSize) : encodeByte c s = afterRun c (s.flushed p) := by
  rw [encodeByte_of_not_continues (continuesRun_of_pending hr hc), flush_eq_flushed hr hl, Eff.bind_ok]

theorem encodeByte_of_pending_full (hr : s.runOp = some p) (hc : foldOp c ≠ some p ∨ s.runCnt.toNat = 255)
    (hl : s.len.toNat = s.cfg.heapSize) : encodeByte c s = .raise .sourceTooLarge := by
  rw [encodeByte_of_not_continues (continuesRun_of_pending hr hc), flush_of_full hr hl, Eff.bind_raise]

theorem encodeEnd_of_no_run (hr : s.runOp = none) :
    encodeEnd s = if s.sp = 0#15 then .ok { s with mode := .idle } else .raise .unmatchedOpenBracket := by
  rw [encodeEnd, flush_of_none hr, Eff.bind_ok]

/-! ## The statements of one action -/

/-- Settles O45: the tables of the fold characters and their words, and a fold character with its own operator
pending, with none pending, and with a run that ends. -/
theorem foldCharactersRunLengthEncode : Obligations.FoldCharactersRunLengthEncode := by
  refine ⟨⟨foldOp_char .moveLeft, foldOp_char .moveRight, foldOp_char .decrement, foldOp_char .increment,
    fun c => foldOp_eq_none.mpr⟩, fun n => ⟨rfl, rfl, rfl, rfl⟩, fun s c op hf => ⟨fun hr hn => ?_, fun hr => ?_,
    fun p hr hend => ?_⟩⟩
  · exact encodeByte_of_continues (continuesRun_iff.mpr ⟨op, hr, hf, hn⟩)
  · rw [encodeByte_of_no_run hr, afterRun_of_fold hf]
  · have hends : foldOp c ≠ some p ∨ s.runCnt.toNat = 255 :=
      hend.imp_left fun hne h => hne (Option.some.inj (h.symm.trans hf))
    refine ⟨fun hl => ⟨_, (encodeByte_of_pending hr hends hl).trans (afterRun_of_fold hf),
      Memory.read_write_same _ _ _, fun a ha => Memory.read_write_other _ ha _, rfl⟩,
      encodeByte_of_pending_full hr hends⟩

/-- Settles O46: the byte and the end of the source both begin with the flush, which does nothing to the flushed
state. -/
theorem pendingRunIsFlushedFirst : Obligations.PendingRunIsFlushedFirst := by
  intro s c p hf hr
  have hends : foldOp c ≠ some p ∨ s.runCnt.toNat = 255 := .inl (by simp [hf])
  refine ⟨fun hl => ⟨s.flushed p, Memory.read_write_same _ _ _, fun a ha => Memory.read_write_other _ ha _, rfl,
    ?_, ?_⟩, fun hl => ⟨encodeByte_of_pending_full hr hends hl, ?_⟩⟩
  · exact (encodeByte_of_pending hr hends hl).trans (encodeByte_of_no_run rfl).symm
  · rw [encodeEnd, encodeEnd, flush_eq_flushed hr hl, flush_of_none (s := s.flushed p) rfl]
  · rw [encodeEnd, flush_of_full hr hl, Eff.bind_raise]

/-- Settles O47: `.` and `,` are an `emit`, and a comment byte is in no class. -/
theorem singleAndCommentBytes : Obligations.SingleAndCommentBytes := by
  intro s c hr
  refine ⟨fun hc => ?_, fun hc => ?_⟩
  · obtain ⟨i, hi, henc⟩ : ∃ i, encode i = (if c = 0x2E#8 then 0x0700#16 else 0x0800#16) ∧
        encodeByte c s = emit i s := by
      rcases hc with rfl | rfl
      · exact ⟨.output, encode_output, encodeByte_of_single hr rfl⟩
      · exact ⟨.input, encode_input, encodeByte_of_single hr rfl⟩
    rw [henc, ← hi]
    exact ⟨fun hl => ⟨_, emit_of_lt i hl, Memory.read_write_same _ _ _, fun a ha => Memory.read_write_other _ ha _, rfl⟩,
      emit_of_eq i⟩
  · simp only [List.mem_cons, List.not_mem_nil, or_false, not_or] at hc
    obtain ⟨h1, h2, h3, h4, hout, hin, hopen, hclose⟩ := hc
    rw [encodeByte_of_single hr (foldOp_eq_none.mpr (by simp [*]))]
    simp [encodeSingle, hout, hin, hopen, hclose]

/-- Settles O48: `[` without a run pending is `Open()`. -/
theorem openBracketPushesItsSlot : Obligations.OpenBracketPushesItsSlot := by
  intro s hr
  rw [show encodeByte 0x5B#8 s = openBracket s from encodeByte_of_single hr rfl]
  refine ⟨fun h => openBracket_eq_raise.mpr ⟨h, rfl⟩, fun hs hl => ⟨_, openBracket_of_lt hs hl,
    Memory.read_write_same _ _ _, fun a ha => Memory.read_write_other _ ha _,
    Memory.read_write_same _ _ _, fun a ha => Memory.read_write_other _ ha _, rfl⟩⟩

/-- Settles O49: `]` without a run pending is `Close()`; the two `JT` writes go to two slots, as `o` is below `LEN`. -/
theorem closeBracketWritesThePair : Obligations.CloseBracketWritesThePair := by
  intro s hr
  rw [show encodeByte 0x5D#8 s = closeBracket s from encodeByte_of_single hr rfl]
  refine ⟨fun h0 => closeBracket_eq_raise.mpr (.inl ⟨h0, rfl⟩),
    fun h0 hl => closeBracket_eq_raise.mpr (.inr ⟨h0, hl, rfl⟩), ?_⟩
  rintro o h0 hl hs rfl ho
  refine ⟨_, closeBracket_eq_ok.mpr ⟨h0, hs, hl, by omega, rfl⟩, ?_, Memory.read_write_same _ _ _, fun a hao hal => ?_,
    Memory.read_write_same _ _ _, fun a ha => Memory.read_write_other _ ha _, rfl⟩
  · exact (Memory.read_write_other _ (Nat.ne_of_lt ho) _).trans (Memory.read_write_same _ _ _)
  · exact (Memory.read_write_other _ hal _).trans (Memory.read_write_other _ hao _)

/-- Settles O50: the command is accepted, and without a run pending the test of `SP` decides. -/
theorem encEndFinishesOrRaises : Obligations.EncEndFinishesOrRaises := by
  intro s v ht hc he hm
  have hstep := step_of_encEnd ht hc he hm
  refine ⟨hstep, fun hr hs => ?_, fun hr hs => ?_⟩
  · rw [hstep, encodeEnd_of_no_run (s := s.popTurn) hr, if_pos (show s.popTurn.sp = 0#15 from hs)]
    rfl
  · rw [hstep, encodeEnd_of_no_run (s := s.popTurn) hr, if_neg (show s.popTurn.sp ≠ 0#15 from hs)]
    rfl

/-! ## What a step in `ENCODING` leaves unchanged, and when it finds no slot -/

/-- The flush writes neither the stack nor the jump table. -/
theorem flush_keeps_stack_jt (h : flush s = .ok u) : u.sp = s.sp ∧ u.stack = s.stack ∧ u.jt = s.jt ∧ u.cfg = s.cfg := by
  rcases flush_eq_ok.mp h with ⟨-, rfl⟩ | ⟨op, -, -, rfl⟩ <;> exact ⟨rfl, rfl, rfl, rfl⟩

/-- A `]` that is taken writes one pair (40_encoder.md R99). -/
theorem encodeByte_close_jt (h : encodeByte 0x5D#8 s = .ok t) : ∃ l : Slot, t.sp = s.sp - 1#15 ∧ t.len = l + 1#15 ∧
    t.jt = (s.jt.write (s.stack.read t.sp.toNat).toNat l).write l.toNat (s.stack.read t.sp.toNat) := by
  have hends : continuesRun 0x5D#8 s = false := by
    rw [Bool.eq_false_iff, ne_eq, continuesRun_iff]
    rintro ⟨op, -, hf, -⟩
    cases hf
  rw [encodeByte_of_not_continues hends, Eff.bind_eq_ok] at h
  obtain ⟨u, hu, h⟩ := h
  obtain ⟨hsp, hstack, hjt, -⟩ := flush_keeps_stack_jt hu
  obtain ⟨-, -, -, -, rfl⟩ := closeBracket_eq_ok.mp (show closeBracket u = .ok t from h)
  exact ⟨u.len, by rw [hsp], rfl, by rw [hstack, hjt]⟩

/-- Settles O51, by the turn taken in `ENCODING`. -/
theorem encoderFrameInEncoding : Obligations.EncoderFrameInEncoding := by
  intro s t hm hr h
  rcases step_of_encoding hm with ht | ⟨v, ht, hs⟩ | ⟨v, -, -, hs⟩ | ⟨rs, hs⟩
  · exact absurd ht hr
  · rcases settle_eq_next.mp (hs.symm.trans h) with hx | ⟨e, -, rfl⟩
    · obtain ⟨f, -, hjt⟩ := encodeByte_frame hx
      refine ⟨f.tape, f.ip, f.dp, f.outputs, f.inputs, f.cfg, ?_⟩
      by_cases hc : v.extractLsb' 0 8 = 0x5D#8
      · rw [hc] at hx
        obtain ⟨l, hsp, hlen, hpair⟩ := encodeByte_close_jt hx
        exact .inr ⟨v, _, l, ht, hc, rfl, hsp, hlen, hpair⟩
      · exact .inl (hjt hc)
    · exact ⟨rfl, rfl, rfl, rfl, rfl, rfl, .inl rfl⟩
  · rcases settle_eq_next.mp (hs.symm.trans h) with hx | ⟨e, -, rfl⟩
    · obtain ⟨f, -, hjt⟩ := encodeEnd_frame hx
      exact ⟨f.tape, f.ip, f.dp, f.outputs, f.inputs, f.cfg, .inl hjt⟩
    · exact ⟨rfl, rfl, rfl, rfl, rfl, rfl, .inl rfl⟩
  · cases hs.symm.trans h
    exact ⟨rfl, rfl, rfl, rfl, rfl, rfl, .inl rfl⟩

/-- The flush of a pending run takes one slot. -/
theorem flush_len (hc : s.cfg.legal) (hu : flush s = .ok u) :
    (s.runOp = none ∧ u.len = s.len) ∨ (s.runOp ≠ none ∧ u.len.toNat = s.len.toNat + 1) := by
  rcases flush_eq_ok.mp hu with ⟨hr, rfl⟩ | ⟨op, hr, hl, rfl⟩
  · exact .inl ⟨hr, rfl⟩
  · exact .inr ⟨by simp [hr], toNat_succ (Nat.lt_of_lt_of_le hl (legal_heapSize_le hc))⟩

theorem encodeSingle_sourceTooLarge (h : encodeSingle c s = .raise .sourceTooLarge) :
    s.len.toNat = s.cfg.heapSize ∨ (c = 0x5B#8 ∧ s.sp.toNat = s.cfg.stackSize) := by
  rcases encodeSingle_cases c s with ⟨-, h'⟩ | ⟨-, h'⟩ | ⟨hc, h'⟩ | ⟨-, h'⟩ | ⟨-, -, -, -, h'⟩ <;> rw [h'] at h
  · exact .inl (emit_eq_raise.mp h).1
  · exact .inl (emit_eq_raise.mp h).1
  · rcases (openBracket_eq_raise.mp h).1 with hs | hl
    · exact .inr ⟨hc, hs⟩
    · exact .inl hl
  · rcases closeBracket_eq_raise.mp h with ⟨-, he⟩ | ⟨-, hl, -⟩
    · cases he
    · exact .inl hl
  · cases h

/-- A byte finds no slot where the module is full, the flush before it fills it, or `[` meets a full stack. -/
theorem Inv.encodeByte_sourceTooLarge (h : Inv s) (hx : Machine.encodeByte c s = .raise .sourceTooLarge) :
    s.len.toNat = s.cfg.heapSize ∨ (s.runOp ≠ none ∧ s.len.toNat + 1 = s.cfg.heapSize) ∨
    (s.sp.toNat = s.cfg.stackSize ∧ c = 0x5B#8) := by
  cases hc : continuesRun c s with
  | true => rw [encodeByte_of_continues hc] at hx; cases hx
  | false =>
    rw [encodeByte_of_not_continues hc, Eff.bind_eq_raise] at hx
    rcases hx with hx | ⟨u, hu, hx⟩
    · exact .inl (flush_eq_raise.mp hx).2.1
    · cases hf : foldOp c with
      | some op => rw [afterRun_of_fold hf] at hx; cases hx
      | none =>
        rw [afterRun_of_none hf] at hx
        obtain ⟨hsp, -, -, hcfg⟩ := flush_keeps_stack_jt hu
        rcases encodeSingle_sourceTooLarge hx with hl | ⟨hb, hs⟩
        · rcases flush_len h.cfg_legal hu with ⟨-, hlen⟩ | ⟨hr, hlen⟩
          · exact .inl (by rw [← hlen, ← hcfg, hl])
          · exact .inr (.inl ⟨hr, by rw [← hlen, ← hcfg, hl]⟩)
        · exact .inr (.inr ⟨by rw [← hsp, ← hcfg, hs], hb⟩)

theorem encodeEnd_sourceTooLarge (h : encodeEnd s = .raise .sourceTooLarge) : s.len.toNat = s.cfg.heapSize := by
  rw [encodeEnd, Eff.bind_eq_raise] at h
  rcases h with h | ⟨u, -, h⟩
  · exact (flush_eq_raise.mp h).2.1
  · split at h <;> cases h

/-- Settles O52, by the turn taken in `ENCODING`: only a byte or the end of the source raises. -/
theorem sourceTooLargeOnlyAtCapacity : Obligations.SourceTooLargeOnlyAtCapacity := by
  intro s t hInv hm h hf he
  rcases step_of_encoding hm with ht | ⟨v, ht, hs⟩ | ⟨v, -, -, hs⟩ | ⟨rs, hs⟩
  · cases (step_of_reset ht).symm.trans h
    cases hf
  · rcases settle_eq_next.mp (hs.symm.trans h) with hx | ⟨e, hx, rfl⟩
    · have hmode : t.mode = .encoding := (encodeByte_frame hx).2.1.trans hm
      cases hmode.symm.trans hf
    · obtain rfl : e = .sourceTooLarge := he
      rcases hInv.popTurn.encodeByte_sourceTooLarge hx with hl | hrun | ⟨hsp, hc⟩
      · exact .inl hl
      · exact .inr (.inl hrun)
      · exact .inr (.inr ⟨hsp, v, ht, hc⟩)
  · rcases settle_eq_next.mp (hs.symm.trans h) with hx | ⟨e, hx, rfl⟩
    · cases (encodeEnd_frame hx).2.1.symm.trans hf
    · obtain rfl : e = .sourceTooLarge := he
      exact .inl (encodeEnd_sourceTooLarge (s := s.popTurn) hx)
  · cases hs.symm.trans h
    cases hm.symm.trans hf

end Sys2Proof.Machine
end

section
/-! PROOF. The scan of the brackets (41_dispatch.md R120): which slots its pairs hold, and in which order, and so that
the jump table of a well-formed module is symmetric (40_encoder.md R107). -/

namespace Sys2Proof.Machine

variable {word : Nat → IWord} {j : Nat} {rest opens : List Nat} {ps : List (Nat × Nat)}

/-- No word is both brackets. -/
theorem isClose_eq_false_of_isOpen {w : IWord} (h : isOpen w = true) : isClose w = false := by
  rw [isOpen, beq_iff_eq] at h
  rw [isClose, h]
  rfl

/-! ## One slot of the scan -/

theorem bracketPairs_cons_open (h : isOpen (word j) = true) :
    bracketPairs word (j :: rest) opens = bracketPairs word rest (j :: opens) := by
  simp [bracketPairs, h]

theorem bracketPairs_cons_close {i : Nat} {outer : List Nat} (h : isClose (word j) = true) :
    bracketPairs word (j :: rest) (i :: outer) = (bracketPairs word rest outer).map ((i, j) :: ·) := by
  have hopen : isOpen (word j) = false :=
    Bool.eq_false_iff.mpr fun ho => by rw [isClose_eq_false_of_isOpen ho] at h; cases h
  simp only [bracketPairs, hopen, h]
  cases bracketPairs word rest outer <;> rfl

theorem bracketPairs_cons_other (ho : isOpen (word j) = false) (hc : isClose (word j) = false) :
    bracketPairs word (j :: rest) opens = bracketPairs word rest opens := by
  simp [bracketPairs, ho, hc]

/-- The three ways a scan that succeeds goes on at a slot. -/
theorem bracketPairs_cons_eq_some (h : bracketPairs word (j :: rest) opens = some ps) :
    (isOpen (word j) = true ∧ isClose (word j) = false ∧ bracketPairs word rest (j :: opens) = some ps) ∨
    (isClose (word j) = true ∧ isOpen (word j) = false ∧ ∃ i outer qs, opens = i :: outer ∧ ps = (i, j) :: qs ∧
      bracketPairs word rest outer = some qs) ∨
    (isOpen (word j) = false ∧ isClose (word j) = false ∧ bracketPairs word rest opens = some ps) := by
  cases ho : isOpen (word j) with
  | true =>
    rw [bracketPairs_cons_open ho] at h
    exact .inl ⟨rfl, isClose_eq_false_of_isOpen ho, h⟩
  | false =>
    cases hc : isClose (word j) with
    | false =>
      rw [bracketPairs_cons_other ho hc] at h
      exact .inr (.inr ⟨rfl, rfl, h⟩)
    | true =>
      cases opens with
      | nil => simp [bracketPairs, ho, hc] at h
      | cons i outer =>
        rw [bracketPairs_cons_close hc, Option.map_eq_some_iff] at h
        obtain ⟨qs, hqs, rfl⟩ := h
        exact .inr (.inl ⟨rfl, rfl, i, outer, qs, rfl, rfl, hqs⟩)

/-! ## What the pairs hold -/

/-- The slots paired as the first are those open before the scan and the `LoopStart`s it met. -/
theorem exists_pair_from_iff {js : List Nat} (h : bracketPairs word js opens = some ps) (i : Nat) :
    (∃ k, (i, k) ∈ ps) ↔ i ∈ opens ∨ (i ∈ js ∧ isOpen (word i) = true) := by
  induction js generalizing opens ps with
  | nil =>
    cases opens with
    | nil => cases h; simp
    | cons o outer => cases h
  | cons j rest ih =>
    rcases bracketPairs_cons_eq_some h with ⟨ho, -, hr⟩ | ⟨-, ho, o, outer, qs, rfl, rfl, hr⟩ | ⟨ho, -, hr⟩
    · rw [ih hr]
      by_cases hij : i = j <;> simp [hij, ho]
    · have hcons : (∃ k, (i, k) ∈ (o, j) :: qs) ↔ i = o ∨ ∃ k, (i, k) ∈ qs := by simp [exists_or]
      rw [hcons, ih hr]
      by_cases hij : i = j <;> simp [hij, ho, or_assoc]
    · rw [ih hr]
      by_cases hij : i = j <;> simp [hij, ho]

/-- The slots paired as the second are the `LoopEnd`s the scan met. -/
theorem exists_pair_to_iff {js : List Nat} (h : bracketPairs word js opens = some ps) (k : Nat) :
    (∃ i, (i, k) ∈ ps) ↔ k ∈ js ∧ isClose (word k) = true := by
  induction js generalizing opens ps with
  | nil =>
    cases opens with
    | nil => cases h; simp
    | cons o outer => cases h
  | cons j rest ih =>
    rcases bracketPairs_cons_eq_some h with ⟨-, hc, hr⟩ | ⟨hc, -, o, outer, qs, rfl, rfl, hr⟩ | ⟨-, hc, hr⟩
    · rw [ih hr]
      by_cases hkj : k = j <;> simp [hkj, hc]
    · by_cases hkj : k = j <;> simp [ih hr, hkj, hc]
    · rw [ih hr]
      by_cases hkj : k = j <;> simp [hkj, hc]

/-- Scanned in rising order, a pair's first slot lies before its second. -/
theorem pair_lt {js : List Nat} (h : bracketPairs word js opens = some ps) (hsorted : js.Pairwise (· < ·))
    (hopens : ∀ o ∈ opens, ∀ j ∈ js, o < j) : ∀ p ∈ ps, p.1 < p.2 := by
  induction js generalizing opens ps with
  | nil =>
    cases opens with
    | nil => cases h; simp
    | cons o outer => cases h
  | cons j rest ih =>
    obtain ⟨hj, hrest⟩ := List.pairwise_cons.mp hsorted
    have hopens' : ∀ o ∈ opens, ∀ k ∈ rest, o < k := fun o ho k hk => hopens o ho k (List.mem_cons_of_mem _ hk)
    rcases bracketPairs_cons_eq_some h with ⟨-, -, hr⟩ | ⟨-, -, o, outer, qs, rfl, rfl, hr⟩ | ⟨-, -, hr⟩
    · exact ih hr hrest (List.forall_mem_cons.mpr ⟨hj, hopens'⟩)
    · exact List.forall_mem_cons.mpr ⟨hopens o List.mem_cons_self j List.mem_cons_self,
        ih hr hrest fun o ho => hopens' o (List.mem_cons_of_mem _ ho)⟩
    · exact ih hr hrest hopens'

/-- Settles O55: every bracket is in a pair of the scan, and the jump table has each pair both ways. -/
theorem jumpTableIsSymmetric : Obligations.JumpTableIsSymmetric := by
  intro s hwf i hi
  obtain ⟨ps, hps, hjt⟩ := hwf.paired
  have hlt : ∀ p ∈ ps, p.1 < p.2 := pair_lt hps List.pairwise_lt_range (by simp)
  refine ⟨fun ho => ?_, fun hc => ?_⟩
  · obtain ⟨k, hk⟩ := (exists_pair_from_iff hps i).mpr (.inr ⟨List.mem_range.mpr hi, ho⟩)
    obtain ⟨hkm, hclose⟩ := (exists_pair_to_iff hps k).mp ⟨i, hk⟩
    obtain ⟨hto, hback⟩ := hjt _ hk
    rw [hto]
    exact ⟨hlt _ hk, List.mem_range.mp hkm, hclose, hback⟩
  · obtain ⟨o, ho⟩ := (exists_pair_to_iff hps i).mpr ⟨List.mem_range.mpr hi, hc⟩
    obtain hnil | ⟨-, hopen⟩ := (exists_pair_from_iff hps o).mp ⟨i, ho⟩
    · simp at hnil
    · obtain ⟨hto, hback⟩ := hjt _ ho
      rw [hback]
      exact ⟨hlt _ ho, hopen, hto⟩

end Sys2Proof.Machine
end

section
/-! PROOF. The batch algorithm (40_encoder.md R105): one equation per kind of byte for its loop, and what it gives for a
run of one fold character (R94, R106). -/

namespace Sys2Proof.Machine

variable {c : Config} {x : Byte} {op : FoldOp} {rest : List Byte}

/-- The loop of `Encode` with the fuel `Encode` gives it. -/
def batch (c : Config) (src : List Byte) (b : Build) : Except Err Build := batchLoop c src.length src b

/-- The test at the end of `Encode`: no bracket is open. -/
def Build.finish (b : Build) : Except Err Build := if b.stack.isEmpty then .ok b else .error .unmatchedOpenBracket

theorem encodeSource_eq (c : Config) (src : List Byte) :
    encodeSource c src = (batch c src Build.empty).bind Build.finish := by
  rw [encodeSource, ← batch]
  cases batch c src Build.empty <;> rfl

/-! ## The loop -/

/-- A turn of the loop on a fold character. -/
theorem batchLoop_fold (hf : foldOp x = some op) (fuel : Nat) (b : Build) : batchLoop c (fuel + 1) (x :: rest) b =
    (b.push c (encode (op.instr (BitVec.ofNat 8 (runLength x 254 rest + 1))))).bind
      (batchLoop c fuel (rest.drop (runLength x 254 rest))) := by
  simp only [batchLoop, hf]
  cases b.push c _ <;> rfl

/-- A turn of the loop on any other byte. -/
theorem batchLoop_single (hf : foldOp x = none) (fuel : Nat) (b : Build) :
    batchLoop c (fuel + 1) (x :: rest) b = (b.single c x).bind (batchLoop c fuel rest) := by
  simp only [batchLoop, hf]
  cases b.single c x <;> rfl

/-- How much fuel there is makes no difference, once it is enough. -/
theorem batchLoop_fuel {fuel fuel' : Nat} {src : List Byte} (h : src.length ≤ fuel) (h' : src.length ≤ fuel')
    (b : Build) : batchLoop c fuel src b = batchLoop c fuel' src b := by
  induction fuel generalizing fuel' src b with
  | zero =>
    obtain rfl := List.length_eq_zero_iff.mp (Nat.le_zero.mp h)
    cases fuel' <;> rfl
  | succ fuel ih =>
    cases src with
    | nil => cases fuel' <;> rfl
    | cons x rest =>
      obtain ⟨more, rfl⟩ := Nat.exists_eq_add_of_lt h'
      rw [List.length_cons, Nat.succ_le_succ_iff] at h h'
      cases hf : foldOp x with
      | some op =>
        rw [batchLoop_fold hf, batchLoop_fold hf]
        refine congrArg (Except.bind _) (funext fun b' => ih ?_ ?_ b') <;> rw [List.length_drop] <;> omega
      | none =>
        rw [batchLoop_single hf, batchLoop_single hf]
        exact congrArg (Except.bind _) (funext fun b' => ih h h' b')

@[simp] theorem batch_nil (b : Build) : batch c [] b = .ok b := rfl

theorem batch_fold (hf : foldOp x = some op) (b : Build) : batch c (x :: rest) b =
    (b.push c (encode (op.instr (BitVec.ofNat 8 (runLength x 254 rest + 1))))).bind
      (batch c (rest.drop (runLength x 254 rest))) := by
  rw [batch, List.length_cons, batchLoop_fold hf]
  refine congrArg (Except.bind _) (funext fun b' => batchLoop_fuel ?_ (Nat.le_refl _) b')
  rw [List.length_drop]
  exact Nat.sub_le _ _

theorem batch_single (hf : foldOp x = none) (b : Build) :
    batch c (x :: rest) b = (b.single c x).bind (batch c rest) := batchLoop_single hf _ b

theorem Build.push_of_lt {b : Build} (h : b.words.length < c.heapSize) (w : IWord) :
    b.push c w = .ok { b with words := b.words ++ [w] } := if_neg (Nat.ne_of_lt h)

theorem Build.push_of_full {b : Build} (h : b.words.length = c.heapSize) (w : IWord) :
    b.push c w = .error .sourceTooLarge := if_pos h

/-! ## A run of one fold character -/

theorem runLength_replicate (x : Byte) (limit k : Nat) : runLength x limit (List.replicate k x) = min limit k := by
  induction limit generalizing k with
  | zero => simp [runLength]
  | succ limit ih =>
    cases k with
    | zero => rfl
    | succ k => simp [List.replicate_succ, runLength, ih]

/-- The words of a run of `k` (40_encoder.md R94). -/
def FoldOp.pieces (op : FoldOp) (k : Nat) : List IWord :=
  List.replicate (k / 255) (encode (op.instr 255#8)) ++
    (if k % 255 = 0 then [] else [encode (op.instr (BitVec.ofNat 8 (k % 255)))])

/-- The first word of a run takes up to 255 characters. -/
theorem pieces_succ (op : FoldOp) (k : Nat) :
    op.pieces (k + 1) = encode (op.instr (BitVec.ofNat 8 (min 254 k + 1))) :: op.pieces (k - min 254 k) := by
  by_cases hk : 254 ≤ k
  · obtain ⟨m, rfl⟩ := Nat.exists_eq_add_of_le' hk
    have hdiv : (m + 254 + 1) / 255 = m / 255 + 1 := by omega
    have hmod : (m + 254 + 1) % 255 = m % 255 := by omega
    rw [Nat.min_eq_left hk, Nat.add_sub_cancel, FoldOp.pieces, hdiv, hmod]
    rfl
  · rw [Nat.min_eq_right (by omega), Nat.sub_self, FoldOp.pieces, Nat.div_eq_of_lt (by omega),
      Nat.mod_eq_of_lt (by omega)]
    rfl

theorem batch_replicate (hf : foldOp x = some op) (k : Nat) (b : Build)
    (hfits : b.words.length + (k + 254) / 255 ≤ c.heapSize) :
    batch c (List.replicate k x) b = .ok { b with words := b.words ++ op.pieces k } := by
  induction k using Nat.strong_induction_on generalizing b with
  | _ k ih =>
    cases k with
    | zero => simp [FoldOp.pieces]
    | succ k =>
      rw [List.replicate_succ, batch_fold hf, runLength_replicate, Build.push_of_lt (by omega), List.drop_replicate,
        pieces_succ]
      refine (ih _ (by omega) _ ?_).trans (by simp)
      rw [List.length_append, List.length_singleton]
      omega

/-- Settles O56: the loop from the empty module, at whose end no bracket is open. -/
theorem runOfKCharactersGivesItsPieces : Obligations.RunOfKCharactersGivesItsPieces := by
  intro c x op k hf hfits
  rw [encodeSource_eq, batch_replicate hf k Build.empty (by simpa [Build.empty] using hfits)]
  rfl

end Sys2Proof.Machine
end

section
/-! PROOF. What the batch algorithm has built is sound: its words are legal, and the bracket scan of 41_dispatch.md R120
over its words has paired what the jump table pairs, with the batch algorithm's own open slots. -/

namespace Sys2Proof.Machine

variable {b : Build} {w : IWord} {word : Nat → IWord} {ws : List IWord}

/-! ## Words in slots -/

/-- Read from slot 0 on, the words are `ws`. -/
def Spells (word : Nat → IWord) (ws : List IWord) : Prop := ∀ i w, ws[i]? = some w → word i = w

theorem spells_append : Spells word (ws ++ [w]) ↔ Spells word ws ∧ word ws.length = w := by
  refine ⟨fun h => ⟨fun i v hi => h i v ?_, h _ _ List.getElem?_concat_length⟩, fun ⟨hws, hw⟩ i v hi => ?_⟩
  · have hlt : i < ws.length := (List.getElem?_eq_some_iff.mp hi).1
    rw [List.getElem?_append_left hlt, hi]
  · rcases Nat.lt_or_ge i ws.length with hlt | hge
    · exact hws i v (by rwa [List.getElem?_append_left hlt] at hi)
    · rw [List.getElem?_append_right hge, List.getElem?_singleton] at hi
      split at hi
      · cases hi
        rw [← hw]
        congr 1
        omega
      · cases hi

/-- A word written to the first free slot. -/
theorem Spells.write {m : Memory 16} (h : Spells m.read ws) (w : IWord) :
    Spells (m.write ws.length w).read (ws ++ [w]) := by
  refine spells_append.mpr ⟨fun i v hi => ?_, Memory.read_write_same _ _ _⟩
  have hlt : i < ws.length := (List.getElem?_eq_some_iff.mp hi).1
  rw [Memory.read_write_other _ (Nat.ne_of_lt hlt)]
  exact h i v hi

theorem Spells.read_mem (h : Spells word ws) {i : Nat} (hi : i < ws.length) : word i ∈ ws := by
  rw [h i _ (List.getElem?_eq_getElem hi)]
  exact List.getElem_mem hi

/-! ## The scan of a module that is being built -/

/-- The scan has paired `ps` among the words of `b`, and goes on with the open slots of `b`. -/
def Build.Scans (b : Build) (ps : List (Nat × Nat)) : Prop :=
  ∀ (word : Nat → IWord) (js : List Nat), Spells word b.words →
    bracketPairs word (List.range b.words.length ++ js) [] = (bracketPairs word js b.stack).map (ps ++ ·)

/-- The scan of one word more. -/
theorem Build.Scans.append {ps : List (Nat × Nat)} (h : b.Scans ps) (hw : Spells word (b.words ++ [w])) (js : List Nat) :
    bracketPairs word (List.range (b.words ++ [w]).length ++ js) [] =
      (bracketPairs word (b.words.length :: js) b.stack).map (ps ++ ·) := by
  rw [List.length_append, List.length_singleton, List.range_succ, List.append_assoc]
  exact h word _ (spells_append.mp hw).1

/-- What holds of everything the batch algorithm builds. -/
structure Build.Sound (b : Build) : Prop where
  legal : ∀ w ∈ b.words, ∃ i, decode w = .ok i
  stack_lt : ∀ o ∈ b.stack, o < b.words.length
  stack_nodup : b.stack.Nodup
  /-- A slot with an entry is written, and no longer open. -/
  jt_closed : ∀ p ∈ b.jt, p.1 < b.words.length ∧ p.1 ∉ b.stack
  scanned : ∃ ps, b.Scans ps ∧ ∀ p ∈ ps, p ∈ b.jt ∧ p.swap ∈ b.jt

theorem Build.sound_empty : Build.empty.Sound where
  legal := by simp [Build.empty]
  stack_lt := by simp [Build.empty]
  stack_nodup := List.nodup_nil
  jt_closed := by simp [Build.empty]
  scanned := ⟨[], fun word js _ => by simp [Build.empty], by simp⟩

theorem legal_append {i : Instr} (h : ∀ w ∈ ws, ∃ i, decode w = .ok i) (hi : i.wf = true) :
    ∀ w ∈ ws ++ [encode i], ∃ i, decode w = .ok i :=
  List.forall_mem_append.mpr ⟨h, List.forall_mem_singleton.mpr ⟨i, decode_encode hi⟩⟩

theorem isOpen_encode {i : Instr} : isOpen (encode i) = true ↔ i = .loopStart := by
  rw [isOpen, encode, opField_append]
  cases i <;> simp [Instr.opcode]

theorem isClose_encode {i : Instr} : isClose (encode i) = true ↔ i = .loopEnd := by
  rw [isClose, encode, opField_append]
  cases i <;> simp [Instr.opcode]

/-- A word that is no bracket. -/
theorem Build.Sound.push (h : b.Sound) {i : Instr} (hi : i.wf = true) (ho : i ≠ .loopStart) (hc : i ≠ .loopEnd) :
    Build.Sound { b with words := b.words ++ [encode i] } := by
  obtain ⟨ps, hscan, hps⟩ := h.scanned
  have hlen : (b.words ++ [encode i]).length = b.words.length + 1 := List.length_append
  refine ⟨legal_append h.legal hi, fun o hm => ?_, h.stack_nodup, fun p hp => ⟨?_, (h.jt_closed p hp).2⟩, ps,
    fun word js hw => ?_, hps⟩
  · exact hlen ▸ Nat.lt_succ_of_lt (h.stack_lt o hm)
  · exact hlen ▸ Nat.lt_succ_of_lt (h.jt_closed p hp).1
  · have hword := (spells_append.mp hw).2
    rw [hscan.append hw, bracketPairs_cons_other]
    · rwa [hword, Bool.eq_false_iff, ne_eq, isOpen_encode]
    · rwa [hword, Bool.eq_false_iff, ne_eq, isClose_encode]

/-- A `[`: its slot is open. -/
theorem Build.Sound.openBracket (h : b.Sound) :
    Build.Sound { b with stack := b.words.length :: b.stack, words := b.words ++ [encode .loopStart] } := by
  obtain ⟨ps, hscan, hps⟩ := h.scanned
  have hlen : (b.words ++ [encode .loopStart]).length = b.words.length + 1 := List.length_append
  have hfresh : b.words.length ∉ b.stack := fun hm => Nat.lt_irrefl _ (h.stack_lt _ hm)
  refine ⟨legal_append h.legal rfl, List.forall_mem_cons.mpr ⟨?_, fun o hm => ?_⟩, h.stack_nodup.cons hfresh,
    fun p hp => ⟨?_, ?_⟩, ps, fun word js hw => ?_, hps⟩
  · exact hlen ▸ Nat.lt_succ_self _
  · exact hlen ▸ Nat.lt_succ_of_lt (h.stack_lt o hm)
  · exact hlen ▸ Nat.lt_succ_of_lt (h.jt_closed p hp).1
  · exact List.not_mem_cons_of_ne_of_not_mem (Nat.ne_of_lt (h.jt_closed p hp).1) (h.jt_closed p hp).2
  · rw [hscan.append hw, bracketPairs_cons_open]
    rw [(spells_append.mp hw).2, isOpen_encode]

/-- A `]`: the innermost open slot and its own are a pair. -/
theorem Build.Sound.closeBracket (h : b.Sound) {o : Nat} {rest : List Nat} (hs : b.stack = o :: rest) :
    Build.Sound ⟨rest, b.words ++ [encode .loopEnd], b.jt ++ [(o, b.words.length), (b.words.length, o)]⟩ := by
  obtain ⟨ps, hscan, hps⟩ := h.scanned
  have hlen : (b.words ++ [encode .loopEnd]).length = b.words.length + 1 := List.length_append
  obtain ⟨ho, hrest⟩ := List.forall_mem_cons.mp (hs ▸ h.stack_lt)
  obtain ⟨hout, hnodup⟩ := List.nodup_cons.mp (hs ▸ h.stack_nodup)
  have hfresh : b.words.length ∉ rest := fun hm => Nat.lt_irrefl _ (hrest _ hm)
  refine ⟨legal_append h.legal rfl, fun k hk => hlen ▸ Nat.lt_succ_of_lt (hrest k hk), hnodup, ?_,
    ps ++ [(o, b.words.length)], fun word js hw => ?_, ?_⟩
  · refine List.forall_mem_append.mpr ⟨fun p hp => ?_, ?_⟩
    · obtain ⟨hlt, hnot⟩ := h.jt_closed p hp
      exact ⟨hlen ▸ Nat.lt_succ_of_lt hlt, fun hm => hnot (hs ▸ List.mem_cons_of_mem _ hm)⟩
    · simp [hlen, hout, hfresh, Nat.le_of_lt ho]
  · rw [hscan.append hw, hs, bracketPairs_cons_close, Option.map_map]
    · congr 1
      funext qs
      simp
    · rw [(spells_append.mp hw).2, isClose_encode]
  · refine List.forall_mem_append.mpr ⟨fun p hp => ⟨?_, ?_⟩, by simp⟩
    · exact List.mem_append_left _ (hps p hp).1
    · exact List.mem_append_left _ (hps p hp).2

end Sys2Proof.Machine
end

section
/-! PROOF. The streaming encoder keeps, word by word and bracket by bracket, what the batch algorithm builds
(40_encoder.md R90, R105). With a run pending the streaming encoder is behind: the batch algorithm has counted the run
ahead in the source. What `Encode` still gives for the rest of the source is the same before and after every byte. -/

namespace Sys2Proof.Machine

variable {c : Config} {s t : State} {b : Build} {x : Byte} {op : FoldOp}

/-! ## The state that holds a build -/

/-- The bracket stack holds these open slots, innermost first. -/
def StackHolds (m : Memory 15) : List Nat → Prop
  | [] => True
  | o :: rest => (m.read rest.length).toNat = o ∧ StackHolds m rest

/-- A write above the open slots leaves them. -/
theorem StackHolds.write {m : Memory 15} {os : List Nat} (h : StackHolds m os) {a : Nat} (ha : os.length ≤ a)
    (v : Slot) : StackHolds (m.write a v) os := by
  induction os with
  | nil => trivial
  | cons o rest ih =>
    have hlt : rest.length < a := ha
    exact ⟨by rw [Memory.read_write_other _ (Nat.ne_of_lt hlt)]; exact h.1, ih h.2 (Nat.le_of_lt hlt)⟩

/-- A state in `ENCODING` that holds `b`: its words, its open slots and its jump-table entries. -/
structure Encodes (c : Config) (s : State) (b : Build) : Prop where
  cfg : s.cfg = c
  legal : c.legal
  encoder : c.hasEncoder = true
  mode : s.mode = .encoding
  err : s.err = .none
  len : s.len.toNat = b.words.length
  len_le : b.words.length ≤ c.heapSize
  sp : s.sp.toNat = b.stack.length
  sp_le : b.stack.length ≤ c.stackSize
  words : Spells s.imem.read b.words
  stack : StackHolds s.stack b.stack
  jt : ∀ p ∈ b.jt, (s.jtEntry p.1).toNat = p.2
  /-- A pending run is not empty. -/
  run_pos : s.runOp ≠ none → s.runCnt ≠ 0#8
  sound : b.Sound

theorem Encodes.popTurn (h : Encodes c s b) : Encodes c s.popTurn b := { h with }

theorem Encodes.setHostReads (h : Encodes c s b) (rs : List HostWord) : Encodes c { s with hostReads := rs } b :=
  { h with }

theorem Encodes.setRun (h : Encodes c s b) {r : Option FoldOp} {n : BitVec 8} (hn : n ≠ 0#8) :
    Encodes c { s with runOp := r, runCnt := n } b := { h with run_pos := fun _ => hn }

theorem encodes_startEncode (hc : s.cfg.legal) (he : s.cfg.hasEncoder = true) :
    Encodes s.cfg s.startEncode Build.empty where
  cfg := rfl
  legal := hc
  encoder := he
  mode := rfl
  err := rfl
  len := rfl
  len_le := Nat.zero_le _
  sp := rfl
  sp_le := Nat.zero_le _
  words := fun i w hi => by simp [Build.empty] at hi
  stack := trivial
  jt := by simp [Build.empty]
  run_pos := fun h => absurd rfl h
  sound := Build.sound_empty

/-! ## One operation of the machine and of the batch algorithm -/

/-- Both answer, with a state that holds the build and has no run pending, or both raise the same error. -/
def Agrees (c : Config) (m : Eff State) (y : Except Err Build) : Prop :=
  (∃ t b, m = .ok t ∧ y = .ok b ∧ Encodes c t b ∧ t.runOp = none) ∨ ∃ e, m = .raise e ∧ y = .error e

theorem Encodes.len_succ (h : Encodes c s b) (hl : b.words.length < c.heapSize) :
    (s.len + 1#15).toNat = b.words.length + 1 := by
  rw [← h.len] at hl ⊢
  exact toNat_succ (Nat.lt_of_lt_of_le hl (legal_heapSize_le h.legal))

/-- A word that is no bracket, in the next slot; the run pending before it is over. -/
theorem Encodes.append (h : Encodes c s b) (hl : b.words.length < c.heapSize) {i : Instr} (hi : i.wf = true)
    (ho : i ≠ .loopStart) (hc : i ≠ .loopEnd) (n : BitVec 8) :
    Encodes c { s with imem := s.imem.write s.len.toNat (encode i), len := s.len + 1#15, runOp := none, runCnt := n }
      { b with words := b.words ++ [encode i] } :=
  { h with
    len := by rw [List.length_append]; exact h.len_succ hl
    len_le := by rw [List.length_append]; exact hl
    words := by rw [h.len]; exact h.words.write _
    run_pos := fun hr => absurd rfl hr
    sound := h.sound.push hi ho hc }

theorem Encodes.emit (h : Encodes c s b) (hr : s.runOp = none) {i : Instr} (hi : i.wf = true)
    (ho : i ≠ .loopStart) (hc : i ≠ .loopEnd) : Agrees c (emit i s) (b.push c (encode i)) := by
  obtain ⟨rfl, hlen⟩ := And.intro h.cfg h.len
  rcases Nat.lt_or_eq_of_le h.len_le with hl | hl
  · refine .inl ⟨_, _, emit_of_lt i (hlen ▸ hl), Build.push_of_lt hl _, ?_, hr⟩
    exact hr ▸ h.append hl hi ho hc s.runCnt
  · exact .inr ⟨_, emit_of_eq i (hlen.trans hl), Build.push_of_full hl _⟩

theorem instr_wf {n : BitVec 8} (hn : n ≠ 0#8) : (op.instr n).wf = true := by
  cases op <;> simpa [FoldOp.instr, Instr.wf] using hn

theorem instr_ne_bracket (n : BitVec 8) : op.instr n ≠ .loopStart ∧ op.instr n ≠ .loopEnd := by
  cases op <;> simp [FoldOp.instr]

/-- The word of the pending run, if there is one. -/
def Build.flush (c : Config) (run : Option FoldOp) (n : BitVec 8) (b : Build) : Except Err Build :=
  match run with
  | none => .ok b
  | some op => b.push c (encode (op.instr n))

theorem Encodes.flush (h : Encodes c s b) : Agrees c (flush s) (b.flush c s.runOp s.runCnt) := by
  obtain ⟨rfl, hlen⟩ := And.intro h.cfg h.len
  cases hr : s.runOp with
  | none => exact .inl ⟨s, b, flush_of_none hr, rfl, h, hr⟩
  | some op =>
    rcases Nat.lt_or_eq_of_le h.len_le with hl | hl
    · refine .inl ⟨_, _, flush_of_some hr (hlen ▸ hl), Build.push_of_lt hl _, ?_, rfl⟩
      exact h.append hl (instr_wf (h.run_pos (by simp [hr]))) (instr_ne_bracket _).1 (instr_ne_bracket _).2 0#8
    · exact .inr ⟨_, flush_of_full hr (hlen.trans hl), Build.push_of_full hl _⟩

theorem Encodes.openBracket (h : Encodes c s b) (hr : s.runOp = none) :
    Agrees c (openBracket s) (b.openBracket c) := by
  obtain ⟨rfl, hlen, hsp⟩ := And.intro h.cfg (And.intro h.len h.sp)
  rcases Nat.lt_or_eq_of_le h.sp_le with hs | hs
  · rcases Nat.lt_or_eq_of_le h.len_le with hl | hl
    · refine .inl ⟨_, _, openBracket_of_lt (hsp ▸ hs) (hlen ▸ hl),
        by rw [Build.openBracket, if_neg (Nat.ne_of_lt hs), if_neg (Nat.ne_of_lt hl)], ?_, hr⟩
      have hstack := legal_stackSize_le h.legal
      exact { h with
        len := by rw [List.length_append]; exact h.len_succ hl
        len_le := by rw [List.length_append]; exact hl
        sp := by rw [List.length_cons, ← hsp]; exact toNat_succ (by omega)
        sp_le := hs
        words := by rw [hlen]; exact h.words.write _
        stack := by rw [hsp]; exact ⟨by rw [Memory.read_write_same, hlen], h.stack.write (Nat.le_refl _) _⟩
        sound := h.sound.openBracket }
    · refine .inr ⟨_, openBracket_eq_raise.mpr ⟨.inr (hlen.trans hl), rfl⟩, ?_⟩
      rw [Build.openBracket, if_neg (Nat.ne_of_lt hs), if_pos hl]
  · exact .inr ⟨_, openBracket_eq_raise.mpr ⟨.inl (hsp.trans hs), rfl⟩, if_pos hs⟩

/-- The entries read back once a pair is written (40_encoder.md R99). -/
theorem jtEntry_write_pair (hc : s.cfg.legal) {o l : Slot} (hol : o.toNat < l.toNat) (hl : l.toNat ≤ s.cfg.heapSize) :
    let t : State := { s with jt := (s.jt.write o.toNat l).write l.toNat o }
    (t.jtEntry o.toNat).toNat = l.toNat ∧ (t.jtEntry l.toNat).toNat = o.toNat ∧
      ∀ a, a ≠ o.toNat → a ≠ l.toNat → t.jtEntry a = s.jtEntry a := by
  intro t
  refine ⟨?_, ?_, fun a ho ha => ?_⟩
  · rw [State.jtEntry, Memory.read_write_other _ (Nat.ne_of_lt hol), Memory.read_write_same]
    exact toIndex_of_le hc hl
  · rw [State.jtEntry, Memory.read_write_same]
    exact toIndex_of_le hc (by omega)
  · rw [State.jtEntry, State.jtEntry, Memory.read_write_other _ ha, Memory.read_write_other _ ho]

/-- The pair a `]` writes joins the entries of the build, whose slots are neither open nor the new one. -/
theorem Encodes.jt_close (h : Encodes c s b) {o : Slot} {rest : List Nat} (hb : b.stack = o.toNat :: rest) :
    ∀ p ∈ b.jt ++ [(o.toNat, b.words.length), (b.words.length, o.toNat)],
      (State.jtEntry { s with jt := (s.jt.write o.toNat s.len).write s.len.toNat o } p.1).toNat = p.2 := by
  obtain ⟨rfl, hlen⟩ := And.intro h.cfg h.len
  have ho : o.toNat < b.words.length := h.sound.stack_lt _ (hb ▸ List.mem_cons_self)
  obtain ⟨hto, hback, hother⟩ := jtEntry_write_pair (s := s) h.legal (hlen ▸ ho) (hlen ▸ h.len_le)
  refine List.forall_mem_append.mpr ⟨fun p hp => ?_, ?_⟩
  · obtain ⟨hlt, hclosed⟩ := h.sound.jt_closed p hp
    have hopen : p.1 ≠ o.toNat := fun he => hclosed (hb ▸ he ▸ List.mem_cons_self)
    rw [hother p.1 hopen (by omega)]
    exact h.jt p hp
  · rw [← hlen]
    exact List.forall_mem_cons.mpr ⟨hto, List.forall_mem_singleton.mpr hback⟩

theorem Encodes.closeBracket (h : Encodes c s b) (hr : s.runOp = none) :
    Agrees c (closeBracket s) (b.closeBracket c) := by
  obtain ⟨rfl, hlen, hsp⟩ := And.intro h.cfg (And.intro h.len h.sp)
  cases hb : b.stack with
  | nil =>
    have h0 : s.sp = 0#15 := BitVec.eq_of_toNat_eq (by rw [hsp, hb]; rfl)
    exact .inr ⟨_, closeBracket_eq_raise.mpr (.inl ⟨h0, rfl⟩), by rw [Build.closeBracket, hb]⟩
  | cons o rest =>
    rw [hb, List.length_cons] at hsp
    have h0 : s.sp ≠ 0#15 := fun h0 => by rw [h0] at hsp; cases hsp
    have hpop : (s.sp - 1#15).toNat = rest.length := by rw [toNat_pred h0, hsp, Nat.add_sub_cancel]
    rcases Nat.lt_or_eq_of_le h.len_le with hl | hl
    · obtain ⟨rfl, hrest⟩ : StackHolds s.stack (o :: rest) := hb ▸ h.stack
      have hspace : rest.length < s.cfg.stackSize := by have := h.sp_le; rwa [hb] at this
      have ho := h.sound.stack_lt _ (hb ▸ List.mem_cons_self)
      refine .inl ⟨_, ⟨rest, b.words ++ [encode .loopEnd], _⟩,
        closeBracket_eq_ok.mpr ⟨h0, hpop ▸ hspace, hlen ▸ hl, by rw [hpop]; omega, rfl⟩,
        by simp only [Build.closeBracket, hb, if_neg (Nat.ne_of_lt hl)]; rfl, ?_, hr⟩
      exact { h with
        len := by rw [List.length_append]; exact h.len_succ hl
        len_le := by rw [List.length_append]; exact hl
        sp := hpop
        sp_le := Nat.le_of_lt hspace
        words := by rw [hlen]; exact h.words.write _
        stack := hrest
        jt := by rw [hpop]; exact h.jt_close hb
        sound := h.sound.closeBracket hb }
    · refine .inr ⟨_, closeBracket_eq_raise.mpr (.inr ⟨h0, hlen.trans hl, rfl⟩), ?_⟩
      simp only [Build.closeBracket, hb, if_pos hl]

theorem Encodes.encodeSingle (h : Encodes c s b) (hr : s.runOp = none) (x : Byte) :
    Agrees c (encodeSingle x s) (b.single c x) := by
  rcases encodeSingle_cases x s with ⟨rfl, hx⟩ | ⟨rfl, hx⟩ | ⟨rfl, hx⟩ | ⟨rfl, hx⟩ | ⟨h1, h2, h3, h4, hx⟩ <;> rw [hx]
  · exact h.emit hr rfl nofun nofun
  · exact h.emit hr rfl nofun nofun
  · exact h.openBracket hr
  · exact h.closeBracket hr
  · exact .inl ⟨s, b, rfl, by simp [Build.single, h1, h2, h3, h4], h, hr⟩

end Sys2Proof.Machine
end

section
/-! PROOF. After every byte the rest of the source gives what it gave before it (40_encoder.md R90, R94): with a run
pending, the batch algorithm counts the rest of that run in the source to come. -/

namespace Sys2Proof.Machine

variable {c : Config} {s t : State} {b : Build} {x : Byte} {op : FoldOp} {n : BitVec 8} {rest : List Byte}

/-! ## The rest of the source -/

/-- What the loop of `Encode` gives for the rest of a source, where `n` characters of a run are behind. -/
def batchFrom (c : Config) (run : Option FoldOp) (n : BitVec 8) (rest : List Byte) (b : Build) : Except Err Build :=
  match run with
  | none => batch c rest b
  | some op =>
    (b.push c (encode (op.instr (BitVec.ofNat 8 (runLength op.char (255 - n.toNat) rest + n.toNat))))).bind
      (batch c (rest.drop (runLength op.char (255 - n.toNat) rest)))

/-- The pending run, if there is one, does not go on into `rest`. -/
def RunEnds (run : Option FoldOp) (n : BitVec 8) (rest : List Byte) : Prop :=
  ∀ op, run = some op → runLength op.char (255 - n.toNat) rest = 0

/-- A run that ends is flushed, and the loop starts afresh. -/
theorem batchFrom_of_runEnds {run : Option FoldOp} (h : RunEnds run n rest) :
    batchFrom c run n rest b = (b.flush c run n).bind (batch c rest) := by
  cases run with
  | none => rfl
  | some op =>
    rw [batchFrom, h op rfl, Nat.zero_add, BitVec.ofNat_toNat, BitVec.setWidth_eq]
    rfl

/-- A run goes on at its own character. -/
theorem batchFrom_continue (hn : n.toNat < 255) :
    batchFrom c (some op) n (op.char :: rest) b = batchFrom c (some op) (n + 1#8) rest b := by
  have hsucc : (n + 1#8).toNat = n.toNat + 1 := by
    rw [BitVec.toNat_add]
    exact Nat.mod_eq_of_lt (Nat.succ_lt_succ hn)
  have hleft : 255 - n.toNat = 255 - (n.toNat + 1) + 1 := by omega
  rw [batchFrom, batchFrom, hsucc, hleft, runLength, if_pos rfl, Nat.add_assoc, Nat.add_comm 1, List.drop_succ_cons]

/-- A fold character begins a run. -/
theorem batch_begin (hf : foldOp x = some op) : batch c (x :: rest) b = batchFrom c (some op) 1#8 rest b := by
  rw [batch_fold hf, foldOp_eq_some.mp hf]
  rfl

theorem runEnds_of_not_continues (h : continuesRun x s = false) : RunEnds s.runOp s.runCnt (x :: rest) := by
  intro op hr
  rcases Nat.lt_or_ge s.runCnt.toNat 255 with hn | hn
  · have hne : x ≠ op.char := fun he => by
      rw [continuesRun_iff.mpr ⟨op, hr, foldOp_eq_some.mpr he, hn⟩] at h
      cases h
    rw [show 255 - s.runCnt.toNat = 254 - s.runCnt.toNat + 1 by omega, runLength, if_neg hne]
  · rw [Nat.sub_eq_zero_of_le hn, runLength]

theorem runEnds_nil (run : Option FoldOp) (n : BitVec 8) : RunEnds run n [] := by
  intro op _
  cases 255 - n.toNat <;> rfl

/-- What `Encode` still gives for the rest of the source, from a state that holds `b`. -/
def State.encodeRest (s : State) (c : Config) (rest : List Byte) (b : Build) : Except Err Build :=
  batchFrom c s.runOp s.runCnt rest b

theorem encodeRest_of_no_run (h : s.runOp = none) : s.encodeRest c rest b = batch c rest b := by
  rw [State.encodeRest, h]
  rfl

/-! ## One byte -/

/-- A byte taken after the run before it has ended. -/
theorem Encodes.afterRun (h : Encodes c s b) (hr : s.runOp = none) (x : Byte) :
    (∃ t b', afterRun x s = .ok t ∧ Encodes c t b' ∧ ∀ rest, batch c (x :: rest) b = t.encodeRest c rest b') ∨
    ∃ e, afterRun x s = .raise e ∧ ∀ rest, batch c (x :: rest) b = .error e := by
  cases hf : foldOp x with
  | some op => exact .inl ⟨_, b, afterRun_of_fold hf, h.setRun (by decide), fun rest => batch_begin hf⟩
  | none =>
    rw [afterRun_of_none hf]
    rcases h.encodeSingle hr x with ⟨t, b', hx, hb, ht, hr'⟩ | ⟨e, hx, hb⟩
    · exact .inl ⟨t, b', hx, ht, fun rest => by rw [batch_single hf, hb, encodeRest_of_no_run hr']; rfl⟩
    · exact .inr ⟨e, hx, fun rest => by rw [batch_single hf, hb]; rfl⟩

/-- A byte keeps a build held, and what the rest of the source gives; or raises what the source gives. -/
theorem Encodes.encodeByte (h : Encodes c s b) (x : Byte) :
    (∃ t b', encodeByte x s = .ok t ∧ Encodes c t b' ∧ ∀ rest, s.encodeRest c (x :: rest) b = t.encodeRest c rest b') ∨
    ∃ e, encodeByte x s = .raise e ∧ ∀ rest, s.encodeRest c (x :: rest) b = .error e := by
  cases hx : continuesRun x s with
  | true =>
    obtain ⟨op, hr, hf, hn⟩ := continuesRun_iff.mp hx
    refine .inl ⟨_, b, encodeByte_of_continues hx, h.setRun (r := s.runOp) (by bv_omega), fun rest => ?_⟩
    rw [State.encodeRest, State.encodeRest, hr, foldOp_eq_some.mp hf]
    exact batchFrom_continue hn
  | false =>
    have hrest (rest : List Byte) :
        s.encodeRest c (x :: rest) b = (b.flush c s.runOp s.runCnt).bind (batch c (x :: rest)) :=
      batchFrom_of_runEnds (runEnds_of_not_continues hx)
    rw [encodeByte_of_not_continues hx]
    simp only [hrest]
    rcases h.flush with ⟨u, b₁, hu, hb, hu₁, hr⟩ | ⟨e, hu, hb⟩ <;> rw [hu, hb]
    · exact hu₁.afterRun hr x
    · exact .inr ⟨e, rfl, fun _ => rfl⟩

/-! ## The end of the source -/

theorem Encodes.sp_eq_zero_iff (h : Encodes c s b) : s.sp = 0#15 ↔ b.stack = [] := by
  rw [← List.length_eq_zero_iff, ← h.sp, BitVec.toNat_eq]
  rfl

/-- The end of the source leaves a state that holds what the source gives, or raises what it gives. -/
theorem Encodes.encodeEnd (h : Encodes c s b) :
    (∃ u m, encodeEnd s = .ok { u with mode := .idle } ∧ Encodes c u m ∧ m.stack = [] ∧
      (s.encodeRest c [] b).bind Build.finish = .ok m) ∨
    ∃ e, encodeEnd s = .raise e ∧ (s.encodeRest c [] b).bind Build.finish = .error e := by
  have hrest : s.encodeRest c [] b = (b.flush c s.runOp s.runCnt).bind (batch c []) :=
    batchFrom_of_runEnds (runEnds_nil _ _)
  rw [hrest, Machine.encodeEnd]
  rcases h.flush with ⟨u, m, hu, hb, hm, -⟩ | ⟨e, hu, hb⟩ <;> rw [hu, hb]
  · by_cases h0 : m.stack = []
    · exact .inl ⟨u, m, if_pos (hm.sp_eq_zero_iff.mpr h0), hm, h0, if_pos (by rw [h0]; rfl)⟩
    · exact .inr ⟨_, if_neg (mt hm.sp_eq_zero_iff.mp h0), if_neg (mt List.isEmpty_iff.mp h0)⟩
  · exact .inr ⟨e, rfl, rfl⟩

end Sys2Proof.Machine
end

section
/-! PROOF. Every module the encoder produces is well-formed (40_encoder.md R108): while encoding, the state holds a
sound build, and one with no open slot is a well-formed module. -/

namespace Sys2Proof.Machine

variable {c : Config} {s t : State} {b : Build}

theorem Encodes.wellFormed (h : Encodes c s b) (h0 : b.stack = []) : WellFormedModule s where
  len_le := by rw [h.cfg, h.len]; exact h.len_le
  legal i hi := h.sound.legal _ (h.words.read_mem (h.len ▸ hi))
  paired := by
    obtain ⟨ps, hscan, hps⟩ := h.sound.scanned
    refine ⟨ps, ?_, fun p hp => ⟨h.jt p (hps p hp).1, h.jt p.swap (hps p hp).2⟩⟩
    have hall := hscan s.imem.read [] h.words
    rw [h0, List.append_nil] at hall
    rw [h.len, hall]
    simp [bracketPairs]

theorem wellFormed_setMode {m : Mode} (h : WellFormedModule s) : WellFormedModule { s with mode := m } :=
  ⟨h.len_le, h.legal, h.paired⟩

theorem wellFormed_applyReset (s : State) : WellFormedModule s.applyReset where
  len_le := Nat.zero_le _
  legal i hi := absurd hi (Nat.not_lt_zero _)
  paired := ⟨[], rfl, by simp⟩

/-- A step from a state that holds a build leaves one that holds a build, or leaves `ENCODING`; if for `IDLE`, with a
well-formed module. -/
theorem Encodes.step (h : Encodes c s b) (hx : step s = .next t) :
    (∃ b', Encodes c t b') ∨ (t.mode ≠ .encoding ∧ (t.mode = .idle → WellFormedModule t)) := by
  rcases step_of_encoding h.mode with ht | ⟨v, -, hs⟩ | ⟨v, -, -, hs⟩ | ⟨rs, hs⟩
  · cases (step_of_reset ht).symm.trans hx
    exact .inr ⟨by simp, fun _ => wellFormed_applyReset _⟩
  · rcases h.popTurn.encodeByte (v.extractLsb' 0 8) with ⟨u, b', hu, hu', -⟩ | ⟨e, hu, -⟩ <;>
      rw [hu] at hs <;> cases hs.symm.trans hx
    · exact .inl ⟨b', hu'⟩
    · exact .inr ⟨by simp, by simp⟩
  · rcases h.popTurn.encodeEnd with ⟨u, m, hu, hm, h0, -⟩ | ⟨e, hu, -⟩ <;>
      rw [hu] at hs <;> cases hs.symm.trans hx
    · exact .inr ⟨by simp, fun _ => wellFormed_setMode (hm.wellFormed h0)⟩
    · exact .inr ⟨by simp, by simp⟩
  · cases hs.symm.trans hx
    exact .inl ⟨b, h.popTurn.setHostReads rs⟩

/-- A run of `k + 1` steps, by its first. -/
theorem core_run_succ_eq_next {k : Nat} : Sys2Proof.core.run (k + 1) s = .next t ↔
    ∃ u, step s = .next u ∧ Sys2Proof.core.run k u = .next t := by
  rw [core_run_succ]
  cases step s <;> simp

/-- The steps taken while the mode stays `ENCODING`, and the one that ends it in `IDLE`. -/
theorem Encodes.run_wellFormed (n : Nat) (h : Encodes c s b)
    (henc : ∀ k u, k ≤ n → Sys2Proof.core.run k s = .next u → u.mode = .encoding)
    (ht : Sys2Proof.core.run (n + 1) s = .next t) (hm : t.mode = .idle) : WellFormedModule t := by
  induction n generalizing s b with
  | zero =>
    obtain ⟨u, hu, hrun⟩ := core_run_succ_eq_next.mp ht
    cases hrun
    rcases h.step hu with ⟨b', h'⟩ | ⟨-, hwf⟩
    · cases hm.symm.trans h'.mode
    · exact hwf hm
  | succ n ih =>
    obtain ⟨u, hu, hrun⟩ := core_run_succ_eq_next.mp ht
    have hstays (k : Nat) (w : State) (hk : k ≤ n) (hw : Sys2Proof.core.run k u = .next w) : w.mode = .encoding :=
      henc (k + 1) w (Nat.succ_le_succ hk) (core_run_succ_eq_next.mpr ⟨u, hu, hw⟩)
    rcases h.step hu with ⟨b', h'⟩ | ⟨hleft, -⟩
    · exact ih h' hstays hrun
    · exact absurd (hstays 0 u (Nat.zero_le _) rfl) hleft

/-- Settles O54: the accepted `ENC_START` leaves a state that holds the empty build. -/
theorem encodedModulesAreWellFormed : Obligations.EncodedModulesAreWellFormed := by
  intro s t v n hc he hm ht hv henc hrun hidle
  have hstart : step s = .next s.popTurn.startEncode := encStartDiscardsTheModule s v ht hv he hm
  obtain ⟨u, hu, hrun⟩ := core_run_succ_eq_next.mp hrun
  cases hstart.symm.trans hu
  exact (encodes_startEncode (s := s.popTurn) hc he).run_wellFormed n
    (fun k u hk hu => henc k u hk (core_run_succ_eq_next.mpr ⟨_, hstart, hu⟩)) hrun hidle

end Sys2Proof.Machine
end

section
/-! PROOF. The streaming encoder gives what `Encode` gives (40_encoder.md R90), turn by turn: a `SRC` write takes a byte
of the source off what is still to come, the `ENC_END` finishes, and every other turn changes nothing of it. -/

namespace Sys2Proof.Machine

variable {c : Config} {s u : State} {b : Build}

/-! ## What the end of an encode shows -/

/-- The module `m` is delivered. -/
def Delivered (m : Build) (t : State) : Prop :=
  t.mode = .idle ∧ t.err = .none ∧ t.len.toNat = m.words.length ∧
    (∀ i w, m.words[i]? = some w → t.imem.read i = w) ∧ (∀ p ∈ m.jt, (t.jtEntry p.1).toNat = p.2)

/-- The encode has failed with `e`. -/
def Failed (e : Err) (t : State) : Prop := t.mode = .fault ∧ t.err = e ∧ t.len = 0#15

/-- The next `n` turns end an encode as `r` says: in the module, or in the error, which stands at the end where only
the encoder's turns are taken. -/
def EncodeEnds (n : Nat) (only : Prop) (s : State) (r : Except Err Build) : Prop :=
  match r with
  | .ok m => ∃ t, Sys2Proof.core.run n s = .next t ∧ Delivered m t
  | .error e => (∃ k t, k ≤ n ∧ Sys2Proof.core.run k s = .next t ∧ Failed e t) ∧
      (only → ∃ t, Sys2Proof.core.run n s = .next t ∧ Failed e t)

/-- One turn before them. -/
theorem EncodeEnds.succ {n : Nat} {only only' : Prop} {r : Except Err Build} (h : EncodeEnds n only u r)
    (hs : step s = .next u) (himp : only' → only) : EncodeEnds (n + 1) only' s r := by
  have run_succ {k : Nat} {t : State} (hk : Sys2Proof.core.run k u = .next t) : Sys2Proof.core.run (k + 1) s = .next t :=
    core_run_succ_eq_next.mpr ⟨u, hs, hk⟩
  cases r with
  | ok m =>
    obtain ⟨t, ht, hm⟩ := h
    exact ⟨t, run_succ ht, hm⟩
  | error e =>
    obtain ⟨⟨k, t, hk, ht, hf⟩, hend⟩ := h
    refine ⟨⟨k + 1, t, Nat.succ_le_succ hk, run_succ ht, hf⟩, fun ho => ?_⟩
    obtain ⟨t, ht, hf⟩ := hend (himp ho)
    exact ⟨t, run_succ ht, hf⟩

/-! ## A failed encode -/

/-- The encoder's own turns: a source byte, or the end of the source. -/
def EncoderTurn (x : Turn) : Prop :=
  (∃ v, x = .host (.writeReg 1 v)) ∨ ∃ w : HostWord, x = .host (.writeReg 0 w) ∧ w.extractLsb' 0 4 = 2#4

theorem encoderTurn_of_srcByte {x : Turn} (h : x.srcByte.isSome = true) : EncoderTurn x := by
  match x, h with
  | .host (.writeReg 1 v), _ => exact .inl ⟨v, rfl⟩

/-- In `FAULT` the encoder's turns are ignored (10_state.md R35, R36). -/
theorem step_of_fault_encoderTurn (hm : s.mode = .fault) (h : EncoderTurn s.turn) : step s = .next s.popTurn := by
  rcases h with ⟨v, ht⟩ | ⟨w, ht, hw⟩
  · exact step_of_ignored ht (writeSrc_of_refused (s := s.popTurn) (.inr (by simp [hm])))
  · exact step_of_ignored ht (writeCtrl_of_not_accepts (s := s.popTurn) (c := .encEnd) hw (by simp [accepts, hm]))

theorem Failed.run {e : Err} (h : Failed e s) {turns later : List Turn} (ha : s.agenda = turns ++ later)
    (ht : ∀ x ∈ turns, EncoderTurn x) : ∃ t, Sys2Proof.core.run turns.length s = .next t ∧ Failed e t := by
  induction turns generalizing s with
  | nil => exact ⟨s, rfl, h⟩
  | cons x rest ih =>
    obtain ⟨hx, hrest⟩ := List.forall_mem_cons.mp ht
    have hstep := step_of_fault_encoderTurn h.1 (turn_of_cons ha ▸ hx)
    obtain ⟨t, hrun, hf⟩ := ih (s := s.popTurn) h (congrArg List.tail ha) hrest
    exact ⟨t, core_run_succ_eq_next.mpr ⟨_, hstep, hrun⟩, hf⟩

theorem failed_enterFault {e : Err} (he : e.isCompile = true) : Failed e (s.enterFault e) :=
  ⟨rfl, rfl, if_pos he⟩

/-- A step that raises ends the encode in the error. -/
theorem encodeEnds_of_raise {e : Err} (he : e.isCompile = true) (hs : step s = .next (s.popTurn.enterFault e))
    {turns later : List Turn} (ha : s.popTurn.agenda = turns ++ later) {only : Prop}
    (ht : only → ∀ x ∈ turns, EncoderTurn x) {n : Nat} (hn : turns.length = n) :
    EncodeEnds (n + 1) only s (.error e) := by
  subst hn
  have hf : Failed e (s.popTurn.enterFault e) := failed_enterFault he
  refine ⟨⟨1, _, Nat.succ_le_succ (Nat.zero_le _), core_run_succ_eq_next.mpr ⟨_, hs, rfl⟩, hf⟩, fun ho => ?_⟩
  obtain ⟨t, hrun, hf⟩ := hf.run ha (ht ho)
  exact ⟨t, core_run_succ_eq_next.mpr ⟨_, hs, hrun⟩, hf⟩

/-! ## The turns of an encode -/

theorem turn_eq_src_of_srcByte {x : Turn} {a : Byte} (h : x.srcByte = some a) :
    ∃ v, x = .host (.writeReg 1 v) ∧ v.extractLsb' 0 8 = a := by
  match x, h with
  | .host (.writeReg 1 v), h => exact ⟨v, rfl, Option.some.inj h⟩

/-- A turn that hands over no byte and ends nothing keeps everything of the encode. -/
theorem Encodes.step_of_other (h : Encodes c s b) (hr : s.turn ≠ .reset) (hsrc : s.turn.srcByte = none)
    (hend : ∀ v : HostWord, s.turn = .host (.writeReg 0 v) → v.extractLsb' 0 4 ≠ 2#4) :
    ∃ rs, Machine.step s = .next { s.popTurn with hostReads := rs } := by
  rcases step_of_encoding h.mode with ht | ⟨v, ht, -⟩ | ⟨v, ht, hv, -⟩ | hs
  · exact absurd ht hr
  · rw [ht] at hsrc
    cases hsrc
  · exact absurd hv (hend v ht)
  · exact hs

theorem Encodes.step_of_encEnd (h : Encodes c s b) {w : HostWord} (ht : s.turn = .host (.writeReg 0 w))
    (hw : w.extractLsb' 0 4 = 2#4) (only : Prop) :
    EncodeEnds 1 only s ((s.encodeRest c [] b).bind Build.finish) := by
  have hs := Machine.step_of_encEnd ht hw (h.cfg ▸ h.encoder) h.mode
  rcases h.popTurn.encodeEnd with ⟨u, m, hu, hm, -, hr⟩ | ⟨e, hu, hr⟩ <;> rw [hu] at hs
  · rw [show (s.encodeRest c [] b).bind Build.finish = .ok m from hr]
    exact ⟨_, core_run_succ_eq_next.mpr ⟨_, hs, rfl⟩, rfl, hm.err, hm.len, hm.words, hm.jt⟩
  · rw [show (s.encodeRest c [] b).bind Build.finish = .error e from hr]
    exact encodeEnds_of_raise (turns := []) (encodeEnd_raise hu) hs rfl (by simp) rfl

/-- From a state that holds a build, the turns up to `ENC_END` give what the rest of the source gives. -/
theorem Encodes.encodeEnds (h : Encodes c s b) {mid later : List Turn} {w : HostWord}
    (ha : s.agenda = mid ++ .host (.writeReg 0 w) :: later) (hw : w.extractLsb' 0 4 = 2#4)
    (hmid : ∀ x ∈ mid, x ≠ .reset ∧ ∀ v : HostWord, x = .host (.writeReg 0 v) → v.extractLsb' 0 4 ≠ 2#4) :
    EncodeEnds (mid.length + 1) (∀ x ∈ mid, x.srcByte.isSome = true) s
      ((s.encodeRest c (mid.filterMap Turn.srcByte) b).bind Build.finish) := by
  induction mid generalizing s b with
  | nil => exact h.step_of_encEnd (turn_of_cons ha) hw _
  | cons x rest ih =>
    obtain ⟨hx, hrest⟩ := List.forall_mem_cons.mp hmid
    have ht : s.turn = x := turn_of_cons ha
    have ha' : s.popTurn.agenda = rest ++ .host (.writeReg 0 w) :: later := congrArg List.tail ha
    have himp : (∀ y ∈ x :: rest, y.srcByte.isSome = true) → ∀ y ∈ rest, y.srcByte.isSome = true :=
      fun hall y hy => hall y (List.mem_cons_of_mem _ hy)
    cases hsrc : x.srcByte with
    | none =>
      obtain ⟨rs, hs⟩ := h.step_of_other (ht ▸ hx.1) (ht ▸ hsrc) (ht ▸ hx.2)
      rw [List.filterMap_cons_none hsrc]
      exact (ih (h.popTurn.setHostReads rs) ha' hrest).succ hs himp
    | some a =>
      obtain ⟨v, rfl, rfl⟩ := turn_eq_src_of_srcByte hsrc
      have hs : Machine.step s = settle s.popTurn (Machine.encodeByte (v.extractLsb' 0 8) s.popTurn) :=
        (srcTakesOneByte s v ht).1 (h.cfg ▸ h.encoder) h.mode
      rw [List.filterMap_cons_some hsrc]
      rcases h.popTurn.encodeByte (v.extractLsb' 0 8) with ⟨u, b', hu, hu', hr⟩ | ⟨e, hu, hr⟩ <;> rw [hu] at hs
      · rw [show s.encodeRest c _ b = _ from hr _]
        exact (ih hu' ((encodeByte_frame hu).1.agenda.trans ha') hrest).succ hs himp
      · rw [show s.encodeRest c _ b = _ from hr _]
        refine encodeEnds_of_raise (turns := rest ++ [.host (.writeReg 0 w)]) (encodeByte_raise hu) hs
          (by rw [ha', List.append_assoc]; rfl) (fun hall => List.forall_mem_append.mpr ⟨fun y hy => ?_, ?_⟩)
          List.length_append
        · exact encoderTurn_of_srcByte (himp hall y hy)
        · exact List.forall_mem_singleton.mpr (.inr ⟨w, rfl, hw⟩)

/-- Settles O53: after the accepted `ENC_START` the rest of the source is the source, and the build is empty. -/
theorem streamingEncoderEqualsEncode : Obligations.StreamingEncoderEqualsEncode := by
  intro s v w mid later hc he hm ha hv hw hmid
  have hstart : step s = .next s.popTurn.startEncode := encStartDiscardsTheModule s v (turn_of_cons ha) hv he hm
  have hends : EncodeEnds (mid.length + 1) (∀ x ∈ mid, x.srcByte.isSome = true) s.popTurn.startEncode
      (encodeSource s.cfg (mid.filterMap Turn.srcByte)) := by
    rw [encodeSource_eq]
    exact (encodes_startEncode (s := s.popTurn) hc he).encodeEnds (congrArg List.tail ha) hw hmid
  have hall := hends.succ hstart id
  cases hr : encodeSource s.cfg (mid.filterMap Turn.srcByte) with
  | ok m => rw [hr] at hall; exact hall
  | error e => rw [hr] at hall; exact hall

end Sys2Proof.Machine
end

section
/-! PROOF. The interpreter's step (41_dispatch.md R121 to R127): the start of a run, the dispatch and its illegal
words, the faults of a run on a well-formed module, and `IP` against `LEN` in `DONE`. -/

namespace Sys2Proof.Machine

variable {s t : State}

/-! ## The start of a run -/

/-- Settles O41: the command is accepted, and is `startRun`. -/
theorem runStartBeginsAFreshRun : Obligations.RunStartBeginsAFreshRun := by
  intro s v ht hc hm
  have hstep : step s = .next s.popTurn.startRun :=
    step_of_writeReg ht (writeCtrl_of_accepts (s := s.popTurn) (c := .runStart) hc (startable_iff.mpr hm))
  exact ⟨s.popTurn.startRun, hstep, fun _ => rfl, rfl, rfl, rfl, rfl, rfl⟩

/-! ## The device's turn in `RUNNING` -/

theorem step_of_running (ht : s.turn = .device) (hm : s.mode = .running) : step s = interpStep s.popTurn :=
  (step_of_device ht).trans (deviceStep_of_running (s := s.popTurn) hm)

/-- Below `LEN` the device dispatches the word at `IP`. -/
theorem step_of_running_of_lt (ht : s.turn = .device) (hm : s.mode = .running) (hl : s.ip.toNat < s.len.toNat)
    (hh : s.ip.toNat < s.cfg.heapSize) : step s = dispatch (s.imem.read s.ip.toNat) s.popTurn :=
  (step_of_running ht hm).trans (interpStep_of_lt (s := s.popTurn) hl hh)

theorem dispatch_of_ok {w : IWord} {i : Instr} (h : decode w = .ok i) (s : State) : dispatch w s = exec i s := by
  rw [dispatch, h]

theorem dispatch_of_error {w : IWord} {e : DecodeError} (h : decode w = .error e) (s : State) :
    dispatch w s = .next (s.enterFault .illegalInstruction) := by
  rw [dispatch, h, settle_raise]

/-- Settles O16: completion, dispatch, and no interpreter step, by `MODE` and `IP`. -/
theorem stepRunsTheDecodedInstruction : Obligations.StepRunsTheDecodedInstruction := by
  intro s ht
  refine ⟨fun hm he => ?_, fun hm hl hh => ?_, fun hm => ?_⟩
  · exact (step_of_running ht hm).trans (interpStep_of_eq (s := s.popTurn) he)
  · have hstep := step_of_running_of_lt ht hm hl hh
    exact ⟨fun i hd => hstep.trans (dispatch_of_ok hd _), fun e hd => hstep.trans (dispatch_of_error hd _)⟩
  · exact (step_of_device ht).trans (deviceStep_of_not_running (s := s.popTurn) hm)

/-- A count-bearing `OP` with the count 0 is illegal (30_encoding.md R77). -/
theorem decode_of_zeroCount {w : IWord} (h1 : 1 ≤ (opField w).toNat) (h4 : (opField w).toNat ≤ 4)
    (hc : cntField w = 0#8) : decode w = .error .zeroCount := by
  have hop : (opField w).toNat = 1 ∨ (opField w).toNat = 2 ∨ (opField w).toNat = 3 ∨ (opField w).toNat = 4 := by omega
  rw [decode, hc]
  rcases hop with h | h | h | h <;> rw [h] <;> rfl

/-- Settles O4: both kinds of word decode to an error, which the step raises. -/
theorem illegalWordRaisesBeforeAnyEffect : Obligations.IllegalWordRaisesBeforeAnyEffect := by
  intro s ht hm hl hh hw
  have hillegal : ∃ e, decode (s.imem.read s.ip.toNat) = .error e := by
    rcases hw with hop | ⟨h1, h4, hc⟩
    · exact ⟨_, decode_of_reserved hop⟩
    · exact ⟨_, decode_of_zeroCount h1 h4 hc⟩
  obtain ⟨e, hd⟩ := hillegal
  exact (step_of_running_of_lt ht hm hl hh).trans (dispatch_of_error hd _)

/-! ## The faults of a run on a well-formed module -/

/-- The jump of every bracket of a well-formed module stays below `LEN`: a `LoopStart` jumps to a slot there, and a
`LoopEnd` backwards. -/
theorem WellFormedModule.jtEntry_lt_len (h : WellFormedModule s) {i : Nat} (hi : i < s.len.toNat)
    (hb : isOpen (s.imem.read i) = true ∨ isClose (s.imem.read i) = true) : (s.jtEntry i).toNat < s.len.toNat := by
  obtain ⟨hopen, hclose⟩ := jumpTableIsSymmetric s h i hi
  rcases hb with ho | hc
  · obtain ⟨-, hlt, -, -⟩ := hopen ho
    exact hlt
  · exact Nat.lt_trans (hclose hc).1 hi

theorem WellFormedModule.interpStep_fault (h : WellFormedModule s) (hm : s.mode ≠ .fault)
    (hx : interpStep s = .next t) (hf : t.mode = .fault) : t.err = .pointerOutOfBounds := by
  rcases interpStep_next hx with ⟨-, rfl⟩ | ⟨hl, -, hx⟩
  · cases hf
  · obtain ⟨i, hd⟩ := h.legal _ hl
    rw [dispatch_of_ok hd] at hx
    rcases exec_next hx with ⟨rfl, -⟩ | ⟨-, hi, hjt⟩ | ⟨rfl, -⟩ | ⟨n, -, -, rfl⟩ | ⟨n, -, -, rfl⟩ |
      ⟨v, -, -, rfl⟩ | ⟨-, -, rfl⟩ | ⟨-, -, rfl⟩ | ⟨-, rfl⟩
    · rfl
    · exact absurd (h.jtEntry_lt_len hl (isBracket_of_decode hd hi)) (Nat.not_lt.mpr hjt)
    iterate 6 exact absurd hf hm
    cases hf

theorem inputStep_fault (hm : s.mode ≠ .fault) (hx : inputStep s = .next t) (hf : t.mode = .fault) :
    t.err = .inputFailed := by
  rcases inputStep_next hx with ⟨-, rfl⟩ | ⟨-, r, -, hx⟩
  · exact absurd hf hm
  · rcases respond_next hx with ⟨v, -, -, rfl⟩ | ⟨-, -, rfl⟩ | ⟨-, rfl⟩
    · cases hf
    · cases hf
    · rfl

/-- In a run a host access changes at most what the host has read (10_state.md R35, R36, R38, R39). -/
theorem hostStep_of_run (hm : s.mode = .running ∨ s.mode = .waitIn) (a : HostAccess) :
    ∃ rs, hostStep a s = .next { s with hostReads := rs } := by
  cases a with
  | readReg i => exact ⟨_, rfl⟩
  | readArray p i => exact ⟨_, rfl⟩
  | writeReg i v => exact ⟨s.hostReads, by rw [hostStep, writeReg_of_run hm]; rfl⟩
  | writeArray p i v =>
    have hclosed : portOpen s i = false := by rcases hm with hm | hm <;> simp [portOpen, hm, Mode.quiet]
    exact ⟨s.hostReads, by rw [hostStep, writePort_of_closed hclosed]⟩

/-- Settles O28, by the agent that has the turn: the device and the input environment fault with one error each, and
the host and the reset line with none. -/
theorem wellFormedRunFaultsOnlyByPointerOrInput : Obligations.WellFormedRunFaultsOnlyByPointerOrInput := by
  intro s t _ hwf hm hx hf
  have hne : s.mode ≠ .fault := by rcases hm with hm | hm <;> simp [hm]
  have hwf' : WellFormedModule s.popTurn := ⟨hwf.len_le, hwf.legal, hwf.paired⟩
  rcases step_next hx with ⟨-, -, rfl⟩ | ⟨-, -, hx⟩ | ⟨-, hx⟩ | ⟨a, -, hx⟩ | ⟨-, rfl⟩
  · exact absurd hf hne
  · exact .inl (hwf'.interpStep_fault hne hx hf)
  · exact .inr (inputStep_fault (s := s.popTurn) hne hx hf)
  · obtain ⟨rs, hs⟩ := hostStep_of_run (s := s.popTurn) hm a
    cases hs.symm.trans hx
    exact absurd hf hne
  · cases hf

/-! ## `IP` and `LEN` in `DONE` -/

/-- The interpreter enters `DONE` by completion alone. -/
theorem interpStep_done (hm : s.mode ≠ .done) (hx : interpStep s = .next t) (hd : t.mode = .done) : t.ip = t.len := by
  rcases interpStep_next hx with ⟨he, rfl⟩ | ⟨-, -, hx⟩
  · exact he
  · rcases dispatch_next hx with ⟨i, -, hx⟩ | ⟨e, -, rfl⟩
    · rcases exec_mode_err hx with ⟨h, -⟩ | ⟨-, h, -⟩ | ⟨-, h, -⟩ | ⟨-, h, -⟩
      · exact absurd (h.symm.trans hd) hm
      all_goals cases h.symm.trans hd
    · cases hd

/-- A response leaves a state in `DONE` only where there was no request: nothing changed. -/
theorem inputStep_done (hx : inputStep s = .next t) (hd : t.mode = .done) : t = s := by
  rcases inputStep_next hx with ⟨-, rfl⟩ | ⟨-, r, -, hx⟩
  · rfl
  · rcases respond_next hx with ⟨v, -, -, rfl⟩ | ⟨-, -, rfl⟩ | ⟨-, rfl⟩ <;> cases hd

/-- What a step within `DONE` does to `IP` and `LEN`; `x` is the turn that is taken. -/
def KeepsDone (x : Turn) (s t : State) : Prop :=
  s.mode = .done ∧ t.ip = s.ip ∧ (t.len = s.len ∨
    ∃ v : HostWord, x = .host (.writeReg 3 v) ∧ v.toNat ≤ s.cfg.heapSize ∧ t.len = BitVec.ofNat 15 v.toNat)

theorem writePort_keeps (p : HostArray) (i : Nat) (v : HostWord) (s : State) :
    (writePort p i v s).mode = s.mode ∧ (writePort p i v s).ip = s.ip ∧ (writePort p i v s).len = s.len := by
  rcases writePort_cases p i v s with h | ⟨-, ⟨-, h⟩ | ⟨-, h⟩⟩ <;> rw [h] <;> exact ⟨rfl, rfl, rfl⟩

theorem writeReg_done {i : Nat} {v : HostWord} (hx : settle s (writeReg i v s) = .next t) (hd : t.mode = .done) :
    KeepsDone (.host (.writeReg i v)) s t := by
  rcases writeReg_next hx with rfl | ⟨-, -, -, -, rfl⟩ | ⟨-, -, -, -, hx⟩ | ⟨-, -, -, rfl⟩ | ⟨-, -, -, rfl⟩ |
    ⟨-, -, hm, hx⟩ | ⟨rfl, -, hv, rfl⟩ | ⟨-, e, -, rfl, -⟩
  · exact ⟨hd, rfl, .inl rfl⟩
  · cases hd
  · cases (encodeEnd_frame hx).2.1.symm.trans hd
  · cases hd
  · cases hd
  · cases ((encodeByte_frame hx).2.1.trans hm).symm.trans hd
  · exact ⟨hd, rfl, .inr ⟨v, rfl, hv, rfl⟩⟩
  · cases hd

/-- The host enters `DONE` by no access, and within it changes `LEN` alone. -/
theorem hostStep_done {a : HostAccess} (hx : hostStep a s = .next t) (hd : t.mode = .done) :
    KeepsDone (.host a) s t := by
  rcases hostStep_next hx with ⟨v, -, rfl⟩ | ⟨i, v, rfl, hx⟩ | ⟨p, i, v, -, rfl⟩
  · exact ⟨hd, rfl, .inl rfl⟩
  · exact writeReg_done hx hd
  · obtain ⟨hmode, hip, hlen⟩ := writePort_keeps p i v s
    exact ⟨hmode.symm.trans hd, hip, .inl hlen⟩

/-- Every step that ends in `DONE` is the completion of a run or a step within `DONE`. -/
theorem step_done (hx : step s = .next t) (hd : t.mode = .done) :
    (s.mode = .running ∧ t.ip = t.len) ∨ KeepsDone s.turn s t := by
  rcases step_next hx with ⟨-, -, rfl⟩ | ⟨-, hm, hx⟩ | ⟨-, hx⟩ | ⟨a, ha, hx⟩ | ⟨-, rfl⟩
  · exact .inr ⟨hd, rfl, .inl rfl⟩
  · exact .inl ⟨hm, interpStep_done (s := s.popTurn) (by simp [hm]) hx hd⟩
  · cases inputStep_done hx hd
    exact .inr ⟨hd, rfl, .inl rfl⟩
  · rw [ha]
    exact .inr (hostStep_done (s := s.popTurn) hx hd)
  · cases hd

/-- A number up to `HEAPSIZE` fits in a slot. -/
theorem slot_toNat_ofNat_of_le {c : Config} (hc : c.legal) {n : Nat} (hn : n ≤ c.heapSize) :
    (BitVec.ofNat 15 n : Slot).toNat = n := by
  have hwidth := legal_heapSize_le hc
  exact (BitVec.toNat_ofNat _ _).trans (Nat.mod_eq_of_lt (by omega))

/-- Settles O60: the steps that end in `DONE` give the last two parts. The bound is `Inv`'s in a run, and in `DONE` it
follows from those two. -/
theorem ipExceedsLenOnlyByAHostWriteInDone : Obligations.IpExceedsLenOnlyByAHostWriteInDone := by
  intro s t hInv hx
  have henter : s.mode ≠ .done → t.mode = .done → t.ip = t.len := by
    intro hm hd
    rcases step_done hx hd with ⟨-, he⟩ | ⟨hm', -⟩
    · exact he
    · exact absurd hm' hm
  have hwithin : s.mode = .done → t.mode = .done → t.ip = s.ip ∧ (t.len = s.len ∨
      ∃ v : HostWord, s.turn = .host (.writeReg 3 v) ∧ v.toNat ≤ s.cfg.heapSize ∧ t.len.toNat = v.toNat) := by
    intro hm hd
    rcases step_done hx hd with ⟨hr, -⟩ | ⟨-, hip, hlen | ⟨v, ht, hv, hlen⟩⟩
    · cases hm.symm.trans hr
    · exact ⟨hip, .inl hlen⟩
    · exact ⟨hip, .inr ⟨v, ht, hv, hlen ▸ slot_toNat_ofNat_of_le hInv.cfg_legal hv⟩⟩
  have hInv' := everyStepKeepsTheInvariant s t hInv hx
  refine ⟨fun hs => ?_, henter, hwithin⟩
  by_cases hd : t.mode = .done
  · by_cases hm : s.mode = .done
    · have hle := hs (.inr (.inr hm))
      obtain ⟨hip, hlen | ⟨v, ht, -, hlen⟩⟩ := hwithin hm hd
      · exact .inl fun _ => by rwa [hip, hlen]
      · by_cases hv : v.toNat < s.ip.toNat
        · exact .inr ⟨hm, hip, v, ht, hv, hlen⟩
        · exact .inl fun _ => by rw [hip, hlen]; exact Nat.not_lt.mp hv
    · exact .inl fun _ => by rw [henter hm hd]
  · refine .inl fun hmode => ?_
    rcases hmode with hr | hw | hdone
    · exact hInv'.ip_le hr
    · exact Nat.le_of_lt (hInv'.ip_input hw).1
    · exact absurd hdone hd

end Sys2Proof.Machine
end

section
/-! PROOF. The data pointer (42_pointer.md): what the two moves answer (R140, R141), and which steps change `DP`
(R142). -/

namespace Sys2Proof.Machine

variable {s t : State}

/-! ## The moves -/

theorem exec_moveLeft_of_le {n : BitVec 8} (h : n.toNat ≤ s.dp.toNat) : exec (.moveLeft n) s =
    .next { s with dp := BitVec.ofNat 15 (s.dp.toNat - n.toNat), ip := s.ip + 1#15 } := by
  have target : (s.dp.toNat : Int) - count n = (s.dp.toNat - n.toNat : Nat) := (Int.ofNat_sub h).symm
  have hrange : ¬ ((s.dp.toNat - n.toNat : Nat) : Int) < 0 := by omega
  rw [exec, execMoveLeft, target, if_neg hrange]
  rfl

theorem exec_moveLeft_of_gt {n : BitVec 8} (h : s.dp.toNat < n.toNat) :
    exec (.moveLeft n) s = .next (s.enterFault .pointerOutOfBounds) := by
  have hrange : (s.dp.toNat : Int) - count n < 0 := Int.sub_neg_of_lt (Int.ofNat_lt.mpr h)
  rw [exec, execMoveLeft, if_pos hrange, settle_raise]

theorem exec_moveRight_of_lt {n : BitVec 8} (h : s.dp.toNat + n.toNat < s.cfg.heapSize) : exec (.moveRight n) s =
    .next { s with dp := BitVec.ofNat 15 (s.dp.toNat + n.toNat), ip := s.ip + 1#15 } := by
  have hrange : ¬ (s.cfg.heapSize : Int) ≤ (s.dp.toNat + n.toNat : Nat) := by omega
  exact congrArg (settle s) (if_neg hrange)

theorem exec_moveRight_of_ge {n : BitVec 8} (h : s.cfg.heapSize ≤ s.dp.toNat + n.toNat) :
    exec (.moveRight n) s = .next (s.enterFault .pointerOutOfBounds) := by
  have hrange : (s.cfg.heapSize : Int) ≤ (s.dp.toNat + n.toNat : Nat) := Int.ofNat_le.mpr h
  exact congrArg (settle s) (if_pos hrange)

/-- Settles O6: the word is `encode`'s, and the two outcomes are the two sides of the range check. What is left
of `DP` fits in a slot because `DP` does. -/
theorem moveLeftMovesOrFaults : Obligations.MoveLeftMovesOrFaults := by
  intro s n
  refine ⟨fun hn => decode_encode (i := .moveLeft n) (bne_iff_ne.mpr hn), fun h => ?_, exec_moveLeft_of_gt⟩
  have hwidth : s.dp.toNat - n.toNat < 2 ^ 15 := Nat.lt_of_le_of_lt (Nat.sub_le _ _) s.dp.isLt
  exact ⟨_, exec_moveLeft_of_le h, (BitVec.toNat_ofNat _ _).trans (Nat.mod_eq_of_lt hwidth), rfl⟩

/-- Settles O7: the word is `encode`'s, and the two outcomes are the two sides of the range check. Below a legal
`HEAPSIZE` the target fits in a slot. -/
theorem moveRightMovesOrFaults : Obligations.MoveRightMovesOrFaults := by
  intro s n hc
  refine ⟨fun hn => decode_encode (i := .moveRight n) (bne_iff_ne.mpr hn), fun h => ?_, exec_moveRight_of_ge⟩
  exact ⟨_, exec_moveRight_of_lt h, slot_toNat_ofNat_of_le hc (Nat.le_of_lt h), rfl⟩

/-! ## The writers of `DP` -/

/-- The fields of a run (10_state.md R20): the host writes them by starting one and in no other way. -/
structure RunFrame (s t : State) : Prop where
  ip : t.ip = s.ip
  dp : t.dp = s.dp
  tape : t.tape = s.tape
  outputs : t.outputs = s.outputs

theorem RunFrame.refl (s : State) : RunFrame s s := by constructor <;> rfl

theorem EncoderFrame.runFrame (h : EncoderFrame s t) : RunFrame s t := ⟨h.ip, h.dp, h.tape, h.outputs⟩

theorem writeReg_runFrame {i : Nat} {v : HostWord} (h : settle s (writeReg i v s) = .next t) :
    RunFrame s t ∨ (i = 0 ∧ command v = some .runStart ∧ s.mode.startable = true ∧ t = s.startRun) := by
  rcases writeReg_next h with rfl | ⟨-, -, -, -, rfl⟩ | ⟨-, -, -, -, h⟩ | hstart | ⟨-, -, -, rfl⟩ |
    ⟨-, -, -, h⟩ | ⟨-, -, -, rfl⟩ | ⟨-, e, -, rfl, -⟩
  · exact .inl (.refl _)
  · exact .inl (by constructor <;> rfl)
  · exact .inl (encodeEnd_frame h).1.runFrame
  · exact .inr hstart
  · exact .inl (by constructor <;> rfl)
  · exact .inl (encodeByte_frame h).1.runFrame
  · exact .inl (by constructor <;> rfl)
  · exact .inl (by constructor <;> rfl)

theorem writePort_runFrame (p : HostArray) (i : Nat) (v : HostWord) (s : State) :
    RunFrame s (writePort p i v s) := by
  rcases writePort_cases p i v s with h | ⟨-, ⟨-, h⟩ | ⟨-, h⟩⟩ <;> rw [h] <;> constructor <;> rfl

/-- Of the host's accesses only an accepted `RUN_START` writes the fields of a run. -/
theorem hostStep_runFrame {a : HostAccess} (h : hostStep a s = .next t) : RunFrame s t ∨
    ∃ v, a = .writeReg 0 v ∧ command v = some .runStart ∧ s.mode.startable = true ∧ t = s.startRun := by
  rcases hostStep_next h with ⟨v, -, rfl⟩ | ⟨i, v, rfl, h⟩ | ⟨p, i, v, -, rfl⟩
  · exact .inl (by constructor <;> rfl)
  · rcases writeReg_runFrame h with h | ⟨rfl, hstart⟩
    · exact .inl h
    · exact .inr ⟨v, rfl, hstart⟩
  · exact .inl (writePort_runFrame p i v s)

/-- An interpreter step changes `DP` only by dispatching a move. -/
theorem interpStep_dp_change (h : interpStep s = .next t) (hne : t.dp ≠ s.dp) :
    ∃ n, decode (s.imem.read s.ip.toNat) = .ok (.moveLeft n) ∨
      decode (s.imem.read s.ip.toNat) = .ok (.moveRight n) := by
  rcases interpStep_next h with ⟨-, rfl⟩ | ⟨-, -, h⟩
  · exact absurd rfl hne
  · rcases dispatch_next h with ⟨i, hd, h⟩ | ⟨e, -, rfl⟩
    · by_contra hmove
      refine hne (exec_dp h fun n => ⟨?_, ?_⟩) <;> rintro rfl
      · exact hmove ⟨n, .inl hd⟩
      · exact hmove ⟨n, .inr hd⟩
    · exact absurd rfl hne

theorem inputStep_dp (h : inputStep s = .next t) : t.dp = s.dp := by
  rcases inputStep_next h with ⟨-, rfl⟩ | ⟨-, r, -, h⟩
  · rfl
  · rcases respond_next h with ⟨v, -, -, rfl⟩ | ⟨-, -, rfl⟩ | ⟨-, rfl⟩ <;> rfl

/-- Settles O30: the range is a part of `Inv`, which every step keeps, and the writers are told by the agent that has
the turn. -/
theorem dataPointerStaysInRangeAndOnlyMovesWriteIt : Obligations.DataPointerStaysInRangeAndOnlyMovesWriteIt := by
  intro s t h
  refine ⟨fun hInv => (everyStepKeepsTheInvariant s t hInv h).dp_lt, fun hne => ?_⟩
  rcases step_next h with ⟨-, -, rfl⟩ | ⟨ht, hm, h⟩ | ⟨-, h⟩ | ⟨a, ht, h⟩ | ⟨ht, -⟩
  · exact absurd rfl hne
  · exact .inr (.inr ⟨ht, hm, interpStep_dp_change (s := s.popTurn) h hne⟩)
  · exact absurd (inputStep_dp h) hne
  · rcases hostStep_runFrame h with hframe | ⟨v, rfl, hc, hm, -⟩
    · exact absurd hframe.dp hne
    · exact .inr (.inl ⟨v, ht, command_eq_some.mp hc, startable_iff.mp hm⟩)
  · exact .inl ht

end Sys2Proof.Machine
end

section
/-! PROOF. Cell arithmetic (43_cell_arith.md): what `Increment` and `Decrement` answer (R150, R151), as addition and
subtraction of 8-bit patterns, from which the laws of R152 follow. -/

namespace Sys2Proof.Machine

variable {s : State}

/-! ## The arithmetic of `bits8` -/

theorem bits8_add (v n : Byte) : bits8 ((v.toNat : Int) + count n) = v + n := by
  refine BitVec.eq_of_toNat_eq ?_
  simp only [bits8, count, BitVec.toNat_ofNat, BitVec.toNat_add]
  omega

theorem bits8_sub (v n : Byte) : bits8 ((v.toNat : Int) - count n) = v - n := by
  refine BitVec.eq_of_toNat_eq ?_
  simp only [bits8, count, BitVec.toNat_ofNat, BitVec.toNat_sub]
  omega

/-- The remainder of R151 is not negative, where the `Nat` subtraction of the two patterns would stop at 0. -/
theorem toNat_sub_eq_emod (v n : Byte) : ((v - n).toNat : Int) = ((v.toNat : Int) - (n.toNat : Int)) % 256 := by
  rw [BitVec.toNat_sub]
  omega

/-! ## The two instructions -/

/-- What an instruction that stores `v` to the current cell and completes leaves (41_dispatch.md R125). -/
def State.storeCell (s : State) (v : Byte) : State :=
  { s with tape := s.tape.write s.dp.toNat v, ip := s.ip + 1#15 }

@[simp] theorem State.storeCell_dp (s : State) (v : Byte) : (s.storeCell v).dp = s.dp := rfl

theorem State.storeCell_read_same (s : State) (v : Byte) : (s.storeCell v).tape.read s.dp.toNat = v :=
  Memory.read_write_same _ _ _

theorem State.storeCell_read_other (s : State) (v : Byte) {a : Nat} (h : a ≠ s.dp.toNat) :
    (s.storeCell v).tape.read a = s.tape.read a :=
  Memory.read_write_other _ h _

/-- `DP` does not move between two stores, so both go to one cell and the second stays. -/
theorem State.storeCell_storeCell_read (s : State) (u v : Byte) (a : Nat) :
    ((s.storeCell u).storeCell v).tape.read a = (s.storeCell v).tape.read a := by
  by_cases ha : a = s.dp.toNat
  · subst ha
    exact ((s.storeCell u).storeCell_read_same v).trans (s.storeCell_read_same v).symm
  · rw [(s.storeCell u).storeCell_read_other v ha, s.storeCell_read_other u ha, s.storeCell_read_other v ha]

theorem State.storeCell_read_self (s : State) (a : Nat) :
    (s.storeCell (s.tape.read s.dp.toNat)).tape.read a = s.tape.read a := by
  by_cases ha : a = s.dp.toNat
  · subst ha
    exact s.storeCell_read_same _
  · exact s.storeCell_read_other _ ha

theorem exec_increment_of_lt (n : BitVec 8) (h : s.dp.toNat < s.cfg.heapSize) :
    exec (.increment n) s = .next (s.storeCell (s.tape.read s.dp.toNat + n)) := by
  rw [exec, execIncrement, updateCell_of_lt _ h, bits8_add, settle_ok, State.storeCell]

theorem exec_decrement_of_lt (n : BitVec 8) (h : s.dp.toNat < s.cfg.heapSize) :
    exec (.decrement n) s = .next (s.storeCell (s.tape.read s.dp.toNat - n)) := by
  rw [exec, execDecrement, updateCell_of_lt _ h, bits8_sub, settle_ok, State.storeCell]

/-! ## An instruction after a store finds what was stored -/

theorem exec_increment_storeCell (v n : BitVec 8) (h : s.dp.toNat < s.cfg.heapSize) :
    exec (.increment n) (s.storeCell v) = .next ((s.storeCell v).storeCell (v + n)) := by
  rw [exec_increment_of_lt n (s := s.storeCell v) h, State.storeCell_dp, State.storeCell_read_same]

theorem exec_decrement_storeCell (v n : BitVec 8) (h : s.dp.toNat < s.cfg.heapSize) :
    exec (.decrement n) (s.storeCell v) = .next ((s.storeCell v).storeCell (v - n)) := by
  rw [exec_decrement_of_lt n (s := s.storeCell v) h, State.storeCell_dp, State.storeCell_read_same]

/-! ## The statements -/

/-- Settles O8: the word is `encode`'s, and the sum of two patterns is the sum of their values modulo 256. -/
theorem incrementAddsModulo256 : Obligations.IncrementAddsModulo256 := by
  intro s n h
  refine ⟨fun hn => decode_encode (i := .increment n) (bne_iff_ne.mpr hn), _, exec_increment_of_lt n h, ?_,
    fun _ => s.storeCell_read_other _, rfl⟩
  rw [State.storeCell_read_same, BitVec.toNat_add]

/-- Settles O9: the word is `encode`'s, and the difference of two patterns is the non-negative remainder. -/
theorem decrementSubtractsModulo256 : Obligations.DecrementSubtractsModulo256 := by
  intro s n h
  refine ⟨fun hn => decode_encode (i := .decrement n) (bne_iff_ne.mpr hn), _, exec_decrement_of_lt n h, ?_,
    fun _ => s.storeCell_read_other _, rfl⟩
  rw [State.storeCell_read_same, toNat_sub_eq_emod]

/-- Settles O15: the second instruction acts on what the first one stored, so its store, the one that stays, is of
`v + a + b`, or of `v + a - a`, which is `v` itself. -/
theorem cellArithmeticIsModular : Obligations.CellArithmeticIsModular := by
  intro s a b h
  refine ⟨⟨_, _, exec_increment_of_lt a h, exec_increment_storeCell _ b h, ?_⟩,
    ⟨_, _, exec_increment_of_lt a h, exec_decrement_storeCell _ a h, fun x => ?_⟩⟩
  · rw [State.storeCell_storeCell_read, State.storeCell_read_same, BitVec.toNat_add, BitVec.toNat_add, Nat.mod_add_mod]
  · rw [State.storeCell_storeCell_read, BitVec.add_sub_cancel, State.storeCell_read_self]

end Sys2Proof.Machine
end

section
/-! PROOF. The brackets (44_loop.md): what `LoopStart` and `LoopEnd` answer (R160, R161), what a branch answers (R162),
and, in a well-formed module, the two dispatches of a bracket that branches (R163): it jumps to its partner, which
falls through because its test is the opposite one and the cell is the same. -/

namespace Sys2Proof.Machine

variable {s : State}

/-! ## The branch -/

theorem settle_branch_of_lt (hi : s.ip.toNat < s.cfg.heapSize) (hj : (s.jtEntry s.ip.toNat).toNat < s.len.toNat) :
    settle s (branch s) = .next { s with ip := s.jtEntry s.ip.toNat } := by
  rw [branch_of_lt hi, if_neg (Nat.not_le.mpr hj), settle_ok]

theorem settle_branch_of_ge (hi : s.ip.toNat < s.cfg.heapSize) (hj : s.len.toNat ≤ (s.jtEntry s.ip.toNat).toNat) :
    settle s (branch s) = .next (s.enterFault .badJumpTarget) := by
  rw [branch_of_lt hi, if_pos hj, settle_raise]

/-! ## The two instructions -/

theorem exec_loopStart_of_zero (hd : s.dp.toNat < s.cfg.heapSize) (hz : s.tape.read s.dp.toNat = 0#8) :
    exec .loopStart s = settle s (branch s) := by
  rw [exec, execLoopStart, cellIsZero_of_lt hd, Eff.bind_ok, if_pos (decide_eq_true hz)]

theorem exec_loopStart_of_ne_zero (hd : s.dp.toNat < s.cfg.heapSize) (hz : s.tape.read s.dp.toNat ≠ 0#8) :
    exec .loopStart s = .next s.advance := by
  rw [exec, execLoopStart, cellIsZero_of_lt hd, Eff.bind_ok, if_neg (by simpa using hz), settle_ok]

theorem exec_loopEnd_of_zero (hd : s.dp.toNat < s.cfg.heapSize) (hz : s.tape.read s.dp.toNat = 0#8) :
    exec .loopEnd s = .next s.advance := by
  rw [exec, execLoopEnd, cellIsZero_of_lt hd, Eff.bind_ok, if_pos (decide_eq_true hz), settle_ok]

theorem exec_loopEnd_of_ne_zero (hd : s.dp.toNat < s.cfg.heapSize) (hz : s.tape.read s.dp.toNat ≠ 0#8) :
    exec .loopEnd s = settle s (branch s) := by
  rw [exec, execLoopEnd, cellIsZero_of_lt hd, Eff.bind_ok, if_neg (by simpa using hz)]

/-- Settles O10: the decoder's row at `OP` 0x05, and the test of the cell followed, on 0, by the branch. -/
theorem loopStartBranchesOnZero : Obligations.LoopStartBranchesOnZero := by
  intro s hd hi
  refine ⟨decode_opcode_append .loopStart, rfl, exec_loopStart_of_ne_zero hd, fun hz hj => ?_, fun hz hj => ?_⟩
  · exact (exec_loopStart_of_zero hd hz).trans (settle_branch_of_lt hi hj)
  · exact (exec_loopStart_of_zero hd hz).trans (settle_branch_of_ge hi hj)

/-- Settles O11: the decoder's row at `OP` 0x06, and the test of the cell followed, off 0, by the branch. -/
theorem loopEndBranchesOnNonzero : Obligations.LoopEndBranchesOnNonzero := by
  intro s hd hi
  refine ⟨decode_opcode_append .loopEnd, rfl, exec_loopEnd_of_zero hd, fun hz hj => ?_, fun hz hj => ?_⟩
  · exact (exec_loopEnd_of_ne_zero hd hz).trans (settle_branch_of_lt hi hj)
  · exact (exec_loopEnd_of_ne_zero hd hz).trans (settle_branch_of_ge hi hj)

/-! ## The bracket at `IP` -/

theorem decode_of_isOpen {w : IWord} (h : isOpen w = true) : decode w = .ok .loopStart :=
  decode_of_opField (i := .loopStart) (beq_iff_eq.mp h)

theorem decode_of_isClose {w : IWord} (h : isClose w = true) : decode w = .ok .loopEnd :=
  decode_of_opField (i := .loopEnd) (beq_iff_eq.mp h)

/-- The word at `IP` is a bracket that branches on the current cell (44_loop.md R160, R161). -/
def State.Branches (s : State) : Prop :=
  isOpen (s.imem.read s.ip.toNat) = true ∧ s.tape.read s.dp.toNat = 0#8 ∨
  isClose (s.imem.read s.ip.toNat) = true ∧ s.tape.read s.dp.toNat ≠ 0#8

/-- The word at `IP` is a bracket that falls through on the current cell. -/
def State.FallsThrough (s : State) : Prop :=
  isOpen (s.imem.read s.ip.toNat) = true ∧ s.tape.read s.dp.toNat ≠ 0#8 ∨
  isClose (s.imem.read s.ip.toNat) = true ∧ s.tape.read s.dp.toNat = 0#8

theorem State.Branches.isBracket (h : s.Branches) :
    isOpen (s.imem.read s.ip.toNat) = true ∨ isClose (s.imem.read s.ip.toNat) = true := h.imp And.left And.left

theorem dispatch_of_branches (hd : s.dp.toNat < s.cfg.heapSize) (hb : s.Branches) :
    dispatch (s.imem.read s.ip.toNat) s = settle s (branch s) := by
  rcases hb with ⟨ho, hz⟩ | ⟨hc, hz⟩
  · exact (dispatch_of_ok (decode_of_isOpen ho) s).trans (exec_loopStart_of_zero hd hz)
  · exact (dispatch_of_ok (decode_of_isClose hc) s).trans (exec_loopEnd_of_ne_zero hd hz)

theorem dispatch_of_fallsThrough (hd : s.dp.toNat < s.cfg.heapSize) (hf : s.FallsThrough) :
    dispatch (s.imem.read s.ip.toNat) s = .next s.advance := by
  rcases hf with ⟨ho, hz⟩ | ⟨hc, hz⟩
  · exact (dispatch_of_ok (decode_of_isOpen ho) s).trans (exec_loopStart_of_ne_zero hd hz)
  · exact (dispatch_of_ok (decode_of_isClose hc) s).trans (exec_loopEnd_of_zero hd hz)

/-- The jump table leads from a bracket to one of the other kind, and the jump leaves the cell as it is. -/
theorem WellFormedModule.fallsThrough_at_partner (h : WellFormedModule s) (hl : s.ip.toNat < s.len.toNat)
    (hb : s.Branches) : State.FallsThrough { s with ip := s.jtEntry s.ip.toNat } := by
  obtain ⟨hopen, hclose⟩ := jumpTableIsSymmetric s h s.ip.toNat hl
  rcases hb with ⟨ho, hz⟩ | ⟨hc, hz⟩
  · obtain ⟨-, -, hpartner, -⟩ := hopen ho
    exact .inr ⟨hpartner, hz⟩
  · obtain ⟨-, hpartner, -⟩ := hclose hc
    exact .inl ⟨hpartner, hz⟩

/-! ## The two dispatches -/

/-- With no turn pending, a step of a run dispatches the word at `IP`. -/
theorem Inv.step_eq_dispatch (h : Inv s) (hm : s.mode = .running) (ha : s.agenda = [])
    (hl : s.ip.toNat < s.len.toNat) : step s = dispatch (s.imem.read s.ip.toNat) s := by
  have hstep := step_of_running_of_lt (turn_of_nil ha (by simp [hm])) hm hl (Nat.lt_of_lt_of_le hl h.len_le)
  rwa [popTurn_of_nil ha] at hstep

/-- Settles O57: the first dispatch jumps to the partner, and the second falls through there. -/
theorem branchLandsJustPastThePartner : Obligations.BranchLandsJustPastThePartner := by
  intro s h hwf hm ha hl hb
  have hj : (s.jtEntry s.ip.toNat).toNat < s.len.toNat := hwf.jtEntry_lt_len hl (State.Branches.isBracket hb)
  have hjump : step s = .next { s with ip := s.jtEntry s.ip.toNat } := by
    rw [h.step_eq_dispatch hm ha hl, dispatch_of_branches h.dp_lt hb]
    exact settle_branch_of_lt (Nat.lt_of_lt_of_le hl h.len_le) hj
  have hfall : step { s with ip := s.jtEntry s.ip.toNat } = .next { s with ip := s.jtEntry s.ip.toNat + 1#15 } :=
    ((h.setIp hm (Nat.le_of_lt hj)).step_eq_dispatch hm ha hj).trans
      (dispatch_of_fallsThrough h.dp_lt (hwf.fallsThrough_at_partner hl hb))
  exact core_run_succ_eq_next.mpr ⟨_, hjump, core_run_succ_eq_next.mpr ⟨_, hfall, rfl⟩⟩

end Sys2Proof.Machine
end

section
/-! PROOF. Input and output (45_io.md): what `Output` and the dispatch of `Input` answer (R170, R172), which steps send
a byte (R171, R177), what each response does (R174 to R176), and how a wait goes on and ends (R173, R178). -/

namespace Sys2Proof.Machine

variable {s t : State}

/-! ## The two instructions -/

theorem exec_output_of_lt (hd : s.dp.toNat < s.cfg.heapSize) : exec .output s =
    .next { s with outputs := s.outputs ++ [s.tape.read s.dp.toNat], ip := s.ip + 1#15 } := by
  rw [exec, execOutput, readCell, readTape_of_lt hd, Eff.bind_ok, settle_ok, State.advance, State.sendByte]

/-- Settles O12: the decoder's row at `OP` 0x07, and in range the read of the cell always answers. -/
theorem outputSendsTheCell : Obligations.OutputSendsTheCell := by
  intro s hd
  exact ⟨decode_opcode_append .output, rfl, exec_output_of_lt hd⟩

/-- Settles O13: the decoder's row at `OP` 0x08, and a dispatch that touches no array. -/
theorem inputDispatchOnlyWaits : Obligations.InputDispatchOnlyWaits := by
  intro s
  exact ⟨decode_opcode_append .input, rfl, settle_ok s _⟩

/-! ## The output sequence -/

/-- An interpreter step that dispatches an `Output` sends the current cell. -/
theorem interpStep_sends (h : interpStep s = .next t) (hl : s.ip.toNat < s.len.toNat)
    (hd : decode (s.imem.read s.ip.toNat) = .ok .output) :
    t.outputs = s.outputs ++ [s.tape.read s.dp.toNat] := by
  rcases interpStep_next h with ⟨he, -⟩ | ⟨-, -, h⟩
  · exact absurd (congrArg BitVec.toNat he) (Nat.ne_of_lt hl)
  · rw [dispatch_of_ok hd] at h
    obtain ⟨-, rfl⟩ := execOutput_next h
    rfl

/-- No other interpreter step sends a byte. -/
theorem interpStep_outputs_change (h : interpStep s = .next t) (hne : t.outputs ≠ s.outputs) :
    s.ip.toNat < s.len.toNat ∧ decode (s.imem.read s.ip.toNat) = .ok .output := by
  rcases interpStep_next h with ⟨-, rfl⟩ | ⟨hl, -, h⟩
  · exact absurd rfl hne
  · rcases dispatch_next h with ⟨i, hd, h⟩ | ⟨e, -, rfl⟩
    · by_cases hi : i = .output
      · exact ⟨hl, hi ▸ hd⟩
      · exact absurd (exec_outputs h hi) hne
    · exact absurd rfl hne

theorem inputStep_outputs (h : inputStep s = .next t) : t.outputs = s.outputs := by
  rcases inputStep_next h with ⟨-, rfl⟩ | ⟨-, r, -, h⟩
  · rfl
  · rcases respond_next h with ⟨v, -, -, rfl⟩ | ⟨-, -, rfl⟩ | ⟨-, rfl⟩ <;> rfl

/-- A step that dispatches an `Output` sends the current cell. -/
theorem step_sends (h : step s = .next t) (ht : s.turn = .device) (hm : s.mode = .running)
    (hl : s.ip.toNat < s.len.toNat) (hd : decode (s.imem.read s.ip.toNat) = .ok .output) :
    t.outputs = s.outputs ++ [s.tape.read s.dp.toNat] :=
  interpStep_sends (s := s.popTurn) ((step_of_running ht hm).symm.trans h) hl hd

/-- Settles O32, by the agent that has the turn: the device sends by an `Output` alone, and the host begins a new
sequence by `RUN_START` alone. -/
theorem onlyOutputSendsBytes : Obligations.OnlyOutputSendsBytes := by
  intro s t h
  refine ⟨?_, step_sends h⟩
  rcases step_next h with ⟨-, -, rfl⟩ | ⟨ht, hm, hx⟩ | ⟨-, hx⟩ | ⟨a, ht, hx⟩ | ⟨-, rfl⟩
  · exact .inl rfl
  · by_cases hsame : t.outputs = s.outputs
    · exact .inl hsame
    · obtain ⟨hl, hd⟩ := interpStep_outputs_change (s := s.popTurn) hx hsame
      exact .inr (.inl ⟨step_sends h ht hm hl hd, ht, hm, hl, hd⟩)
  · exact .inl (inputStep_outputs (s := s.popTurn) hx)
  · rcases hostStep_runFrame hx with hframe | ⟨v, rfl, hc, hm, rfl⟩
    · exact .inl hframe.outputs
    · exact .inr (.inr ⟨rfl, rfl, startable_iff.mp hm, v, ht, command_eq_some.mp hc⟩)
  · exact .inl rfl

/-! ## The responses -/

/-- The state in which a response takes effect: its turn and the response itself are used up. -/
def State.takeResponse (s : State) : State := { s with agenda := s.agenda.tail, inputs := s.inputs.rest }

/-- In `WAIT_IN` a turn of the input environment does what its response does. -/
theorem step_of_response {r : Response} (ht : s.turn = .input) (hm : s.mode = .waitIn) (hr : s.inputs.next = some r) :
    step s = settle s.takeResponse (respond r s.takeResponse) :=
  (step_of_input ht).trans (inputStep_of_waiting (s := s.popTurn) hm hr)

theorem inputStep_of_no_response (h : s.inputs.next = none) : inputStep s = .next s := by
  simp [inputStep, h]

theorem respond_byte_of_lt (b : Byte) (hd : s.dp.toNat < s.cfg.heapSize) :
    respond (.byte b) s = .ok { s.storeCell b with mode := .running } := by
  rw [respond, writeCell, writeTape_of_lt hd, Eff.bind_ok, State.resume, State.advance, State.storeCell]

/-- Under `ZERO` a program cannot tell `Eof` from `Byte(0x00)` (45_io.md R175). -/
theorem respond_eof_of_zero (hp : s.cfg.eofPolicy = .zero) : respond .eof s = respond (.byte 0x00#8) s := by
  simp [respond, hp]

theorem respond_eof_of_unchanged (hp : s.cfg.eofPolicy = .unchanged) : respond .eof s = .ok s.resume := by
  simp [respond, hp]

/-- Settles O19: the response is a store to the current cell that completes the `Input`. -/
theorem byteResponseStoresAndResumes : Obligations.ByteResponseStoresAndResumes := by
  intro s b ht hm hr hd
  have hstep : step s = .next { s.takeResponse.storeCell b with mode := .running } := by
    rw [step_of_response ht hm hr, respond_byte_of_lt (s := s.takeResponse) b hd, settle_ok]
  exact ⟨_, hstep, s.takeResponse.storeCell_read_same b, fun _ => s.takeResponse.storeCell_read_other b, rfl⟩

/-- Settles O20: under `ZERO` the response is `Byte(0x00)`, under `UNCHANGED` it only completes the `Input`. -/
theorem eofResponseFollowsThePolicy : Obligations.EofResponseFollowsThePolicy := by
  intro s ht hm hr hd
  cases hp : s.cfg.eofPolicy with
  | zero =>
    have hstep : step s = .next { s.takeResponse.storeCell 0x00#8 with mode := .running } := by
      rw [step_of_response ht hm hr, respond_eof_of_zero (s := s.takeResponse) hp,
        respond_byte_of_lt (s := s.takeResponse) _ hd, settle_ok]
    exact ⟨_, hstep, fun _ => s.takeResponse.storeCell_read_same _, nofun,
      fun _ => s.takeResponse.storeCell_read_other _, rfl⟩
  | unchanged =>
    have hstep : step s = .next s.takeResponse.resume := by
      rw [step_of_response ht hm hr, respond_eof_of_unchanged (s := s.takeResponse) hp, settle_ok]
    exact ⟨_, hstep, nofun, fun _ => rfl, fun _ _ => rfl, rfl⟩

/-- Settles O21: the response raises, and the error is no CompileError, so `LEN` stays too. -/
theorem failResponseFaults : Obligations.FailResponseFaults := by
  intro s ht hm hr
  exact (step_of_response ht hm hr).trans (settle_raise _ _)

/-! ## The wait -/

/-- Settles O22: without a request or without an answer the environment takes no step. -/
theorem noResponseOutsideWaiting : Obligations.NoResponseOutsideWaiting := by
  intro s ht h
  rw [step_of_input ht]
  rcases h with hm | hr
  · exact inputStep_of_not_waiting (s := s.popTurn) hm
  · exact inputStep_of_no_response (s := s.popTurn) hr

/-- A response ends the wait: the run goes on, or has failed. -/
theorem respond_mode {r : Response} (h : settle s (respond r s) = .next t) :
    t.mode = .running ∨ (t.mode = .fault ∧ t.err = .inputFailed) := by
  rcases respond_next h with ⟨v, -, -, rfl⟩ | ⟨-, -, rfl⟩ | ⟨-, rfl⟩
  · exact .inl rfl
  · exact .inl rfl
  · exact .inr ⟨rfl, rfl⟩

/-- Settles O23, by the agent that has the turn: the device has no step, the host only reads, and the input
environment waits on or answers. -/
theorem waitEndsOnlyByResponseOrReset : Obligations.WaitEndsOnlyByResponseOrReset := by
  intro s t hm h
  rcases step_next h with ⟨-, -, rfl⟩ | ⟨-, hr, -⟩ | ⟨ht, h⟩ | ⟨a, -, h⟩ | ⟨ht, -⟩
  · exact .inl ⟨rfl, hm⟩
  · cases hm.symm.trans hr
  · rcases inputStep_next h with ⟨-, rfl⟩ | ⟨-, r, hr, h⟩
    · exact .inl ⟨rfl, hm⟩
    · exact .inr (.inr ⟨ht, Option.ne_none_iff_exists'.mpr ⟨r, hr⟩, respond_mode h⟩)
  · obtain ⟨rs, hs⟩ := hostStep_of_run (s := s.popTurn) (.inr hm) a
    cases hs.symm.trans h
    exact .inl ⟨rfl, hm⟩
  · exact .inr (.inl ht)

end Sys2Proof.Machine
end

section
/-! PROOF. `Nop` (46_nop.md R185): it completes in every state, and of the state it moves `IP` alone. -/

namespace Sys2Proof.Machine

/-- `Nop` is the shared completion step and no other operation: it has no branch that raises. -/
theorem exec_nop (s : State) : exec .nop s = .next s.advance := by
  rw [exec, execNop, settle_ok]

/-- Settles O5: the decoder's row at `OP` 0x00, which reads no count, and a completion that writes `IP` alone. -/
theorem nopOnlyAdvances : Obligations.NopOnlyAdvances := by
  intro s
  exact ⟨decode_opcode_append .nop, rfl, exec_nop s⟩

end Sys2Proof.Machine
end

section
/-! PROOF. Errors (60_exceptions.md): every step that raises is the one operation that takes an error, in the state the
turn found (R193), in a quiet mode no agent but the host moves (R206, R221), and the fault state is left by `CLEAR` or
reset alone (R198). -/

namespace Sys2Proof.Machine

variable {s t : State}

/-! ## The quiet modes -/

theorem step_of_quiet (hq : s.mode.quiet = true) (ht : s.turn = .device ∨ s.turn = .input) :
    step s = .next s.popTurn := by
  have hrun : s.popTurn.mode ≠ .running := by rintro (h : s.mode = .running); simp [h, Mode.quiet] at hq
  have hwait : s.popTurn.mode ≠ .waitIn := by rintro (h : s.mode = .waitIn); simp [h, Mode.quiet] at hq
  rcases ht with ht | ht
  · exact (step_of_device ht).trans (deviceStep_of_not_running hrun)
  · exact (step_of_input ht).trans (inputStep_of_not_waiting hwait)

theorem step_of_fault (hm : s.mode = .fault) (ht : s.turn = .device ∨ s.turn = .input) : step s = .next s.popTurn :=
  step_of_quiet (hm ▸ rfl) ht

/-- Settles O18: the device steps only in `RUNNING`, and the input environment only in `WAIT_IN`. -/
theorem quietModesOnlyMoveByHost : Obligations.QuietModesOnlyMoveByHost := by
  intro s hm ht
  exact step_of_quiet (quiet_iff.mpr hm) ht

/-! ## The fault state is entered -/

/-- `t` is `s` with an error taken in it, one that no response gives. -/
def Raised (s t : State) : Prop := ∃ e : Err, e ≠ .none ∧ e ≠ .inputFailed ∧ t = s.enterFault e

theorem exec_raised {i : Instr} (hm : s.mode ≠ .fault) (h : exec i s = .next t) (hf : t.mode = .fault) :
    Raised s t := by
  rcases exec_next h with ⟨rfl, -⟩ | ⟨rfl, -, -⟩ | ⟨rfl, -⟩ | ⟨n, -, -, rfl⟩ | ⟨n, -, -, rfl⟩ |
    ⟨v, -, -, rfl⟩ | ⟨-, -, rfl⟩ | ⟨-, -, rfl⟩ | ⟨-, rfl⟩
  · exact ⟨.pointerOutOfBounds, nofun, nofun, rfl⟩
  · exact ⟨.badJumpTarget, nofun, nofun, rfl⟩
  iterate 6 exact absurd hf hm
  cases hf

theorem interpStep_raised (hm : s.mode ≠ .fault) (h : interpStep s = .next t) (hf : t.mode = .fault) :
    Raised s t := by
  rcases interpStep_next h with ⟨-, rfl⟩ | ⟨-, -, h⟩
  · cases hf
  · rcases dispatch_next h with ⟨i, -, h⟩ | ⟨e, -, rfl⟩
    · exact exec_raised hm h hf
    · exact ⟨.illegalInstruction, nofun, nofun, rfl⟩

/-- Of the responses only the failed one raises, in the state without it (45_io.md R176). -/
theorem inputStep_raised (hm : s.mode ≠ .fault) (h : inputStep s = .next t) (hf : t.mode = .fault) :
    t = { s with inputs := s.inputs.rest }.enterFault .inputFailed := by
  rcases inputStep_next h with ⟨-, rfl⟩ | ⟨-, r, -, h⟩
  · exact absurd hf hm
  · rcases respond_next h with ⟨v, -, -, rfl⟩ | ⟨-, -, rfl⟩ | ⟨-, rfl⟩
    · cases hf
    · cases hf
    · rfl

theorem raised_of_isCompile {e : Err} (he : e.isCompile = true) : Raised s (s.enterFault e) :=
  ⟨e, ne_none_of_isCompile he, (by rintro rfl; cases he), rfl⟩

/-- Of the host's accesses only the encoder's raise. -/
theorem hostStep_raised {a : HostAccess} (hm : s.mode ≠ .fault) (h : hostStep a s = .next t) (hf : t.mode = .fault) :
    Raised s t := by
  rcases hostStep_next h with ⟨v, -, rfl⟩ | ⟨i, v, -, h⟩ | ⟨p, i, v, -, rfl⟩
  · exact absurd hf hm
  · rcases writeReg_next h with rfl | ⟨-, -, -, -, rfl⟩ | ⟨-, -, -, -, h⟩ | ⟨-, -, -, rfl⟩ | ⟨-, -, -, rfl⟩ |
      ⟨-, -, -, h⟩ | ⟨-, -, -, rfl⟩ | ⟨-, e, he, rfl, -⟩
    · exact absurd hf hm
    · cases hf
    · cases (encodeEnd_frame h).2.1.symm.trans hf
    · cases hf
    · cases hf
    · exact absurd ((encodeByte_frame h).2.1.symm.trans hf) hm
    · exact absurd hf hm
    · exact raised_of_isCompile he
  · exact absurd ((writePort_keeps p i v s).1.symm.trans hf) hm

/-- A step that enters `FAULT` takes an error in the state its turn left, or a failed response in the state without
it. -/
theorem step_raised (h : step s = .next t) (hm : s.mode ≠ .fault) (hf : t.mode = .fault) :
    Raised s.popTurn t ∨ t = s.takeResponse.enterFault .inputFailed := by
  rcases step_next h with ⟨-, -, rfl⟩ | ⟨-, -, h⟩ | ⟨-, h⟩ | ⟨a, -, h⟩ | ⟨-, rfl⟩
  · exact absurd hf hm
  · exact .inl (interpStep_raised (s := s.popTurn) hm h hf)
  · exact .inr (inputStep_raised (s := s.popTurn) hm h hf)
  · exact .inl (hostStep_raised (s := s.popTurn) hm h hf)
  · cases hf

/-! ## The fault state is left -/

/-- Of the host's accesses in `FAULT` only a `CLEAR` leaves it (60_exceptions.md R198). -/
theorem hostStep_leaves_fault {a : HostAccess} (hm : s.mode = .fault) (h : hostStep a s = .next t)
    (hf : t.mode ≠ .fault) : ∃ v, a = .writeReg 0 v ∧ command v = some .clear := by
  rcases hostStep_next h with ⟨v, -, rfl⟩ | ⟨i, v, rfl, h⟩ | ⟨p, i, v, -, rfl⟩
  · exact absurd hm hf
  · rcases writeReg_next h with rfl | ⟨-, -, -, hq, -⟩ | ⟨-, -, -, he, -⟩ | ⟨-, -, hq, -⟩ | ⟨rfl, hc, -, -⟩ |
      ⟨-, -, he, -⟩ | ⟨-, -, -, rfl⟩ | ⟨he, -⟩
    · exact absurd hm hf
    · simp [hm, Mode.startable] at hq
    · cases hm.symm.trans he
    · simp [hm, Mode.startable] at hq
    · exact ⟨v, rfl, hc⟩
    · cases hm.symm.trans he
    · exact absurd hm hf
    · cases hm.symm.trans he
  · exact absurd ((writePort_keeps p i v s).1.trans hm) hf

theorem step_leaves_fault (h : step s = .next t) (hm : s.mode = .fault) (hf : t.mode ≠ .fault) :
    s.turn = .reset ∨ ∃ v, s.turn = .host (.writeReg 0 v) ∧ command v = some .clear := by
  have hstays : s.turn = .device ∨ s.turn = .input → s.mode = t.mode := fun ht => by
    cases (step_of_fault hm ht).symm.trans h
    rfl
  cases ht : s.turn with
  | device => exact absurd ((hstays (.inl ht)).symm.trans hm) hf
  | input => exact absurd ((hstays (.inr ht)).symm.trans hm) hf
  | host a =>
    obtain ⟨v, rfl, hc⟩ := hostStep_leaves_fault (s := s.popTurn) hm ((step_of_host ht).symm.trans h) hf
    exact .inr ⟨v, rfl, hc⟩
  | reset => exact .inl rfl

/-- Settles O27: the step takes one error, and what it writes is what `enterFault` writes. -/
theorem raiseWritesOnlyTheFaultState : Obligations.RaiseWritesOnlyTheFaultState := by
  refine ⟨fun s t h hm hf => ?_, fun s t h hm hf => ?_, fun _ => step_of_fault⟩
  · rcases step_raised h hm hf with ⟨e, hnone, hinput, rfl⟩ | rfl
    · refine ⟨?_, hnone⟩
      rw [State.enterFault_err, if_neg hinput]
      rfl
    · exact ⟨rfl, nofun⟩
  · rcases step_leaves_fault h hm hf with ht | ⟨v, ht, hc⟩
    · exact .inl ht
    · exact .inr ⟨v, ht, command_eq_some.mp hc⟩

end Sys2Proof.Machine
end

section
/-! PROOF. Reset and hazards (70_reset_and_hazards.md): what a reset gives (R220), the word that is placed for the next
step (R223), and the writes of the module that a busy block does not take (R225). -/

namespace Sys2Proof.Machine

variable {s : State}

/-! ## Reset -/

@[simp] theorem undelivered_waitIn (rs : Source) : undelivered .waitIn rs = rs.rest := rfl

theorem undelivered_of_ne {m : Mode} (hm : m ≠ .waitIn) (rs : Source) : undelivered m rs = rs := by
  cases m with
  | waitIn => exact absurd rfl hm
  | _ => rfl

/-- Settles O42: the step is `applyReset`, and the arrays take the next four draws. -/
theorem resetFromAnyMode : Obligations.ResetFromAnyMode := by
  intro s ht
  refine ⟨_, step_of_reset ht, rfl, rfl, rfl, rfl, rfl, rfl, rfl, rfl, ⟨_, rfl⟩, ⟨_, rfl⟩, ⟨_, rfl⟩, ⟨_, rfl⟩,
    rfl, rfl, rfl, fun hm => ?_, fun hm => undelivered_of_ne hm _⟩
  simp [hm]

/-! ## The writes a busy block does not take -/

/-- Settles O38: outside the quiet modes `LEN` takes no value and no port is open. -/
theorem busyModuleWritesAreLost : Obligations.BusyModuleWritesAreLost := by
  intro s hm
  have hbusy : s.popTurn.mode.quiet = false := by rcases hm with hm | hm | hm <;> simp [hm, Mode.quiet]
  refine ⟨fun v ht => ?_, fun p i v ht => ?_⟩
  · exact step_of_ignored ht (writeLen_of_refused (.inl hbusy))
  · have hclosed : portOpen s.popTurn i = false := Bool.and_eq_false_iff.mpr (.inl hbusy)
    rw [step_of_writeArray ht, writePort_of_closed hclosed]
    rfl

/-! ## The placed word -/

@[simp] theorem State.placeAtIp_cfg (s : State) (w : IWord) : (s.placeAtIp w).cfg = s.cfg := rfl

@[simp] theorem State.placeAtIp_mode (s : State) (w : IWord) : (s.placeAtIp w).mode = s.mode := rfl

@[simp] theorem State.placeAtIp_ip (s : State) (w : IWord) : (s.placeAtIp w).ip = s.ip := rfl

@[simp] theorem State.placeAtIp_agenda (s : State) (w : IWord) : (s.placeAtIp w).agenda = [] := rfl

@[simp] theorem State.placeAtIp_read (s : State) (w : IWord) : (s.placeAtIp w).imem.read s.ip.toNat = w :=
  s.imem.read_write_same _ _

/-- `LEN` covers the slot the word is placed in. -/
theorem State.ip_lt_placeAtIp_len (hc : s.cfg.legal) (hi : s.ip.toNat < s.cfg.heapSize) (w : IWord) :
    s.ip.toNat < (s.placeAtIp w).len.toNat := by
  rw [State.placeAtIp]
  dsimp only
  split
  · exact ‹_ ∧ _›.1
  · have hwidth := legal_heapSize_le hc
    rw [toNat_succ (by omega)]
    omega

@[simp] theorem State.readyToFetch_cfg (s : State) : s.readyToFetch.cfg = s.cfg := by
  rw [State.readyToFetch]
  split <;> rfl

/-- A state made ready to fetch is in `RUNNING`, at a slot of the module memory. -/
theorem State.readyToFetch_running (hc : s.cfg.legal) :
    s.readyToFetch.mode = .running ∧ s.readyToFetch.ip.toNat < s.readyToFetch.cfg.heapSize := by
  rw [State.readyToFetch]
  split
  · exact ‹s.mode = .running ∧ _›
  · exact ⟨rfl, hc.1⟩

/-- A word placed in a running state is the next one dispatched. -/
theorem step_placeAtIp (hc : s.cfg.legal) (hm : s.mode = .running) (hi : s.ip.toNat < s.cfg.heapSize) (w : IWord) :
    step (s.placeAtIp w) = dispatch w (s.placeAtIp w) := by
  have hturn : (s.placeAtIp w).turn = .device := turn_of_nil rfl (by simp [hm])
  rw [step_of_running_of_lt hturn hm (State.ip_lt_placeAtIp_len hc hi w) hi, popTurn_of_nil rfl, State.placeAtIp_ip,
    State.placeAtIp_read]

theorem decode_of_decodeTableWord {nbits w : Nat} {i : Instr} (h : decodeTableWord nbits w = some i) :
    decode (tableWord nbits w) = .ok i := by
  rw [decodeTableWord] at h
  split at h
  · cases h; assumption
  · cases h

/-- Settles O17: the state is made ready to fetch, and the word is the one at its `IP`. -/
theorem placedWordRunsNext : Obligations.PlacedWordRunsNext := by
  intro s nbits w i hc hd
  obtain ⟨hm, hi⟩ := State.readyToFetch_running hc
  rw [State.withFetchWord, step_placeAtIp (s.readyToFetch_cfg ▸ hc) hm hi,
    dispatch_of_ok (decode_of_decodeTableWord hd)]

end Sys2Proof.Machine
end
